-- ==== Sys2Proof/Word.lean ====
section
/-! DEFINITION. The widths of the block's data: bytes, half words and 32-bit words (spec 00_scope.md R9, R11),
and the names of its four memories (10_state.md R60). -/

namespace Sys2Proof

/-- A byte, the data unit of every memory (R9). -/
abbrev Byte := BitVec 8

/-- A `u16` (R11). -/
abbrev Half := BitVec 16

/-- A 32-bit word, the width of every register (R9); also a `u32` and the bit pattern of an `i32` (R11). -/
abbrev Word := BitVec 32

/-- The four memories of R60; the register space is the fifth address space and has accessors of its own. -/
inductive Space where
  /-- The input memory, written by the host (R61). -/
  | inmem
  /-- The output memory, written by the core (R62). -/
  | outmem
  /-- The source-descriptor memory, written by the host (R63). -/
  | srcdesc
  /-- The TOC record memory, written by the core (R64). -/
  | tocram
  deriving DecidableEq, Repr

end Sys2Proof
end

