-- ==== Sys2Proof/Syntax.lean ====
section
/-! DEFINITION. The commands of spec/opcode_table.json, one constructor a row, with the operands of 30_encoding.md
R115. A word that is no command of the table decodes to none of them (44_system.md R281, log 13). -/

namespace Sys2Proof

/-- A legal command (R115, R116). The index `k` is the natural number of R114. -/
inductive Instr where
  /-- Do nothing (44_system.md R280). -/
  | nop
  /-- Verify source `k`'s info-header, with the bpp and the dimension check each enabled or not (40_verifier.md R180). -/
  | verify (k : Nat) (bpp dim : Bool)
  /-- Verify source `k` strictly and encode its pixels into the mask pair (42_mask_codec.md R235). -/
  | encode (k : Nat)
  /-- Write one ICO file from the sources 0 to NSRC - 1 (41_assembler.md R200). -/
  | assemble
  /-- Parse and validate the ICO file at IN_BASE, IN_LEN (43_reader.md R262). -/
  | parse
  /-- Parse the ICO file and decode entry `k`'s masks into pixel bytes (43_reader.md R264). -/
  | decode (k : Nat)
  deriving DecidableEq, Repr

/-- One line of the command assembly syntax of 30_encoding.md R150: a command, or `.word v`, which gives any 32-bit
word, legal or not. The pseudo-commands of R151 are commands once expanded. -/
inductive AsmLine where
  /-- A command in its written form. -/
  | command (i : Instr)
  /-- `.word v`. -/
  | data (v : Word)
  deriving DecidableEq, Repr

end Sys2Proof
end

