-- ==== Sys2Proof/WellFormed.lean ====
section
/-! DEFINITION. Which commands have an encoding: an index must fit the 16-bit IDX field (30_encoding.md R110, R114). -/

namespace Sys2Proof

/-- The index fits IDX = `v[31:16]` (R110): "0 to 65535" (R114). -/
abbrev idxFits (k : Nat) : Bool := decide (k ≤ 65535)

/-- The operands of the command fit its word's fields. -/
def Instr.wellFormed : Instr → Bool
  | .nop => true
  | .verify k _ _ => idxFits k
  | .encode k => idxFits k
  | .assemble => true
  | .parse => true
  | .decode k => idxFits k

end Sys2Proof
end

