-- ==== Sys2Proof/Decode.lean ====
section
/-! DEFINITION. The decoder of command words, total on all 2^32 words (30_encoding.md R110 to R118), the encoder
written from the same fields, and the assembly syntax of R150 and R151. -/

namespace Sys2Proof

/-! ## The opcode map -/

/-- One row of the opcode map of R116: `v` is the row's command when `v & mask = fixed`. -/
structure OpRow where
  fixed : Word
  mask : Word
  deriving DecidableEq, Repr

/-- "A word is the command of a row when `v & mask = match`" (R116). -/
def OpRow.fits (r : OpRow) (v : Word) : Bool := (v &&& r.mask) == r.fixed

def rowNop : OpRow := { fixed := 0x00000000#32, mask := 0xFFFFFFFF#32 }
def rowVerify : OpRow := { fixed := 0x00000001#32, mask := 0x0000FCFF#32 }
def rowEncode : OpRow := { fixed := 0x00000002#32, mask := 0x0000FFFF#32 }
def rowAssemble : OpRow := { fixed := 0x00000003#32, mask := 0xFFFFFFFF#32 }
def rowParse : OpRow := { fixed := 0x00000004#32, mask := 0xFFFFFFFF#32 }
def rowDecode : OpRow := { fixed := 0x00000005#32, mask := 0x0000FFFF#32 }

/-- The opcode map, in the order of R116. -/
def opcodeMap : List OpRow := [rowNop, rowVerify, rowEncode, rowAssemble, rowParse, rowDecode]

/-- The row of a command in the opcode map. -/
def Instr.row : Instr → OpRow
  | .nop => rowNop
  | .verify _ _ _ => rowVerify
  | .encode _ => rowEncode
  | .assemble => rowAssemble
  | .parse => rowParse
  | .decode _ => rowDecode

/-! ## Fields and the decoder -/

/-- IDX = `v[31:16]`, zero-extended to a natural number (R114). -/
def idxOf (v : Word) : Nat := (v.extractLsb' 16 16).toNat

/-- BPP = `v[8]` (R112). -/
def bppOf (v : Word) : Bool := v.getLsbD 8

/-- DIM = `v[9]` (R112). -/
def dimOf (v : Word) : Bool := v.getLsbD 9

/-- The command a word decodes to; `none` is the `ILLEGAL(v)` of R115, every word that fits no row (R117). -/
def decode (v : Word) : Option Instr :=
  if rowNop.fits v then some .nop
  else if rowVerify.fits v then some (.verify (idxOf v) (bppOf v) (dimOf v))
  else if rowEncode.fits v then some (.encode (idxOf v))
  else if rowAssemble.fits v then some .assemble
  else if rowParse.fits v then some .parse
  else if rowDecode.fits v then some (.decode (idxOf v))
  else none

/-- The decoder on a word given as a number whose bit 0 is the word's bit 0. Every command is one 32-bit word
(R110, R118), so the bits from `nbits` up are 0 and a shorter or longer form does not exist. -/
def decodeTableWord (nbits w : Nat) : Option Instr := decode (BitVec.ofNat 32 (w % 2 ^ nbits))

/-! ## The encoder -/

/-- The word with the fields of the format CMD32 (R110): IDX [31:16], reserved zeros [15:10], DIM [9], BPP [8],
OP [7:0]. -/
def commandWord (k : Nat) (dim bpp : Bool) (op : BitVec 8) : Word :=
  BitVec.ofNat 16 k ++ (0#6 ++ (BitVec.ofBool dim ++ (BitVec.ofBool bpp ++ op)))

/-- The word of a command (R110, R116). -/
def encode : Instr → Word
  | .nop => commandWord 0 false false 0x00#8
  | .verify k bpp dim => commandWord k dim bpp 0x01#8
  | .encode k => commandWord k false false 0x02#8
  | .assemble => commandWord 0 false false 0x03#8
  | .parse => commandWord 0 false false 0x04#8
  | .decode k => commandWord k false false 0x05#8

/-- The word an assembly line stands for (R150). -/
def AsmLine.word : AsmLine → Word
  | .command i => encode i
  | .data v => v

/-! ## Assembly text (R150, R151; log 19) -/

/-- A finished token is kept unless it is empty. -/
def asmFlush (cur : List Char) (rest : List (List Char)) : List (List Char) :=
  if cur.isEmpty then rest else cur :: rest

/-- Tokens of a line without its comment: blanks separate, a comma is a token of its own. -/
def asmTokens : List Char → List Char → List (List Char)
  | [], cur => asmFlush cur []
  | c :: cs, cur =>
    if c = ' ' ∨ c = '\t' then asmFlush cur (asmTokens cs [])
    else if c = ',' then asmFlush cur ([','] :: asmTokens cs [])
    else asmTokens cs (cur ++ [c])

/-- The value of a digit below `base`. -/
def asmDigit (base : Nat) (c : Char) : Option Nat :=
  let n := c.toNat
  let d := if 48 ≤ n ∧ n ≤ 57 then n - 48 else if 65 ≤ n ∧ n ≤ 70 then n - 55 else if 97 ≤ n ∧ n ≤ 102 then n - 87 else base
  if d < base then some d else none

/-- The value of a digit string, most significant digit first, from an accumulator. -/
def asmDigits (base : Nat) : List Char → Nat → Option Nat
  | [], acc => some acc
  | c :: cs, acc =>
    match asmDigit base c with
    | none => none
    | some d => asmDigits base cs (acc * base + d)

/-- "`k` is a decimal or `0x` hexadecimal number" (R150). That `v` of `.word v` has the same two forms, and that leading
zeros are allowed, is the model's choice (DESIGN CHOICE, log 19). -/
def asmNumber : List Char → Option Nat
  | [] => none
  | '0' :: 'x' :: c :: cs => asmDigits 16 (c :: cs) 0
  | c :: cs => asmDigits 10 (c :: cs) 0

/-- An index operand, "from 0 to 65535" (R150). -/
def asmIndex (t : List Char) : Option Nat :=
  match asmNumber t with
  | none => none
  | some k => if idxFits k then some k else none

/-- The flags of a VERIFY line as (bpp, dim): "`BPP` and `DIM` may be written in either order" (R150). -/
def asmFlags (ts : List (List Char)) : Option (Bool × Bool) :=
  if ts = [] then some (false, false)
  else if ts = [[','], "BPP".toList] then some (true, false)
  else if ts = [[','], "DIM".toList] then some (false, true)
  else if ts = [[','], "BPP".toList, [','], "DIM".toList] then some (true, true)
  else if ts = [[','], "DIM".toList, [','], "BPP".toList] then some (true, true)
  else none

/-- A line of one index operand. -/
def asmIndexed (f : Nat → Instr) (t : List Char) : Option AsmLine :=
  (asmIndex t).map fun k => .command (f k)

/-- The line that a token list stands for (R150, R151), or none where the syntax has no such line. R150
gives `v` of `.word v` as "any 32-bit word" and no written form for it: that it is read as `k` is, in decimal or `0x`
hexadecimal, is the model's choice (DESIGN CHOICE, log 19). -/
def asmParse : List (List Char) → Option AsmLine
  | [m] =>
    if m = "NOP".toList then some (.command .nop)
    else if m = "ASSEMBLE".toList then some (.command .assemble)
    else if m = "PARSE".toList then some (.command .parse)
    else none
  | m :: a :: rest =>
    if m = "VERIFY".toList then
      match asmFlags rest with
      | none => none
      | some (bpp, dim) => asmIndexed (.verify · bpp dim) a
    else if rest ≠ [] then none
    else if m = "VERIFY.S".toList then asmIndexed (.verify · true true) a
    else if m = "VERIFY.R".toList then asmIndexed (.verify · false false) a
    else if m = "ENCODE".toList then asmIndexed .encode a
    else if m = "DECODE".toList then asmIndexed .decode a
    else if m = ".word".toList then
      match asmNumber a with
      | none => none
      | some v => if v < 2 ^ 32 then some (.data (BitVec.ofNat 32 v)) else none
    else none
  | [] => none

/-- One line of assembly text; "`;` starts a comment" (R150). -/
def assembleLine (line : List Char) : Option AsmLine :=
  asmParse (asmTokens (line.takeWhile (· ≠ ';')) [])

end Sys2Proof
end

