-- ==== Sys2Proof/Config.lean ====
section
/-! DEFINITION. What the spec leaves to the implementation: the four size parameters of 00_scope.md R7, and the
free values of 93_implementation_defined.md U1 to U8. A free value is a constant with no body, so that nothing can
be proved of the value it takes. -/

namespace Sys2Proof

/-- The named parameters of R7. They are fixed for one machine; `State` carries them so that every statement about
all states holds for every choice of them (log 1). -/
structure Params where
  /-- `INMEM_SIZE`, bytes of INMEM. -/
  inmemSize : Nat
  /-- `OUT_CAP`, bytes of OUTMEM. -/
  outCap : Nat
  /-- `SRC_MAX`, descriptors in SRCDESC. -/
  srcMax : Nat
  /-- `TOC_MAX`, records in TOCRAM. -/
  tocMax : Nat
  deriving DecidableEq, Repr

/-- The constraints of R7. -/
abbrev Params.Valid (p : Params) : Prop :=
  (1 ≤ p.inmemSize ∧ p.inmemSize ≤ 4294967295) ∧ (1 ≤ p.outCap ∧ p.outCap ≤ 4294967295) ∧
    (1 ≤ p.srcMax ∧ p.srcMax ≤ 65535) ∧ (1 ≤ p.tocMax ∧ p.tocMax ≤ 65535)

/-- The reference values of R7, which the spec uses for its test vectors (log 1). -/
def Params.reference : Params := { inmemSize := 65536, outCap := 65536, srcMax := 16, tocMax := 16 }

/-- U1, U2, U5, U6: the byte that the memory holds at an address whose contents the spec leaves unspecified, for
the draw that made them unspecified. A free value (log 6, 7). -/
opaque Config.freeByte : Space → Nat → Nat → Byte

/-- U3: the word that the INFO register at a register offset holds after the draw that made the INFO registers
unspecified. A free value (log 8). -/
opaque Config.freeInfo : Nat → Nat → Word

/-- U4: what one host read of OUTMEM, TOCRAM or an INFO register answers while a command runs. A free value, a
fresh one for every read (log 9). -/
opaque Config.freeRead : Nat → Word

/-- U8: how many internal steps a command takes before its completion step. Finite and unspecified: a free value
(log 2). -/
opaque Config.freeSteps : Nat → Nat

end Sys2Proof
end

