-- ==== Sys2Proof/Machine/State.lean ====
section
/-! DEFINITION. The state of the block as plain data: every register, memory and hidden state of 10_state.md, the
host's pending accesses, and the state after reset (10_state.md R57, 70_reset_and_hazards.md R340 to R343). -/

namespace Sys2Proof.Machine

/-- What stops the model: the host faults of 60_exceptions.md R317 (93_implementation_defined.md F1, F2). No command
raises one; they are not block errors. Each is raised by `hostAccess` and is safe: the model stops where the spec
gives no meaning. -/
inductive Fault where
  /-- A host register access that is not an aligned 32-bit word (20_memory.md R85, F1). Raised by `hostAccess`; safe. -/
  | hostRegisterNotAlignedWord
  /-- A host register access at an offset outside the 4096-byte register space (10_state.md R32, 20_memory.md R85;
  log 11). Raised by `hostAccess`; safe. -/
  | hostRegisterOutsideSpace
  /-- A host memory access at an address outside its space (20_memory.md R85, F2). Raised by `hostAccess`; safe. -/
  | hostMemoryOutsideSpace
  deriving DecidableEq, Repr

/-- Why an instruction has no meaning in the model. -/
inductive Refusal where
  /-- The instruction is not modelled yet. Raised only by an arm of `exec` that has no meaning; safe. No arm does. -/
  | notModelled (mnemonic : String)
  deriving DecidableEq, Repr

/-- The fields of STATUS (R34). The reserved bits [7:5], [15:12] and [31:24] are hard-wired to 0 and take no storage
(R52). The word that a host reads is `Status.word`. -/
structure Status where
  /-- STATUS.BUSY [0] (R35); also the hidden `phase` (R58). -/
  busy : Bool
  /-- STATUS.DONE [1] (R36). -/
  done : Bool
  /-- STATUS.ERR [2] (R37). -/
  err : Bool
  /-- STATUS.INFO_V [3] (R38). -/
  infoV : Bool
  /-- STATUS.WDROP [4] (R39). -/
  wdrop : Bool
  /-- STATUS.KIND [11:8] (R40). -/
  kind : BitVec 4
  /-- STATUS.REASON [23:16] (R40). -/
  reason : BitVec 8
  deriving DecidableEq, Repr

/-- A BmpInfo: the decoded fields of a BMP info-header, each of its width in the header (30_encoding.md R126). -/
structure BmpInfo where
  headerSz : Word
  /-- An `i32` bit pattern (R127). -/
  width : Word
  /-- An `i32` bit pattern (R127). -/
  height : Word
  planes : Half
  bpp : Half
  compression : Word
  imageSize : Word
  xres : Word
  yres : Word
  palSz : Word
  important : Word
  deriving DecidableEq, Repr

/-- What the eleven INFO registers hold (R51): one BmpInfo, or unspecified words, namely the free values of one draw
(93_implementation_defined.md U3; log 8). -/
inductive InfoRegs where
  | held (bi : BmpInfo)
  | unspecified (draw : Nat)
  deriving DecidableEq, Repr

/-- A memory: the bytes that hold a definite value, as cells with strictly rising addresses, and the draw whose free
bytes every other address holds (log 6, 7). -/
structure Memory where
  cells : List Host.Cell
  draw : Nat
  deriving DecidableEq, Repr

/-- One access of the host, or one use of its reset input (20_memory.md R85; 70_reset_and_hazards.md R340). The width
of a register access is in bits. -/
inductive HostOp where
  /-- A register write. -/
  | writeReg (width offset : Nat) (v : Word)
  /-- A register read. -/
  | readReg (width offset : Nat)
  /-- A byte write to a memory. -/
  | writeByte (sp : Space) (addr : Nat) (b : Byte)
  /-- A byte read from a memory. -/
  | readByte (sp : Space) (addr : Nat)
  /-- "`RD STATUS` repeated until BUSY = 0" (30_encoding.md R152, 70_reset_and_hazards.md R354; log 20). -/
  | wait
  /-- The reset input is asserted and released (R340). -/
  | reset
  deriving DecidableEq, Repr

/-- The state of the block and of its host. -/
structure State where
  /-- The size parameters of the machine (00_scope.md R7); no step changes them. -/
  params : Params
  /-- CMD, offset 0x000 (R33). -/
  cmd : Word
  /-- STATUS, offset 0x004 (R34). -/
  status : Status
  /-- ERR_FIELD, offset 0x008 (R41). -/
  errField : Word
  /-- ERR_VALUE, offset 0x00C (R42). -/
  errValue : Word
  /-- ERR_INDEX, offset 0x010 (R43). -/
  errIndex : Word
  /-- TRANSP[7:0], offset 0x014; bits [31:8] read as 0 and take no storage (R44). -/
  transp : Byte
  /-- NSRC, offset 0x018 (R46). -/
  nsrc : Word
  /-- IN_BASE, offset 0x01C (R47). -/
  inBase : Word
  /-- IN_LEN, offset 0x020 (R47). -/
  inLen : Word
  /-- OUT_LEN, offset 0x024 (R48). -/
  outLen : Word
  /-- TOC_COUNT, offset 0x028 (R49). -/
  tocCount : Word
  /-- INFO_HDR_SZ to INFO_IMPORTANT, offsets 0x030 to 0x058 (R51). -/
  info : InfoRegs
  /-- INMEM (R61). -/
  inmem : Memory
  /-- OUTMEM (R62). -/
  outmem : Memory
  /-- SRCDESC (R63). -/
  srcdesc : Memory
  /-- TOCRAM (R64, R65). -/
  tocram : Memory
  /-- Hidden: how many internal steps the running command still takes before its completion step (R55, R58; log 2). -/
  stepsLeft : Nat
  /-- The model's own: how many free values have been drawn (log 27). -/
  draws : Nat
  /-- The model's own: the host's remaining accesses, next one first (R30, R95; log 3). -/
  host : List HostOp
  /-- The model's own: what the host has read, newest first (log 3). -/
  reads : List Word
  deriving DecidableEq, Repr

/-- STATUS after reset: all fields 0 (R57). -/
def Status.reset : Status :=
  { busy := false, done := false, err := false, infoV := false, wdrop := false, kind := 0, reason := 0 }

/-- The INFO registers after reset: 0 each (R51, R57). -/
def BmpInfo.zero : BmpInfo :=
  { headerSz := 0, width := 0, height := 0, planes := 0, bpp := 0, compression := 0, imageSize := 0, xres := 0,
    yres := 0, palSz := 0, important := 0 }

/-- A memory at power-on: every byte unspecified (R57, 70_reset_and_hazards.md R342; log 6). -/
def Memory.powerOn : Memory := { cells := [], draw := 0 }

/-- The state after a power-on reset of a machine with the parameters `p` (R57, R340, R342). -/
def State.resetWith (p : Params) : State :=
  { params := p, cmd := 0, status := Status.reset, errField := 0, errValue := 0, errIndex := 0, transp := 0,
    nsrc := 0, inBase := 0, inLen := 0, outLen := 0, tocCount := 0, info := .held BmpInfo.zero,
    inmem := Memory.powerOn, outmem := Memory.powerOn, srcdesc := Memory.powerOn, tocram := Memory.powerOn,
    stepsLeft := 0, draws := 1, host := [], reads := [] }

/-- The state after reset at the reference parameters (log 1). -/
def State.reset : State := State.resetWith Params.reference

end Sys2Proof.Machine
end

