-- ==== Sys2Proof/Machine/Flags.lean ====
section
/-! DEFINITION. STATUS and the error codes: the word a host reads (10_state.md R34), what the accept step, the
completion step and a dropped write do to STATUS (R35 to R40), and the numeric codes of 60_exceptions.md R301 to R303. -/

namespace Sys2Proof.Machine

/-! ## Error codes -/

/-- Error kinds (R301). `fileOpenFailure` is the host's: no command raises it (R307). -/
inductive ErrKind where
  | usageError
  | fileOpenFailure
  | allocationFailure
  | readShort
  | verifyFailure
  | fieldMismatch
  | illegalCommand
  deriving DecidableEq, Repr

/-- STATUS.KIND codes (R301). -/
def ErrKind.code : ErrKind → BitVec 4
  | .usageError => 1
  | .fileOpenFailure => 2
  | .allocationFailure => 3
  | .readShort => 4
  | .verifyFailure => 5
  | .fieldMismatch => 6
  | .illegalCommand => 7

/-- Error reasons (R302); `none` is the 0 of every kind but VerifyFailure. -/
inductive ErrReason where
  | none
  | invalidHeader
  | unsupportedBpp
  | unsupportedDimensions
  | unsupportedCompression
  | invalidPalette
  | invalidIcoFile
  deriving DecidableEq, Repr

/-- STATUS.REASON codes (R302). -/
def ErrReason.code : ErrReason → BitVec 8
  | .none => 0
  | .invalidHeader => 1
  | .unsupportedBpp => 2
  | .unsupportedDimensions => 3
  | .unsupportedCompression => 4
  | .invalidPalette => 5
  | .invalidIcoFile => 6

/-- The fields an error names (R303). -/
inductive ErrField where
  | hdrSz
  | width
  | height
  | bpp
  | compression
  | palSz
  | icoReserved
  | icoType
  | icoCount
  | entryBpp
  | entryPalSz
  | entryWidth
  | cmdWord
  | nsrc
  | cmdIdx
  | bufferLen
  | outCap
  deriving DecidableEq, Repr

/-- ERR_FIELD codes (R303). -/
def ErrField.code : ErrField → Word
  | .hdrSz => 1
  | .width => 2
  | .height => 3
  | .bpp => 4
  | .compression => 5
  | .palSz => 6
  | .icoReserved => 7
  | .icoType => 8
  | .icoCount => 9
  | .entryBpp => 10
  | .entryPalSz => 11
  | .entryWidth => 12
  | .cmdWord => 13
  | .nsrc => 14
  | .cmdIdx => 15
  | .bufferLen => 16
  | .outCap => 17

/-- The error record `(kind, reason, field, value, index)` of R300; `value` is stored by `sat32`. -/
structure CmdError where
  kind : ErrKind
  reason : ErrReason
  field : ErrField
  value : Nat
  index : Nat
  deriving DecidableEq, Repr

/-! ## STATUS -/

/-- The word a host reads at STATUS (R34): reserved bits read as 0. -/
def Status.word (st : Status) : Word :=
  0#8 ++ (st.reason ++ (0#4 ++ (st.kind ++ (0#3 ++ (BitVec.ofBool st.wdrop ++ (BitVec.ofBool st.infoV ++
    (BitVec.ofBool st.err ++ (BitVec.ofBool st.done ++ BitVec.ofBool st.busy))))))))

/-- STATUS after an accept step (R54); `infoCleared` says that the command's write set contains INFO. -/
def Status.accepted (st : Status) (infoCleared : Bool) : Status :=
  { busy := true, done := false, err := false, infoV := if infoCleared then false else st.infoV, wdrop := false,
    kind := 0, reason := 0 }

/-- `STATUS.BUSY <- 0; STATUS.DONE <- 1` (R55). -/
def Status.completed (st : Status) : Status := { st with busy := false, done := true }

/-- STATUS after the error entry of R310. -/
def Status.failed (st : Status) (kind : ErrKind) (reason : ErrReason) : Status :=
  { st.completed with err := true, kind := kind.code, reason := reason.code }

/-- `STATUS.INFO_V <- 1` (R38, 40_verifier.md R180). -/
def Status.withInfo (st : Status) : Status := { st with infoV := true }

/-- STATUS after a dropped host write (R39). -/
def Status.dropped (st : Status) : Status := { st with wdrop := true }

end Sys2Proof.Machine
end

