-- ==== Sys2Proof/Machine/Memory.lean ====
section
/-! DEFINITION. The operations over one memory, and its canonical form: the cells' addresses rise strictly and lie
inside the memory. An unlisted address holds an unspecified byte, which no cell can equal as data (log 6). -/

namespace Sys2Proof.Machine

/-- How many bytes a memory has (10_state.md R61 to R64). -/
def memSize (p : Params) : Space → Nat
  | .inmem => p.inmemSize
  | .outmem => p.outCap
  | .srcdesc => 8 * p.srcMax
  | .tocram => 64 * p.tocMax

/-- The definite byte listed at an address, if any. -/
def lookupCell : List Host.Cell → Nat → Option Byte
  | [], _ => none
  | (a, b) :: cs, x => if x = a then some b else lookupCell cs x

/-- The byte a memory holds at an address: the listed one, else the free byte of the memory's draw
(93_implementation_defined.md U1, U2, U5, U6). -/
def Memory.byte (m : Memory) (sp : Space) (a : Nat) : Byte :=
  match lookupCell m.cells a with
  | some b => b
  | none => Config.freeByte sp m.draw a

/-- The cells of a byte string from an address on. -/
def cellsFrom : Nat → List Byte → List Host.Cell
  | _, [] => []
  | a, b :: bs => (a, b) :: cellsFrom (a + 1) bs

/-- `MemWrite(space, addr, n, v)` (00_scope.md R12): the bytes at `a` to `a + n - 1` become those of the string. -/
def Memory.write (m : Memory) (a : Nat) (bs : List Byte) : Memory :=
  { m with
    cells := m.cells.filter (fun c => decide (c.1 < a)) ++
      (cellsFrom a bs ++ m.cells.filter (fun c => decide (a + bs.length ≤ c.1))) }

/-- The memory whose every byte is unspecified, with the free bytes of the given draw (10_state.md R54). -/
def Memory.unspecified (draw : Nat) : Memory := { cells := [], draw := draw }

/-- Addresses rise strictly from `lo` on. -/
def cellsRise : Nat → List Host.Cell → Bool
  | _, [] => true
  | lo, (a, _) :: cs => decide (lo ≤ a) && cellsRise (a + 1) cs

/-- The canonical form of a memory of `size` bytes. -/
def Memory.wf (m : Memory) (size : Nat) : Bool :=
  cellsRise 0 m.cells && m.cells.all fun c => decide (c.1 < size)

end Sys2Proof.Machine
end

