-- ==== Sys2Proof/Machine/Operands.lean ====
section
/-! DEFINITION. Byte strings and the operands read from them: little-endian integers (00_scope.md R12, 20_memory.md
R80), the BMP info-header and the TOC entry (30_encoding.md R126, R132), and the views of the inputs that a command
reads (20_memory.md R88, R89). -/

namespace Sys2Proof.Machine

/-! ## Byte strings -/

/-- A byte string as a length and its bytes by offset. No rule reads an offset at or beyond the length (R90; log 18). -/
structure Bytes where
  len : Nat
  byte : Nat → Byte

/-- The bytes of a list. -/
def Bytes.ofList (l : List Byte) : Bytes := { len := l.length, byte := fun i => l.getD i 0 }

/-- The byte string as a list. -/
def Bytes.toList (b : Bytes) : List Byte := (List.range b.len).map b.byte

/-- `buf[o .. o + n)`. -/
def Bytes.slice (b : Bytes) (o n : Nat) : Bytes := { len := n, byte := fun i => b.byte (o + i) }

/-- `rd16(buf, o)`, little-endian (R12). -/
def Bytes.rd16 (b : Bytes) (o : Nat) : Half := b.byte (o + 1) ++ b.byte o

/-- `rd32(buf, o)`, little-endian (R12). -/
def Bytes.rd32 (b : Bytes) (o : Nat) : Word := b.byte (o + 3) ++ (b.byte (o + 2) ++ (b.byte (o + 1) ++ b.byte o))

/-- `le8(v)` (R12). -/
def le8 (v : Nat) : List Byte := [BitVec.ofNat 8 v]

/-- `le16(v)` (R12). -/
def le16 (v : Nat) : List Byte := [BitVec.ofNat 8 v, BitVec.ofNat 8 (v / 256)]

/-- `le32(v)` (R12). -/
def le32 (v : Nat) : List Byte :=
  [BitVec.ofNat 8 v, BitVec.ofNat 8 (v / 256), BitVec.ofNat 8 (v / 65536), BitVec.ofNat 8 (v / 16777216)]

/-- `sat32(v) = min(v, 2^32 - 1)` (R11). -/
def sat32 (v : Nat) : Nat := min v 4294967295

/-- The bytes `l[o .. o + n)` of a list. -/
def sliceList (l : List Byte) (o n : Nat) : List Byte := (l.drop o).take n

/-! ## Records -/

/-- `BmpInfoOf(buf)` (30_encoding.md R126). -/
def bmpInfoOf (b : Bytes) : BmpInfo :=
  { headerSz := b.rd32 0, width := b.rd32 4, height := b.rd32 8, planes := b.rd16 12, bpp := b.rd16 14,
    compression := b.rd32 16, imageSize := b.rd32 20, xres := b.rd32 24, yres := b.rd32 28, palSz := b.rd32 32,
    important := b.rd32 36 }

/-- A TOC entry (30_encoding.md R132). -/
structure TocEntry where
  w : Byte
  h : Byte
  palSz : Byte
  reserved : Byte
  planes : Half
  bpp : Half
  size : Word
  offset : Word
  deriving DecidableEq, Repr

/-- `TocEntryOf(In, o)` (43_reader.md R256). -/
def tocEntryOf (b : Bytes) (o : Nat) : TocEntry :=
  { w := b.byte o, h := b.byte (o + 1), palSz := b.byte (o + 2), reserved := b.byte (o + 3),
    planes := b.rd16 (o + 4), bpp := b.rd16 (o + 6), size := b.rd32 (o + 8), offset := b.rd32 (o + 12) }

/-- `dim8(b) = if b = 0 then 256 else b` (30_encoding.md R133). -/
def dim8 (b : Byte) : Nat := if b = 0 then 256 else b.toNat

/-- The file offset of TOC entry `k` (30_encoding.md R132). -/
def entryPos (k : Nat) : Nat := 6 + 16 * k

/-- `PATCH_POS` of entry `k`: the file position of its offset field (30_encoding.md R141). -/
def patchPos (k : Nat) : Nat := entryPos k + 12

/-! ## The inputs of a command -/

/-- The usable length of an input of `len` bytes at `base` in a memory of `size` bytes (R88, R89). -/
def avail (size base len : Nat) : Nat := if base < size then min len (size - base) else 0

/-- `MemRead(INMEM, base, avail)` (R88, R89). -/
def State.inView (s : State) (base len : Nat) : Bytes :=
  { len := avail s.params.inmemSize base len, byte := fun i => s.inmem.byte .inmem (base + i) }

/-- The SRCDESC memory as a byte string, for its little-endian fields (20_memory.md R81). -/
def State.descView (s : State) : Bytes :=
  { len := memSize s.params .srcdesc, byte := s.srcdesc.byte .srcdesc }

/-- `SRC_BASE[k]` (30_encoding.md R142). -/
def State.srcBase (s : State) (k : Nat) : Word := s.descView.rd32 (8 * k)

/-- `SRC_LEN[k]` (30_encoding.md R142). -/
def State.srcLen (s : State) (k : Nat) : Word := s.descView.rd32 (8 * k + 4)

/-- `Src(k)` (20_memory.md R88). -/
def State.src (s : State) (k : Nat) : Bytes := s.inView (s.srcBase k).toNat (s.srcLen k).toNat

/-- `In` (20_memory.md R89). -/
def State.icoInput (s : State) : Bytes := s.inView s.inBase.toNat s.inLen.toNat

end Sys2Proof.Machine
end

