-- ==== Sys2Proof/Machine/Ops.lean ====
section
/-! DEFINITION. The shared operations of the command lifecycle and the register file: write sets (10_state.md R50),
the accept step (R54), the completion step with its results (R55) or its error entry (60_exceptions.md R310), the
reset event (70_reset_and_hazards.md R340 to R342), and register reads and writes (R32 to R52). -/

namespace Sys2Proof.Machine

/-! ## Write sets -/

/-- The result groups of R50. -/
inductive Group where
  /-- INFO registers and STATUS.INFO_V. -/
  | info
  /-- OUTMEM and OUT_LEN. -/
  | out
  /-- TOCRAM and TOC_COUNT. -/
  | toc
  deriving DecidableEq, Repr

/-- The write set of a decoded word; `none` is an illegal word (R50). -/
def writeSet : Option Instr → List Group
  | some .nop => []
  | some (.verify _ _ _) => [.info]
  | some (.encode _) => [.info, .out]
  | some .assemble => [.out, .toc]
  | some .parse => [.toc]
  | some (.decode _) => [.toc, .out]
  | none => []

/-- Whether a group is in the write set of a command word. -/
def clears (v : Word) (g : Group) : Bool := (writeSet (decode v)).contains g

/-! ## The accept step -/

/-- The accept step of the word `v` (R54). Each group of the write set is marked invalid and its contents become
unspecified under a fresh draw; the same draw gives the number of internal steps (log 2, 7, 8). -/
def State.accept (s : State) (v : Word) : State :=
  { s with
    cmd := v
    status := s.status.accepted (clears v .info)
    errField := 0
    errValue := 0
    errIndex := 0
    info := if clears v .info then .unspecified s.draws else s.info
    outLen := if clears v .out then 0 else s.outLen
    outmem := if clears v .out then Memory.unspecified s.draws else s.outmem
    tocCount := if clears v .toc then 0 else s.tocCount
    tocram := if clears v .toc then Memory.unspecified s.draws else s.tocram
    stepsLeft := Config.freeSteps s.draws
    draws := s.draws + 1 }

/-! ## The completion step -/

/-- The results a command hands to its write-set groups: the BmpInfo of INFO, the bytes of OUT, the 64-byte records
of TOC (R55, R62, R65). -/
structure Results where
  info : Option BmpInfo
  out : Option (List Byte)
  toc : Option (List (List Byte))
  deriving DecidableEq, Repr

/-- No result (44_system.md R280). -/
def Results.nothing : Results := { info := none, out := none, toc := none }

/-- `INFO_* <- fields of bi; STATUS.INFO_V <- 1` (40_verifier.md R180). -/
def State.putInfo (s : State) : Option BmpInfo → State
  | none => s
  | some bi => { s with info := .held bi, status := s.status.withInfo }

/-- `MemWrite(OUTMEM, 0, n, bytes); OUT_LEN <- n` (R62). -/
def State.putOut (s : State) : Option (List Byte) → State
  | none => s
  | some bs => { s with outmem := s.outmem.write 0 bs, outLen := BitVec.ofNat 32 bs.length }

/-- `MemWrite(TOCRAM, 64k, 64, record k)` for every record, then `TOC_COUNT <- N` (30_encoding.md R141). The records
are 64 bytes each, so their concatenation at address 0 puts record `k` at 64k. -/
def State.putToc (s : State) : Option (List (List Byte)) → State
  | none => s
  | some rs => { s with tocram := s.tocram.write 0 rs.flatten, tocCount := BitVec.ofNat 32 rs.length }

/-- Error entry (60_exceptions.md R310): the error report is written, the write-set groups stay as the accept step
left them, and the command is over. "Nothing else changes." -/
def State.enterError (s : State) (e : CmdError) : State :=
  { s with
    status := s.status.failed e.kind e.reason
    errField := e.field.code
    errValue := BitVec.ofNat 32 (sat32 e.value)
    errIndex := BitVec.ofNat 32 e.index }

/-- `STATUS.BUSY <- 0; STATUS.DONE <- 1` (R55). -/
def State.finish (s : State) : State := { s with status := s.status.completed }

/-- The completion step (R55) for the outcome of a command's rule. -/
def State.complete (s : State) : Except CmdError Results → State
  | .ok r => (((s.putInfo r.info).putOut r.out).putToc r.toc).finish
  | .error e => s.enterError e

/-! ## Reset -/

/-- The reset event on a running machine (R340 to R342): every register and the hidden command state take their reset
values, a running command is aborted, and no byte of a memory changes (log 15). -/
def State.resetEvent (s : State) : State :=
  { s with
    cmd := 0, status := Status.reset, errField := 0, errValue := 0, errIndex := 0, transp := 0, nsrc := 0,
    inBase := 0, inLen := 0, outLen := 0, tocCount := 0, info := .held BmpInfo.zero, stepsLeft := 0 }

/-! ## The register file -/

/-- The fields of a BmpInfo, in the order of the INFO registers (R51). -/
inductive InfoField where
  | hdrSz
  | width
  | height
  | planes
  | bpp
  | compression
  | imageSize
  | xres
  | yres
  | palSz
  | important
  deriving DecidableEq, Repr

/-- The register map of R32. -/
inductive Reg where
  | cmd
  | status
  | errField
  | errValue
  | errIndex
  | transp
  | nsrc
  | inBase
  | inLen
  | outLen
  | tocCount
  | id
  | info (f : InfoField)
  deriving DecidableEq, Repr

/-- The offset of an INFO register (R51). -/
def infoOffset : InfoField → Nat
  | .hdrSz => 0x030
  | .width => 0x034
  | .height => 0x038
  | .planes => 0x03C
  | .bpp => 0x040
  | .compression => 0x044
  | .imageSize => 0x048
  | .xres => 0x04C
  | .yres => 0x050
  | .palSz => 0x054
  | .important => 0x058

/-- The offset of a register (R32). -/
def regOffset : Reg → Nat
  | .cmd => 0x000
  | .status => 0x004
  | .errField => 0x008
  | .errValue => 0x00C
  | .errIndex => 0x010
  | .transp => 0x014
  | .nsrc => 0x018
  | .inBase => 0x01C
  | .inLen => 0x020
  | .outLen => 0x024
  | .tocCount => 0x028
  | .id => 0x02C
  | .info f => infoOffset f

/-- The registers in the order of their offsets. -/
def allRegs : List Reg :=
  [.cmd, .status, .errField, .errValue, .errIndex, .transp, .nsrc, .inBase, .inLen, .outLen, .tocCount, .id,
    .info .hdrSz, .info .width, .info .height, .info .planes, .info .bpp, .info .compression, .info .imageSize,
    .info .xres, .info .yres, .info .palSz, .info .important]

/-- The register at an offset; `none` is a reserved offset (R52). -/
def regAt (offset : Nat) : Option Reg := allRegs.find? fun r => regOffset r == offset

/-- One field of a BmpInfo as its INFO register shows it, "zero-extended from its width in the info-header" (R51). -/
def infoField (bi : BmpInfo) : InfoField → Word
  | .hdrSz => bi.headerSz
  | .width => bi.width
  | .height => bi.height
  | .planes => bi.planes.setWidth 32
  | .bpp => bi.bpp.setWidth 32
  | .compression => bi.compression
  | .imageSize => bi.imageSize
  | .xres => bi.xres
  | .yres => bi.yres
  | .palSz => bi.palSz
  | .important => bi.important

/-- The word an INFO register holds: a field of the BmpInfo, or an unspecified word (R51). -/
def infoWord : InfoRegs → InfoField → Word
  | .held bi, f => infoField bi f
  | .unspecified d, f => Config.freeInfo d (infoOffset f)

/-- ID reads the constant 0x49430701 (R45). -/
def idWord : Word := 0x49430701#32

/-- The stored value of a register (R102). -/
def State.reg (s : State) : Reg → Word
  | .cmd => s.cmd
  | .status => s.status.word
  | .errField => s.errField
  | .errValue => s.errValue
  | .errIndex => s.errIndex
  | .transp => s.transp.setWidth 32
  | .nsrc => s.nsrc
  | .inBase => s.inBase
  | .inLen => s.inLen
  | .outLen => s.outLen
  | .tocCount => s.tocCount
  | .id => idWord
  | .info f => infoWord s.info f

/-- The value at a register offset; reserved offsets read 0 (R52). -/
def State.regWord (s : State) (offset : Nat) : Word :=
  match regAt offset with
  | some r => s.reg r
  | none => 0

/-- Whether a host read of a register answers an unspecified value while BUSY = 1 (20_memory.md R101). -/
def infoOffsetRead (offset : Nat) : Bool :=
  match regAt offset with
  | some (.info _) => true
  | _ => false

/-- A host write to a register while BUSY = 0 (R102): CMD issues a command (R33), TRANSP keeps bits [7:0] (R44), NSRC,
IN_BASE and IN_LEN store the word (R46, R47), every other offset ignores the write (R52). -/
def State.setReg (s : State) (offset : Nat) (v : Word) : State :=
  match regAt offset with
  | some .cmd => s.accept v
  | some .transp => { s with transp := v.extractLsb' 0 8 }
  | some .nsrc => { s with nsrc := v }
  | some .inBase => { s with inBase := v }
  | some .inLen => { s with inLen := v }
  | _ => s

/-- The memory of a space. -/
def State.mem (s : State) : Space → Memory
  | .inmem => s.inmem
  | .outmem => s.outmem
  | .srcdesc => s.srcdesc
  | .tocram => s.tocram

/-- Whether the core owns a memory, so that the host only reads it (R62, R64). -/
def coreOwned : Space → Bool
  | .inmem => false
  | .outmem => true
  | .srcdesc => false
  | .tocram => true

/-- A host byte write while BUSY = 0: INMEM and SRCDESC store the byte, OUTMEM and TOCRAM ignore the write (R102). -/
def State.setByte (s : State) (sp : Space) (a : Nat) (b : Byte) : State :=
  match sp with
  | .inmem => { s with inmem := s.inmem.write a [b] }
  | .srcdesc => { s with srcdesc := s.srcdesc.write a [b] }
  | .outmem => s
  | .tocram => s

end Sys2Proof.Machine
end

