-- ==== Sys2Proof/Machine/Verifier.lean ====
section
/-! DEFINITION. The BMP info-header verifier and the VERIFY command (40_verifier.md R170 to R181). -/

namespace Sys2Proof.Machine

/-- A VerifyFailure on a header field (60_exceptions.md R301, R302). -/
def verifyFailure (reason : ErrReason) (field : ErrField) (value idx : Nat) : CmdError :=
  { kind := .verifyFailure, reason := reason, field := field, value := value, index := idx }

/-- A UsageError (60_exceptions.md R301). -/
def usageError (field : ErrField) (value idx : Nat) : CmdError :=
  { kind := .usageError, reason := .none, field := field, value := value, index := idx }

/-- `Error(ReadShort, 0, BUFFER_LEN, needed, index)` (20_memory.md R90). -/
def readShort (needed idx : Nat) : CmdError :=
  { kind := .readShort, reason := .none, field := .bufferLen, value := needed, index := idx }

/-- An AllocationFailure (60_exceptions.md R301). -/
def allocationFailure (field : ErrField) (value idx : Nat) : CmdError :=
  { kind := .allocationFailure, reason := .none, field := field, value := value, index := idx }

/-- `v ∈ {16, 32}` (R174). -/
def isSide (v : Word) : Bool := v == 16#32 || v == 32#32

/-- `Verify(buf, chkBpp, chkDim, idx)`: the checks of R170 in their order. -/
def verifyHeader (buf : Bytes) (chkBpp chkDim : Bool) (idx : Nat) : Except CmdError BmpInfo :=
  let bi := bmpInfoOf buf
  if buf.len < 40 then .error (readShort 40 idx)
  else if bi.headerSz ≠ 40#32 then .error (verifyFailure .invalidHeader .hdrSz bi.headerSz.toNat idx)
  else if chkBpp ∧ bi.bpp ≠ 8#16 then .error (verifyFailure .unsupportedBpp .bpp bi.bpp.toNat idx)
  else if chkDim ∧ ¬ isSide bi.width then .error (verifyFailure .unsupportedDimensions .width bi.width.toNat idx)
  else if chkDim ∧ ¬ isSide bi.height then .error (verifyFailure .unsupportedDimensions .height bi.height.toNat idx)
  else if chkDim ∧ bi.width ≠ bi.height then
    .error (verifyFailure .unsupportedDimensions .height bi.height.toNat idx)
  else if bi.compression ≠ 0#32 then .error (verifyFailure .unsupportedCompression .compression bi.compression.toNat idx)
  else if bi.palSz = 0#32 then .error (verifyFailure .invalidPalette .palSz 0 idx)
  else .ok bi

/-- The operand checks that VERIFY and ENCODE share: NSRC within SRC_MAX, then the index below NSRC (R180,
42_mask_codec.md R235). -/
def checkSource (s : State) (k : Nat) : Except CmdError Unit :=
  if s.nsrc.toNat > s.params.srcMax then .error (usageError .nsrc s.nsrc.toNat 0)
  else if k ≥ s.nsrc.toNat then .error (usageError .cmdIdx k k)
  else .ok ()

/-- The rule of VERIFY (R180). -/
def runVerify (k : Nat) (bpp dim : Bool) (s : State) : Except CmdError Results :=
  match checkSource s k with
  | .error e => .error e
  | .ok () =>
    match verifyHeader (s.src k) bpp dim k with
    | .error e => .error e
    | .ok bi => .ok { info := some bi, out := none, toc := none }

/-- VERIFY (R180): its completion step. -/
def execVerify (k : Nat) (bpp dim : Bool) (s : State) : Host.Outcome State Fault Refusal :=
  .next (s.complete (runVerify k bpp dim s))

end Sys2Proof.Machine
end

