-- ==== Sys2Proof/Machine/Codec.lean ====
section
/-! DEFINITION. The mask codec and the ENCODE command (42_mask_codec.md R220 to R236). -/

namespace Sys2Proof.Machine

/-! ## Per-pixel functions (R221) -/

/-- `nib(p, t)`: the 4-bit XOR-mask value, 0 for a transparent pixel, else the low 4 bits (R221, R228). -/
def nib (p t : Byte) : BitVec 4 := if p = t then 0 else p.extractLsb' 0 4

/-- `tbit(p, t)`: the AND-mask bit, 1 exactly for a transparent pixel (R221). -/
def tbit (p t : Byte) : Bool := p == t

/-! ## Encode (R220) -/

/-- The XOR mask's length, `(w/2)*h` (R226). -/
def xorLen (w h : Nat) : Nat := w / 2 * h

/-- The AND mask's length, `4*h` (R226). -/
def andLen (h : Nat) : Nat := 4 * h

/-- Byte `j` of the XOR mask: pixel `2j` in the high nibble, pixel `2j + 1` in the low one (R223). -/
def xorByte (px : Bytes) (t : Byte) (j : Nat) : Byte := nib (px.byte (2 * j)) t ++ nib (px.byte (2 * j + 1)) t

/-- A bit at its place in a byte. -/
def bitAt (b : Bool) (n : Nat) : Byte := if b then 1#8 <<< n else 0#8

/-- The AND-mask byte of the eight pixels from `i` on: "earlier pixel occupies the higher bit" (R224). -/
def andDataByte (px : Bytes) (t : Byte) (i : Nat) : Byte :=
  (List.range 8).foldl (fun acc m => acc ||| bitAt (tbit (px.byte (i + m)) t) (7 - m)) 0#8

/-- Byte `q` of the AND mask: byte `b = q % 4` of row `r = q / 4`, which is data when `b < w/8` (R224) and row padding
otherwise (R225). -/
def andByte (px : Bytes) (w : Nat) (t : Byte) (q : Nat) : Byte :=
  let r := q / 4
  let b := q % 4
  if b < w / 8 then andDataByte px t (r * w + 8 * b) else 0#8

/-- The XOR mask of `w * h` pixels, `(w/2)*h` bytes (R220, R226). -/
def xorMask (px : Bytes) (w h : Nat) (t : Byte) : List Byte := (List.range (xorLen w h)).map (xorByte px t)

/-- The AND mask of `w * h` pixels, `4*h` bytes (R220, R226). -/
def andMask (px : Bytes) (w h : Nat) (t : Byte) : List Byte := (List.range (andLen h)).map (andByte px w t)

/-- `EncodeMasks(px, w, h, t)` (R220). -/
def encodeMasks (px : Bytes) (w h : Nat) (t : Byte) : List Byte × List Byte := (xorMask px w h t, andMask px w h t)

/-! ## The source's loop form (R229)

The source packs with side-effecting counters. R229 says that its loops write the bytes of R220; the model runs R220
and keeps the loops here so that the two can be compared. -/

/-- The XOR loop: each byte starts zeroed and each pixel's nibble is ORed into byte `i/2`, high for even `i`. -/
def xorLoop (px : Bytes) (t : Byte) : Nat → Nat → List Byte → List Byte
  | 0, _, mask => mask
  | n + 1, i, mask =>
    let v : Byte := (nib (px.byte i) t).setWidth 8
    let v := if i % 2 = 0 then v <<< 4 else v
    xorLoop px t n (i + 1) (mask.modify (i / 2) (· ||| v))

/-- The AND loop over the pixels: the accumulator is shifted left and the pixel's bit ORed in; after every 8 pixels
the byte at the cursor is written and the cursor advances; for `w = 16` it advances 2 more bytes after each row. -/
def andLoop (px : Bytes) (w : Nat) (t : Byte) : Nat → Nat → Byte → Nat → List Byte → List Byte
  | 0, _, _, _, mask => mask
  | n + 1, i, acc, cursor, mask =>
    let acc := (acc <<< 1) ||| bitAt (tbit (px.byte i) t) 0
    if (i + 1) % 8 = 0 then
      let mask := mask.set cursor acc
      let cursor := cursor + 1
      let cursor := if w = 16 ∧ (i + 1) % w = 0 then cursor + 2 else cursor
      andLoop px w t n (i + 1) 0#8 cursor mask
    else andLoop px w t n (i + 1) acc cursor mask

/-- The source's loops over all pixels, into masks that start zeroed (R229). -/
def encodeMasksLoop (px : Bytes) (w h : Nat) (t : Byte) : List Byte × List Byte :=
  (xorLoop px t (w * h) 0 (List.replicate (xorLen w h) 0#8),
    andLoop px w t (w * h) 0 0#8 0 (List.replicate (andLen h) 0#8))

/-! ## Decode (R230) -/

/-- The decoded nibble of pixel `i`: "two per byte, high nibble first" (R231). -/
def decNibble (xor : Bytes) (i : Nat) : Byte :=
  if i % 2 = 0 then xor.byte (i / 2) >>> 4 else xor.byte (i / 2) &&& 0x0F#8

/-- The decoded AND bit of the pixel at row `r`, column `c` (R232). -/
def decBit (and : Bytes) (r c : Nat) : Byte := (and.byte (4 * r + c / 8) >>> (7 - c % 8)) &&& 1#8

/-- The decoded pixel byte of pixel `i`: the nibble in bits [3:0], the AND bit in bit 4 (R230, 30_encoding.md R143). -/
def decPixel (xor and : Bytes) (w i : Nat) : Byte := decNibble xor i ||| (decBit and (i / w) (i % w) <<< 4)

/-- `DecodeMasks(xor, and, w, h)` (R230). -/
def decodeMasks (xor and : Bytes) (w h : Nat) : List Byte := (List.range (w * h)).map (decPixel xor and w)

/-! ## ENCODE (R235) -/

/-- The bytes that a source's header, colour table and pixels take: `40 + 4*p + w*h` (R235, 41_assembler.md R200). -/
def needOf (bi : BmpInfo) : Nat := 40 + 4 * bi.palSz.toNat + bi.width.toNat * bi.height.toNat

/-- The pixel bytes of a source: `Src(k)[40+4p .. 40+4p+w*h)` (30_encoding.md R129). -/
def pixelsOf (src : Bytes) (bi : BmpInfo) : Bytes :=
  src.slice (40 + 4 * bi.palSz.toNat) (bi.width.toNat * bi.height.toNat)

/-- The part of ENCODE and of ASSEMBLE's first pass that checks one source: the strict verifier, then the buffer
length (R235, 41_assembler.md R200, R201). -/
def checkStrict (src : Bytes) (k : Nat) : Except CmdError BmpInfo :=
  match verifyHeader src true true k with
  | .error e => .error e
  | .ok bi => if src.len < needOf bi then .error (readShort (sat32 (needOf bi)) k) else .ok bi

/-- The rule of ENCODE (R235). -/
def runEncode (k : Nat) (s : State) : Except CmdError Results :=
  match checkSource s k with
  | .error e => .error e
  | .ok () =>
    match checkStrict (s.src k) k with
    | .error e => .error e
    | .ok bi =>
      let w := bi.width.toNat
      let h := bi.height.toNat
      let n := xorLen w h + andLen h
      if n > s.params.outCap then .error (allocationFailure .outCap n k)
      else
        let masks := encodeMasks (pixelsOf (s.src k) bi) w h s.transp
        .ok { info := some bi, out := some (masks.1 ++ masks.2), toc := none }

/-- ENCODE (R235): its completion step. -/
def execEncode (k : Nat) (s : State) : Host.Outcome State Fault Refusal := .next (s.complete (runEncode k s))

end Sys2Proof.Machine
end

