-- ==== Sys2Proof/Machine/Assembler.lean ====
section
/-! DEFINITION. The ICO assembler and the ASSEMBLE command (41_assembler.md R190 to R203). -/

namespace Sys2Proof.Machine

/-! ## Layout (R190 to R193) -/

/-- `xs[k]`, the XOR mask bytes of a source. -/
def xsOf (bi : BmpInfo) : Nat := xorLen bi.width.toNat bi.height.toNat

/-- `as[k]`, the AND mask bytes of a source. -/
def asOf (bi : BmpInfo) : Nat := andLen bi.height.toNat

/-- `size[k] = 40 + 4*p + xs[k] + as[k]` (R191). -/
def blockSize (bi : BmpInfo) : Nat := 40 + 4 * bi.palSz.toNat + xsOf bi + asOf bi

/-- The offset of the first block, right after the header and `n` TOC entries (R192). -/
def firstBlock (n : Nat) : Nat := 6 + 16 * n

/-- The block offsets from a start on: each block starts where the previous one ends (R192). -/
def blockOffsets : Nat → List BmpInfo → List Nat
  | _, [] => []
  | o, bi :: bis => o :: blockOffsets (o + blockSize bi) bis

/-- `off[0 .. N-1]` (R190). -/
def offsets (bis : List BmpInfo) : List Nat := blockOffsets (firstBlock bis.length) bis

/-- `L = 6 + 16N + Σ size[k]` (R193). -/
def fileLength (bis : List BmpInfo) : Nat := firstBlock bis.length + (bis.map blockSize).sum

/-! ## The file image (R194 to R197) -/

/-- `FileHeader(N) = le16(0) ‖ le16(1) ‖ le16(N)` (R195). -/
def fileHeader (n : Nat) : List Byte := le16 0 ++ le16 1 ++ le16 n

/-- `TocEntry(k)` with the offset `off` (R196). -/
def tocEntryBytes (bi : BmpInfo) (off : Nat) : List Byte :=
  le8 bi.width.toNat ++ le8 bi.height.toNat ++ le8 bi.palSz.toNat ++ le8 0 ++ le16 1 ++ le16 4 ++
    le32 (blockSize bi) ++ le32 off

/-- The embedded info-header of a source (30_encoding.md R136). -/
def blockHeader (bi : BmpInfo) : List Byte :=
  le32 40 ++ le32 bi.width.toNat ++ le32 (2 * bi.height.toNat) ++ le16 1 ++ le16 4 ++ le32 0 ++
    le32 (xsOf bi + asOf bi) ++ le32 0 ++ le32 0 ++ le32 bi.palSz.toNat ++ le32 0

/-- The colour table of a source, copied byte for byte (30_encoding.md R128, R197). -/
def colourTable (src : Bytes) (bi : BmpInfo) : List Byte := (src.slice 40 (4 * bi.palSz.toNat)).toList

/-- `Block(k)` (R197). -/
def blockBytes (t : Byte) (src : Bytes) (bi : BmpInfo) : List Byte :=
  let masks := encodeMasks (pixelsOf src bi) bi.width.toNat bi.height.toNat t
  blockHeader bi ++ colourTable src bi ++ masks.1 ++ masks.2

/-- A source that passed the checks: its bytes and its BmpInfo. -/
structure Checked where
  src : Bytes
  bi : BmpInfo

/-- The BmpInfos of the sources. -/
def infosOf (cs : List Checked) : List BmpInfo := cs.map Checked.bi

/-- All TOC entries, in entry order (R194). -/
def tocBytes (bis : List BmpInfo) : List Byte := (List.zipWith tocEntryBytes bis (offsets bis)).flatten

/-- `AsmImage` (R194). -/
def asmImage (t : Byte) (cs : List Checked) : List Byte :=
  fileHeader cs.length ++ tocBytes (infosOf cs) ++ (cs.map fun c => blockBytes t c.src c.bi).flatten

/-! ## The source's seekable writer (R56, R198)

The source writes placeholders and goes back to patch them. R198 lets any writer that yields the same bytes stand for
it; the model runs `asmImage` and keeps the seekable writer here so that the two can be compared. The placeholder
count is an argument: the spec gives it no value (log 22). -/

/-- "Seek back and overwrite": the bytes from position `p` on are replaced. -/
def overwriteAt (file : List Byte) (p : Nat) (bs : List Byte) : List Byte :=
  file.take p ++ bs ++ file.drop (p + bs.length)

/-- For each source in order: record the current position, patch the source's remembered offset field with it, and
write the block at the end of the file (R198). -/
def patchBlocks (t : Byte) : Nat → List Checked → List Byte → List Byte
  | _, [], file => file
  | k, c :: cs, file =>
    let pos := file.length
    patchBlocks t (k + 1) cs (overwriteAt file (patchPos k) (le32 pos) ++ blockBytes t c.src c.bi)

/-- The seekable writer: a header with a placeholder count, TOC entries with offset 0, the blocks with their
backpatches, and last the backpatch of the count (R198). -/
def seekableImage (t : Byte) (placeholder : Nat) (cs : List Checked) : List Byte :=
  let start := fileHeader placeholder ++ ((infosOf cs).map fun bi => tocEntryBytes bi 0).flatten
  overwriteAt (patchBlocks t 0 cs start) 4 (le16 cs.length)

/-! ## ASSEMBLE (R200) -/

/-- Pass 1: validate every source in increasing order; the first failure wins (R201). -/
def checkSources (s : State) : List Nat → Except CmdError (List Checked)
  | [] => .ok []
  | k :: ks =>
    match checkStrict (s.src k) k with
    | .error e => .error e
    | .ok bi =>
      match checkSources s ks with
      | .error e => .error e
      | .ok cs => .ok ({ src := s.src k, bi := bi } :: cs)

/-- The TOCRAM record of entry `k` cut from a file: its TOC entry, its embedded header at `off`, PATCH_POS and four
reserved zero bytes (30_encoding.md R141, R200, R202). -/
def tocRecord (entry header : List Byte) (k : Nat) : List Byte := entry ++ header ++ le32 (patchPos k) ++ le32 0

/-- The TOCRAM records of a written file (R200, R202). -/
def assembledRecords (img : List Byte) (offs : List Nat) : List (List Byte) :=
  offs.zipIdx.map fun p => tocRecord (sliceList img (entryPos p.2) 16) (sliceList img p.1 40) p.2

/-- The rule of ASSEMBLE (R200), with the checks of R201 in their order. -/
def runAssemble (s : State) : Except CmdError Results :=
  let n := s.nsrc.toNat
  if n = 0 ∨ n > s.params.srcMax then .error (usageError .nsrc n 0)
  else if n > s.params.tocMax then .error (allocationFailure .nsrc n 0)
  else
    match checkSources s (List.range n) with
    | .error e => .error e
    | .ok cs =>
      let len := fileLength (infosOf cs)
      if len > s.params.outCap then .error (allocationFailure .outCap (sat32 len) 0)
      else
        let img := asmImage s.transp cs
        .ok { info := none, out := some img, toc := some (assembledRecords img (offsets (infosOf cs))) }

/-- ASSEMBLE (R200): its completion step. -/
def execAssemble (s : State) : Host.Outcome State Fault Refusal := .next (s.complete (runAssemble s))

end Sys2Proof.Machine
end

