-- ==== Sys2Proof/Machine/Reader.lean ====
section
/-! DEFINITION. The ICO reader and the PARSE and DECODE commands (43_reader.md R250 to R268). -/

namespace Sys2Proof.Machine

/-- A FieldMismatch (60_exceptions.md R301). -/
def fieldMismatch (field : ErrField) (value idx : Nat) : CmdError :=
  { kind := .fieldMismatch, reason := .none, field := field, value := value, index := idx }

/-- The TOC entry `k` of the input (R256). -/
def entryAt (inp : Bytes) (k : Nat) : TocEntry := tocEntryOf inp (entryPos k)

/-- The 40 bytes of an embedded header at file offset `o`: `In[o .. o+40)` (R250). -/
def headerAt (inp : Bytes) (o : Nat) : Bytes := inp.slice o 40

/-- The checks of one entry: embedded header length, relaxed verify, bpp, palette (R257 to R260). -/
def parseEntry (inp : Bytes) (k : Nat) : Except CmdError BmpInfo :=
  let e := entryAt inp k
  let o := e.offset.toNat
  if inp.len < o + 40 then .error (readShort (sat32 (o + 40)) k)
  else
    match verifyHeader (headerAt inp o) false false k with
    | .error err => .error err
    | .ok bi =>
      if e.bpp ≠ bi.bpp then .error (fieldMismatch .entryBpp e.bpp.toNat k)
      else if e.palSz.setWidth 32 ≠ bi.palSz then .error (fieldMismatch .entryPalSz e.palSz.toNat k)
      else .ok bi

/-- The entries of the given indices in order; the first failure wins (R250). -/
def parseEntries (inp : Bytes) : List Nat → Except CmdError (List (TocEntry × BmpInfo))
  | [] => .ok []
  | k :: ks =>
    match parseEntry inp k with
    | .error e => .error e
    | .ok bi =>
      match parseEntries inp ks with
      | .error e => .error e
      | .ok rest => .ok ((entryAt inp k, bi) :: rest)

/-- The file header's count (30_encoding.md R130). -/
def icoCount (inp : Bytes) : Nat := (inp.rd16 4).toNat

/-- `ParseIco(In)` (R250): every entry with its embedded BmpInfo, in entry order; their number is the image count. -/
def parseIco (tocMax : Nat) (inp : Bytes) : Except CmdError (List (TocEntry × BmpInfo)) :=
  if inp.len < 6 then .error (readShort 6 0)
  else if inp.rd16 0 ≠ 0#16 then .error (verifyFailure .invalidIcoFile .icoReserved (inp.rd16 0).toNat 0)
  else if inp.rd16 2 ≠ 1#16 then .error (verifyFailure .invalidIcoFile .icoType (inp.rd16 2).toNat 0)
  else if icoCount inp > tocMax then .error (allocationFailure .icoCount (icoCount inp) 0)
  else if inp.len < 6 + 16 * icoCount inp then .error (readShort (6 + 16 * icoCount inp) 0)
  else parseEntries inp (List.range (icoCount inp))

/-- The TOCRAM records of a parsed file: the entry bytes and the embedded header bytes as read (R262, R263). -/
def parsedRecords (inp : Bytes) (es : List (TocEntry × BmpInfo)) : List (List Byte) :=
  es.zipIdx.map fun p =>
    tocRecord (inp.slice (entryPos p.2) 16).toList (headerAt inp p.1.1.offset.toNat).toList p.2

/-! ## PARSE (R262) -/

/-- The rule of PARSE (R262). -/
def runParse (s : State) : Except CmdError Results :=
  match parseIco s.params.tocMax s.icoInput with
  | .error e => .error e
  | .ok es => .ok { info := none, out := none, toc := some (parsedRecords s.icoInput es) }

/-- PARSE (R262): its completion step. -/
def execParse (s : State) : Host.Outcome State Fault Refusal := .next (s.complete (runParse s))

/-! ## DECODE (R264) -/

/-- The file offset of an entry's XOR mask (R266). -/
def xorStart (e : TocEntry) (bi : BmpInfo) : Nat := e.offset.toNat + 40 + 4 * bi.palSz.toNat

/-- The checks and the decoding of one entry of a parsed file (R264, R265): its decoded pixel bytes. -/
def decodeEntry (inp : Bytes) (outCap : Nat) (k : Nat) (e : TocEntry) (bi : BmpInfo) : Except CmdError (List Byte) :=
  let w := dim8 e.w
  let h := dim8 e.h
  let xb := xorStart e bi
  let ab := xb + xorLen w h
  let fin := ab + andLen h
  if e.bpp ≠ 4#16 then .error (verifyFailure .unsupportedBpp .entryBpp e.bpp.toNat k)
  else if w ≠ 16 ∧ w ≠ 32 then .error (verifyFailure .unsupportedDimensions .entryWidth w k)
  else if inp.len < fin then .error (readShort (sat32 fin) k)
  else if w * h > outCap then .error (allocationFailure .outCap (w * h) k)
  else .ok (decodeMasks (inp.slice xb (xorLen w h)) (inp.slice ab (andLen h)) w h)

/-- The rule of DECODE (R264): the whole file is parsed first; an index at or past the count is a UsageError. -/
def runDecode (k : Nat) (s : State) : Except CmdError Results :=
  match parseIco s.params.tocMax s.icoInput with
  | .error e => .error e
  | .ok es =>
    match es[k]? with
    | none => .error (usageError .cmdIdx k k)
    | some (e, bi) =>
      match decodeEntry s.icoInput s.params.outCap k e bi with
      | .error err => .error err
      | .ok d => .ok { info := none, out := some d, toc := some (parsedRecords s.icoInput es) }

/-- DECODE (R264): its completion step. -/
def execDecode (k : Nat) (s : State) : Host.Outcome State Fault Refusal := .next (s.complete (runDecode k s))

end Sys2Proof.Machine
end

