-- ==== Sys2Proof/Machine/System.lean ====
section
/-! DEFINITION. The no-op and the illegal command word (44_system.md R280, R281). -/

namespace Sys2Proof.Machine

/-- NOP: `return ok()`; no result is written (R280). -/
def execNop (s : State) : Host.Outcome State Fault Refusal := .next (s.complete (.ok Results.nothing))

/-- The error of an illegal word: `Error(IllegalCommand, 0, CMD_WORD, v, 0)` (R281). -/
def illegalError (v : Word) : CmdError :=
  { kind := .illegalCommand, reason := .none, field := .cmdWord, value := v.toNat, index := 0 }

/-- ILLEGAL: the completion step of a word that decodes to no command (R281, 30_encoding.md R117; log 13). -/
def execIllegal (v : Word) (s : State) : Host.Outcome State Fault Refusal :=
  .next (s.complete (.error (illegalError v)))

end Sys2Proof.Machine
end

