-- ==== Sys2Proof/Machine/Dispatch.lean ====
section
/-! DEFINITION. The meaning of every command: one arm per constructor of Instr. -/

namespace Sys2Proof.Machine

/-- `Exec(Decode(REG[CMD]))` and the completion step around it, for a legal command (10_state.md R55). -/
def exec (i : Instr) (s : State) : Host.Outcome State Fault Refusal :=
  match i with
  | .nop => Sys2Proof.Machine.execNop s
  | .verify k bpp dim => Sys2Proof.Machine.execVerify k bpp dim s
  | .encode k => Sys2Proof.Machine.execEncode k s
  | .assemble => Sys2Proof.Machine.execAssemble s
  | .parse => Sys2Proof.Machine.execParse s
  | .decode k => Sys2Proof.Machine.execDecode k s

end Sys2Proof.Machine
end

