-- ==== Sys2Proof/Machine/HostPort.lean ====
section
/-! DEFINITION. What the host can do to the block: register and memory accesses while the block is idle or busy
(20_memory.md R85, R87, R101, R102; 10_state.md R39), the WAIT loop, the reset input, and the host program syntax of
30_encoding.md R152. -/

namespace Sys2Proof.Machine

/-- The host receives a word. -/
def State.received (s : State) (w : Word) : State := { s with reads := w :: s.reads }

/-- A read that answers an unspecified value: a fresh free value (70_reset_and_hazards.md R360; log 9). -/
def State.freeWord (s : State) : Word := Config.freeRead s.draws

/-- The state after a free value was drawn. -/
def State.drawn (s : State) : State := { s with draws := s.draws + 1 }

/-- What is wrong with a register access, if anything: a width or an alignment other than the aligned 32-bit word, or
an offset outside the register space (R85, 60_exceptions.md R317; log 11). -/
def registerFault (width offset : Nat) : Option Fault :=
  if width ≠ 32 ∨ offset % 4 ≠ 0 then some .hostRegisterNotAlignedWord
  else if offset ≥ 4096 then some .hostRegisterOutsideSpace
  else none

/-- A host register write: dropped while BUSY = 1, which sets WDROP (10_state.md R39), stored by its register's rule
otherwise (R102). -/
def State.hostWriteReg (s : State) (offset : Nat) (v : Word) : State :=
  if s.status.busy then { s with status := s.status.dropped } else s.setReg offset v

/-- A host register read: an unspecified word for an INFO register while BUSY = 1, the register's value otherwise
(R101, R102). -/
def State.hostReadReg (s : State) (offset : Nat) : State :=
  if s.status.busy ∧ infoOffsetRead offset then (s.received s.freeWord).drawn else s.received (s.regWord offset)

/-- A host byte write: while BUSY = 1 a write to INMEM or SRCDESC is dropped and sets WDROP (R39, R101) and a write
to OUTMEM or TOCRAM is ignored (R102; log 10). -/
def State.hostWriteByte (s : State) (sp : Space) (a : Nat) (b : Byte) : State :=
  if s.status.busy then (if coreOwned sp then s else { s with status := s.status.dropped }) else s.setByte sp a b

/-- A host byte read: an unspecified byte of OUTMEM or TOCRAM while BUSY = 1, the stored byte otherwise (R101, R102). -/
def State.hostReadByte (s : State) (sp : Space) (a : Nat) : State :=
  if s.status.busy ∧ coreOwned sp then (s.received ((s.freeWord.setWidth 8).setWidth 32)).drawn
  else s.received (((s.mem sp).byte sp a).setWidth 32)

/-- One host access (R85, R87, R95). A faulting access has no meaning in the spec and stops the model (R317; log 16).
`wait` reads STATUS and stays the next access while BUSY = 1 (R152, R354; log 20). -/
def hostAccess (op : HostOp) (s : State) : Host.Outcome State Fault Refusal :=
  match op with
  | .writeReg width offset v =>
    match registerFault width offset with
    | some f => .fault f
    | none => .next (s.hostWriteReg offset v)
  | .readReg width offset =>
    match registerFault width offset with
    | some f => .fault f
    | none => .next (s.hostReadReg offset)
  | .writeByte sp a b => if a < memSize s.params sp then .next (s.hostWriteByte sp a b) else .fault .hostMemoryOutsideSpace
  | .readByte sp a => if a < memSize s.params sp then .next (s.hostReadByte sp a) else .fault .hostMemoryOutsideSpace
  | .wait =>
    if s.status.busy then .next { s.received s.status.word with host := .wait :: s.host }
    else .next (s.received s.status.word)
  | .reset => .next s.resetEvent

/-- The host's next access, taken off its list; a host with nothing to do leaves the state as it is (log 5). -/
def hostStep (s : State) : Host.Outcome State Fault Refusal :=
  match s.host with
  | [] => .next s
  | op :: rest => hostAccess op { s with host := rest }

/-! ## Host program syntax (R152) -/

/-- One line of a host program (R152). -/
inductive HostLine where
  /-- `WR reg, v`. -/
  | wr (r : Reg) (v : Word)
  /-- `RD reg`. -/
  | rd (r : Reg)
  /-- `WRB space[a], b0 b1 …`. -/
  | wrb (sp : Space) (a : Nat) (bs : List Byte)
  /-- `DESC k, base, len`. -/
  | desc (k : Nat) (base len : Nat)
  /-- `CMD c`. -/
  | cmd (c : AsmLine)
  /-- `WAIT`. -/
  | wait
  deriving DecidableEq, Repr

/-- "host writes bytes `b0`, `b1`, … to `space` at addresses a, a+1, …" (R152). -/
def writeBytesOps (sp : Space) : Nat → List Byte → List HostOp
  | _, [] => []
  | a, b :: bs => .writeByte sp a b :: writeBytesOps sp (a + 1) bs

/-- The host accesses a line stands for (R152). -/
def HostLine.ops : HostLine → List HostOp
  | .wr r v => [.writeReg 32 (regOffset r) v]
  | .rd r => [.readReg 32 (regOffset r)]
  | .wrb sp a bs => writeBytesOps sp a bs
  | .desc k base len => writeBytesOps .srcdesc (8 * k) (le32 base ++ le32 len)
  | .cmd c => [.writeReg 32 (regOffset .cmd) c.word]
  | .wait => [.wait]

/-- A host program's accesses, in program order (R95, R152). -/
def hostProgram (ls : List HostLine) : List HostOp := (ls.map HostLine.ops).flatten

/-! ## Host sequences (70_reset_and_hazards.md R350 to R354) -/

/-- The host removes the 14-byte BMP file header before it loads a source (R352). -/
def stripFileHeader (bmpFile : List Byte) : List Byte := bmpFile.drop 14

/-- "writes CMD, and waits by rule R354" (R350). -/
def issue (i : Instr) : List HostLine := [.cmd (.command i), .wait]

/-- Load source `k` at an INMEM base and write its descriptor (R351). -/
def loadSource (k base : Nat) (src : List Byte) : List HostLine := [.wrb .inmem base src, .desc k base src.length]

/-- The reads of bytes `a` to `a + n - 1` of a memory. -/
def readBytesOps (sp : Space) : Nat → Nat → List HostOp
  | _, 0 => []
  | a, n + 1 => .readByte sp a :: readBytesOps sp (a + 1) n

/-- The host takes an output: OUT_LEN, then `OUTMEM[0 .. OUT_LEN - 1]` (R351, R353). -/
def takeOut (outLen : Word) : List HostOp := .readReg 32 (regOffset .outLen) :: readBytesOps .outmem 0 outLen.toNat

/-- The host takes a table of contents: TOC_COUNT, then the TOCRAM records below it (R353). -/
def takeToc (tocCount : Word) : List HostOp :=
  .readReg 32 (regOffset .tocCount) :: readBytesOps .tocram 0 (64 * tocCount.toNat)

/-- What the host reads once a command has completed and acts on: STATUS, and the length of the result (OUT_LEN or
TOC_COUNT). A host's list of accesses is fixed data, so a sequence takes these words as arguments (log 3). -/
structure Answer where
  status : Word
  length : Word
  deriving DecidableEq, Repr

/-- "if ERR = 0" (R351, R353): STATUS.ERR is bit 2 (10_state.md R34). -/
def Answer.ok (a : Answer) : Bool := !a.status.getLsbD 2

/-- The encoder sequence for BMP files with an INMEM base each; `made` is what the host reads after ASSEMBLE: with
ERR = 0 it takes the ICO file, with ERR = 1 nothing (R351). -/
def encoderSequence (t : Byte) (files : List (Nat × List Byte)) (made : Answer) : List HostOp :=
  hostProgram ((files.zipIdx.map fun p => loadSource p.2 p.1.1 (stripFileHeader p.1.2)).flatten ++
    [.wr .nsrc (BitVec.ofNat 32 files.length), .wr .transp (t.setWidth 32)] ++ issue .assemble) ++
    if made.ok then takeOut made.length else []

/-- DECODE of one wanted entry: the command, the wait, and the reads of its pixels before any further command; `outLen`
is the OUT_LEN that the host reads (R353). -/
def decodeWanted (k : Nat) (outLen : Word) : List HostOp := hostProgram (issue (.decode k)) ++ takeOut outLen

/-- The decoder sequence for an ICO file at an INMEM base (R353): `parsed` is what the host reads after PARSE, `wanted`
the entries that it wants as pixels, each with the OUT_LEN that it reads after that DECODE. With ERR = 0 the host takes
TOC_COUNT and the TOCRAM records, and decodes and takes each wanted entry below TOC_COUNT. -/
def decoderSequence (base : Nat) (icoFile : List Byte) (parsed : Answer) (wanted : List (Nat × Word)) : List HostOp :=
  hostProgram ([.wrb .inmem base icoFile, .wr .inBase (BitVec.ofNat 32 base),
    .wr .inLen (BitVec.ofNat 32 icoFile.length)] ++ issue .parse) ++
    if parsed.ok then
      takeToc parsed.length ++
        ((wanted.filter fun w => decide (w.1 < parsed.length.toNat)).map fun w => decodeWanted w.1 w.2).flatten
    else []

end Sys2Proof.Machine
end

