-- ==== Sys2Proof/Machine/Step.lean ====
section
/-! DEFINITION. One step of the block and its host (10_state.md R30, R54, R55; 20_memory.md R95). -/

namespace Sys2Proof.Machine

/-- The completion step of the word in CMD: the command it decodes to, or the illegal word (R55, R281; log 13). -/
def completionStep (s : State) : Host.Outcome State Fault Refusal :=
  match decode s.cmd with
  | some i => exec i s
  | none => execIllegal s.cmd s

/-- One step. While BUSY = 1 the core takes its remaining internal steps, between which the host's next access may
land, and then its completion step; while BUSY = 0 only the host acts (R30, R35, R55, R95; log 4). -/
def step (s : State) : Host.Outcome State Fault Refusal :=
  if s.status.busy then
    match s.stepsLeft with
    | 0 => completionStep s
    | n + 1 => hostStep { s with stepsLeft := n }
  else hostStep s

/-- The state in which the command word given as `nbits` bits of `w` was just accepted and its completion step is the
next step (R33, R54; log 12): the host's write of CMD, with no internal step left to wait for. -/
def State.withFetchWord (s : State) (nbits w : Nat) : State :=
  { s.accept (BitVec.ofNat 32 (w % 2 ^ nbits)) with stepsLeft := 0 }

end Sys2Proof.Machine
end

