-- ==== Sys2Proof/Safety.lean ====
section
/-! DEFINITION. What counts as a safe run: the invariant of the block's state, and the host accesses that have a
meaning (20_memory.md R85). -/

namespace Sys2Proof.Machine

/-- A host access that the spec gives a meaning (R85): a register access is an aligned 32-bit word inside the register
space, a memory access an address inside its space. -/
def validAccess (p : Params) : HostOp → Prop
  | .writeReg width offset _ => width = 32 ∧ offset % 4 = 0 ∧ offset < 4096
  | .readReg width offset => width = 32 ∧ offset % 4 = 0 ∧ offset < 4096
  | .writeByte sp a _ => a < memSize p sp
  | .readByte sp a => a < memSize p sp
  | .wait => True
  | .reset => True

/-- The host only makes accesses that have a meaning. -/
def State.hostValid (s : State) : Prop := ∀ op ∈ s.host, validAccess s.params op

/-- An error report that a command can leave (60_exceptions.md R301 to R303): a kind other than the host's
FileOpenFailure, a reason exactly with VerifyFailure, and a field. -/
def State.reports (s : State) (e : CmdError) : Prop :=
  e.kind ≠ .fileOpenFailure ∧ (e.kind = .verifyFailure ↔ e.reason ≠ .none) ∧ s.status.kind = e.kind.code ∧
    s.status.reason = e.reason.code ∧ s.errField = e.field.code

/-- The invariant of the block (10_state.md R34 to R52, 60_exceptions.md R310). -/
structure Inv (s : State) : Prop where
  /-- The parameters meet their constraints (00_scope.md R7). -/
  params : s.params.Valid
  /-- Each memory has its canonical form and lists no address outside its space (R61 to R64). -/
  inmem : s.inmem.wf (memSize s.params .inmem) = true
  outmem : s.outmem.wf (memSize s.params .outmem) = true
  srcdesc : s.srcdesc.wf (memSize s.params .srcdesc) = true
  tocram : s.tocram.wf (memSize s.params .tocram) = true
  /-- While a command runs, DONE and ERR are 0 (R36, R37, R54). -/
  running : s.status.busy = true → s.status.done = false ∧ s.status.err = false
  /-- An idle block has no step left (R35, R58). -/
  idle : s.status.busy = false → s.stepsLeft = 0
  /-- The error report is 0 when ERR is 0 (R40 to R43). -/
  quiet : s.status.err = false → s.status.kind = 0 ∧ s.status.reason = 0 ∧ s.errField = 0 ∧ s.errValue = 0 ∧ s.errIndex = 0
  /-- With ERR = 1 the report is one that a command can leave (60_exceptions.md R301 to R303, R307). -/
  report : s.status.err = true → ∃ e, s.reports e
  /-- With INFO_V = 1 the INFO registers hold a verified BmpInfo (R38, 40_verifier.md R177). -/
  info : s.status.infoV = true → ∃ bi, s.info = .held bi ∧ bi.headerSz = 40#32 ∧ bi.compression = 0#32 ∧ bi.palSz ≠ 0#32
  /-- OUT_LEN fits OUTMEM and the bytes below it are definite (R48, R62). -/
  outLen : s.outLen.toNat ≤ s.params.outCap
  outValid : ∀ a < s.outLen.toNat, (lookupCell s.outmem.cells a).isSome = true
  /-- TOC_COUNT fits TOCRAM and the records below it are definite (R49, R64). -/
  tocCount : s.tocCount.toNat ≤ s.params.tocMax
  tocValid : ∀ a < 64 * s.tocCount.toNat, (lookupCell s.tocram.cells a).isSome = true
  /-- Bytes 56 to 63 of a valid record are PATCH_POS and four zeros (R65, 30_encoding.md R141). -/
  tocTail : ∀ k < s.tocCount.toNat, ∀ j < 8,
    lookupCell s.tocram.cells (64 * k + 56 + j) = (le32 (patchPos k) ++ le32 0)[j]?
  /-- While a command runs, the groups of its write set are invalid (R54). -/
  infoCleared : s.status.busy = true → clears s.cmd .info = true → s.status.infoV = false
  outCleared : s.status.busy = true → clears s.cmd .out = true → s.outLen = 0 ∧ s.outmem.cells = []
  tocCleared : s.status.busy = true → clears s.cmd .toc = true → s.tocCount = 0 ∧ s.tocram.cells = []

end Sys2Proof.Machine
end

