-- ==== Sys2Proof/Certificates/Slice0/Obligations.lean ====
section
/-! DEFINITION. The statements about the model, taken from the numbered rules of spec/. -/

namespace Sys2Proof.Claims

open Sys2Proof.Machine

/-! ## Words the statements share -/

/-- A command's completion step ends in the error `e` (60_exceptions.md R310): the report is written, BUSY is 0, DONE
is 1, and nothing else changes. -/
def FailsWith (i : Instr) (s : State) (e : CmdError) : Prop :=
  exec i s = .next
    { s with
      status := { s.status with busy := false, done := true, err := true, kind := e.kind.code, reason := e.reason.code }
      errField := e.field.code
      errValue := BitVec.ofNat 32 (min e.value 4294967295)
      errIndex := BitVec.ofNat 32 e.index }

/-- STATUS after a successful completion: BUSY 0, DONE 1, INFO_V as said, the rest kept. -/
def okStatus (st : Status) (infoV : Bool) : Status := { st with busy := false, done := true, infoV := infoV }

/-- The decoded word has INFO in its write set (10_state.md R50): VERIFY and ENCODE. -/
def touchesInfo : Option Instr → Bool
  | some (.verify _ _ _) => true
  | some (.encode _) => true
  | _ => false

/-- The decoded word has OUT in its write set (R50): ENCODE, ASSEMBLE and DECODE. -/
def touchesOut : Option Instr → Bool
  | some (.encode _) => true
  | some .assemble => true
  | some (.decode _) => true
  | _ => false

/-- The decoded word has TOC in its write set (R50): ASSEMBLE, PARSE and DECODE. -/
def touchesToc : Option Instr → Bool
  | some .assemble => true
  | some .parse => true
  | some (.decode _) => true
  | _ => false

/-- The checks of the verifier, written as one condition (40_verifier.md R170 to R176). -/
def HeaderPasses (b : Bytes) (chkBpp chkDim : Bool) : Prop :=
  40 ≤ b.len ∧ b.rd32 0 = 40#32 ∧ (chkBpp = true → b.rd16 14 = 8#16) ∧
    (chkDim = true → (b.rd32 4 = 16#32 ∨ b.rd32 4 = 32#32) ∧ (b.rd32 8 = 16#32 ∨ b.rd32 8 = 32#32) ∧ b.rd32 4 = b.rd32 8) ∧
    b.rd32 16 = 0#32 ∧ b.rd32 32 ≠ 0#32

/-- Width, height and palette size of a source, as natural numbers. -/
def widthOf (b : Bytes) : Nat := (b.rd32 4).toNat
def heightOf (b : Bytes) : Nat := (b.rd32 8).toNat
def paletteOf (b : Bytes) : Nat := (b.rd32 32).toNat

/-- A source that the strict verifier accepts and whose buffer holds header, colour table and pixels
(41_assembler.md R201 (3), (4)). -/
def SourceReady (b : Bytes) : Prop :=
  HeaderPasses b true true ∧ 40 + 4 * paletteOf b + widthOf b * heightOf b ≤ b.len

/-- The pixel bytes of a source (30_encoding.md R129). -/
def pixels (b : Bytes) : Bytes := b.slice (40 + 4 * paletteOf b) (widthOf b * heightOf b)

/-- The operand checks of VERIFY and ENCODE pass (40_verifier.md R180). -/
def OperandsOk (s : State) (k : Nat) : Prop := s.nsrc.toNat ≤ s.params.srcMax ∧ k < s.nsrc.toNat

/-- The offset field of TOC entry `k` (30_encoding.md R132). -/
def offsetField (b : Bytes) (k : Nat) : Nat := (b.rd32 (6 + 16 * k + 12)).toNat

/-- The image count of an ICO input (30_encoding.md R130). -/
def countField (b : Bytes) : Nat := (b.rd16 4).toNat

/-- The file header of an ICO input passes (43_reader.md R251 to R255). -/
def IcoHeaderPasses (tocMax : Nat) (b : Bytes) : Prop :=
  6 ≤ b.len ∧ b.rd16 0 = 0#16 ∧ b.rd16 2 = 1#16 ∧ countField b ≤ tocMax ∧ 6 + 16 * countField b ≤ b.len

/-- TOC entry `k` passes (43_reader.md R257 to R260). -/
def EntryPasses (b : Bytes) (k : Nat) : Prop :=
  offsetField b k + 40 ≤ b.len ∧ HeaderPasses (b.slice (offsetField b k) 40) false false ∧
    b.rd16 (6 + 16 * k + 6) = b.rd16 (offsetField b k + 14) ∧
    (b.byte (6 + 16 * k + 2)).toNat = (b.rd32 (offsetField b k + 32)).toNat

/-- The TOCRAM record of entry `k` of an ICO input (43_reader.md R263). -/
def inputRecord (b : Bytes) (k : Nat) : List Byte :=
  (b.slice (6 + 16 * k) 16).toList ++ (b.slice (offsetField b k) 40).toList ++ le32 (6 + 16 * k + 12) ++ le32 0

/-- The TOCRAM records of an ICO input, one after the other. -/
def inputRecords (b : Bytes) : List Byte := ((List.range (countField b)).map (inputRecord b)).flatten

/-- Sources 0 to N - 1 of a state, with the BmpInfo that their headers decode to. -/
def sources (s : State) : List Checked :=
  (List.range s.nsrc.toNat).map fun k => { src := s.src k, bi := bmpInfoOf (s.src k) }

/-- `off[k]`, by R192: the sum of the sizes before it, after the header and the TOC. -/
def offAt (bis : List BmpInfo) (k : Nat) : Nat := 6 + 16 * bis.length + ((bis.take k).map blockSize).sum

/-- The TOCRAM record that ASSEMBLE leaves for source `k` (41_assembler.md R202). -/
def writtenRecord (bis : List BmpInfo) (k : Nat) (bi : BmpInfo) : List Byte :=
  tocEntryBytes bi (offAt bis k) ++ blockHeader bi ++ le32 (6 + 16 * k + 12) ++ le32 0

/-- The TOCRAM records that ASSEMBLE leaves, one after the other. -/
def writtenRecords (bis : List BmpInfo) : List Byte := (bis.zipIdx.map fun p => writtenRecord bis p.2 p.1).flatten

/-- Sources as ASSEMBLE's first pass accepts them. -/
def AllReady (cs : List Checked) : Prop := ∀ c ∈ cs, SourceReady c.src ∧ c.bi = bmpInfoOf c.src

/-- An input that begins with the bytes of a file. -/
def Holds (b : Bytes) (file : List Byte) : Prop :=
  file.length ≤ b.len ∧ ∀ j, (h : j < file.length) → b.byte j = file[j]

/-- Two states with the same inputs, byte for byte inside each memory (10_state.md R59). -/
def SameInputs (s u : State) : Prop :=
  s.params = u.params ∧ s.transp = u.transp ∧ s.nsrc = u.nsrc ∧ s.inBase = u.inBase ∧ s.inLen = u.inLen ∧
    (∀ a < s.params.inmemSize, s.inmem.byte .inmem a = u.inmem.byte .inmem a) ∧
    (∀ a < 8 * s.params.srcMax, s.srcdesc.byte .srcdesc a = u.srcdesc.byte .srcdesc a)

/-- Everything of the block but STATUS.WDROP, which a dropped write sets. -/
def SameBlock (t u : State) : Prop :=
  t.params = u.params ∧ t.cmd = u.cmd ∧ { t.status with wdrop := false } = { u.status with wdrop := false } ∧
    t.errField = u.errField ∧ t.errValue = u.errValue ∧ t.errIndex = u.errIndex ∧ t.transp = u.transp ∧
    t.nsrc = u.nsrc ∧ t.inBase = u.inBase ∧ t.inLen = u.inLen ∧ t.outLen = u.outLen ∧ t.tocCount = u.tocCount ∧
    t.info = u.info ∧ t.inmem = u.inmem ∧ t.outmem = u.outmem ∧ t.srcdesc = u.srcdesc ∧ t.tocram = u.tocram

end Sys2Proof.Claims

open Sys2Proof Sys2Proof.Machine Sys2Proof.Claims

/-! ## Encoding -/

/-- 30_encoding.md R110, R114 to R116: the decoder reads back every operand of every well-formed command's word. -/
def Obligations.DecodeOfEncode : Prop := ∀ i : Instr, i.wellFormed = true → decode (encode i) = some i

/-- R115, R116: a word that decodes to a command is that command's only word. -/
def Obligations.EncodeOfDecode : Prop :=
  ∀ (v : Word) (i : Instr), decode v = some i → i.wellFormed = true ∧ encode i = v

/-- R117: the illegal words, by their fields: OP 0x06 to 0xFF, a reserved bit, a BPP or DIM bit outside VERIFY, or a
nonzero IDX for NOP, ASSEMBLE or PARSE. -/
def Obligations.IllegalWordsByField : Prop :=
  ∀ v : Word, decode v = none ↔
    (6 ≤ (v.extractLsb' 0 8).toNat ∨ v.extractLsb' 10 6 ≠ 0#6 ∨
      ((v.extractLsb' 0 8).toNat ≠ 1 ∧ v.extractLsb' 8 2 ≠ 0#2) ∨
      (((v.extractLsb' 0 8).toNat = 0 ∨ (v.extractLsb' 0 8).toNat = 3 ∨ (v.extractLsb' 0 8).toNat = 4) ∧
        v.extractLsb' 16 16 ≠ 0#16))

/-- R116: no word is the command of two rows. -/
def Obligations.OpcodeRowsNeverOverlap : Prop :=
  ∀ (v : Word) (r q : OpRow), r ∈ opcodeMap → q ∈ opcodeMap → r.fits v = true → q.fits v = true → r = q

/-- R110, R150, R151: words written out from the field table decode to the commands they stand for. -/
def Obligations.WrittenOutWordsDecode : Prop :=
  decode 0b00000000000000000000000000000000#32 = some .nop ∧
  decode 0b00000000000000000000001100000001#32 = some (.verify 0 true true) ∧
  decode 0b00000000000001110000000100000001#32 = some (.verify 7 true false) ∧
  decode 0b11111111111111110000001000000001#32 = some (.verify 65535 false true) ∧
  decode 0b00000000000000110000000000000010#32 = some (.encode 3) ∧
  decode 0b00000000000000000000000000000011#32 = some .assemble ∧
  decode 0b00000000000000000000000000000100#32 = some .parse ∧
  decode 0b00000000000000010000000000000101#32 = some (.decode 1) ∧
  decode 0b00000000000000000000010000000001#32 = none

/-! ## The command lifecycle -/

/-- 10_state.md R30, R55: when BUSY = 1 and no internal step is left, a step is the completion step of the command that
CMD decodes to, or of the illegal word; with internal steps left, one of them passes and the host's next access may
land; while BUSY = 0 only the host acts. The counted internal steps, the place where an access lands and the state in
which a command word is placed are the model's choices (log 2, 4, 12). -/
def Obligations.StepRunsTheDecodedCommand : Prop :=
  (∀ (s : State) (i : Instr), s.status.busy = true → s.stepsLeft = 0 → decode s.cmd = some i → step s = exec i s) ∧
  (∀ s : State, s.status.busy = true → s.stepsLeft = 0 → decode s.cmd = none → step s = execIllegal s.cmd s) ∧
  (∀ (s : State) (n : Nat), s.status.busy = true → s.stepsLeft = n + 1 → step s = hostStep { s with stepsLeft := n }) ∧
  (∀ s : State, s.status.busy = false → step s = hostStep s) ∧
  (∀ (s : State) (i : Instr), i.wellFormed = true →
    step (s.withFetchWord 32 (encode i).toNat) = exec i (s.withFetchWord 32 (encode i).toNat))

/-- R54, R33: a host write of CMD while BUSY = 0 is the accept step, and nothing else changes. That contents which
become unspecified are the free values of the accept step's draw, planes and bpp free in all 32 bits, is the model's choice
(log 7, 8). -/
def Obligations.AcceptStep : Prop :=
  ∀ (s : State) (v : Word), s.status.busy = false → ∃ t : State,
    hostAccess (.writeReg 32 0x000 v) s = .next t ∧ t.reg .cmd = v ∧
    t.status = { busy := true, done := false, err := false, wdrop := false, kind := 0, reason := 0,
                 infoV := if touchesInfo (decode v) then false else s.status.infoV } ∧
    t.errField = 0 ∧ t.errValue = 0 ∧ t.errIndex = 0 ∧
    (if touchesInfo (decode v) then ∀ f, t.reg (.info f) = Config.freeInfo s.draws (infoOffset f) else t.info = s.info) ∧
    (if touchesOut (decode v) then t.outLen = 0 ∧ ∀ a, t.outmem.byte .outmem a = Config.freeByte .outmem s.draws a
      else t.outLen = s.outLen ∧ t.outmem = s.outmem) ∧
    (if touchesToc (decode v) then t.tocCount = 0 ∧ ∀ a, t.tocram.byte .tocram a = Config.freeByte .tocram s.draws a
      else t.tocCount = s.tocCount ∧ t.tocram = s.tocram) ∧
    t.params = s.params ∧ t.transp = s.transp ∧ t.nsrc = s.nsrc ∧ t.inBase = s.inBase ∧ t.inLen = s.inLen ∧
    t.inmem = s.inmem ∧ t.srcdesc = s.srcdesc ∧ t.host = s.host ∧ t.reads = s.reads

/-- R50: across a command, from the state `s` in which its word was accepted to the state `t` after its completion
step, every result group outside its write set and every input keeps its value. -/
def Obligations.WriteSetFrame : Prop :=
  ∀ (s t : State) (v : Word), completionStep (s.accept v) = .next t →
    t.cmd = v ∧ t.params = s.params ∧ t.transp = s.transp ∧ t.nsrc = s.nsrc ∧ t.inBase = s.inBase ∧ t.inLen = s.inLen ∧
    (∀ a, t.inmem.byte .inmem a = s.inmem.byte .inmem a) ∧
    (∀ a, t.srcdesc.byte .srcdesc a = s.srcdesc.byte .srcdesc a) ∧
    (touchesInfo (decode v) = false → t.info = s.info ∧ t.status.infoV = s.status.infoV) ∧
    (touchesOut (decode v) = false → t.outLen = s.outLen ∧ ∀ a, t.outmem.byte .outmem a = s.outmem.byte .outmem a) ∧
    (touchesToc (decode v) = false → t.tocCount = s.tocCount ∧ ∀ a, t.tocram.byte .tocram a = s.tocram.byte .tocram a)

/-- 20_memory.md R91: whatever the outcome, a completion step changes OUTMEM only below the OUT_LEN it reports, which is
at most OUT_CAP, TOCRAM only in records below the TOC_COUNT it reports, which is at most TOC_MAX, and never INMEM or
SRCDESC. The bounds are assumed of the state before, since a command keeps an OUT_LEN or TOC_COUNT outside its write set;
the invariant of `StepKeepsTheInvariant` states them of every state a run reaches. -/
def Obligations.StoresStayBelowTheReportedLength : Prop :=
  ∀ (i : Instr) (s t : State), s.params.Valid → exec i s = .next t →
    s.outLen.toNat ≤ s.params.outCap → s.tocCount.toNat ≤ s.params.tocMax →
    t.outLen.toNat ≤ s.params.outCap ∧ t.tocCount.toNat ≤ s.params.tocMax ∧
    (∀ a, t.outLen.toNat ≤ a → t.outmem.byte .outmem a = s.outmem.byte .outmem a) ∧
    (∀ a, 64 * t.tocCount.toNat ≤ a → t.tocram.byte .tocram a = s.tocram.byte .tocram a) ∧
    (∀ a, t.inmem.byte .inmem a = s.inmem.byte .inmem a) ∧
    (∀ a, t.srcdesc.byte .srcdesc a = s.srcdesc.byte .srcdesc a)

/-- 60_exceptions.md R310, R311: a command that ends in an error after its accept step writes the report and leaves
everything else as the accept step left it: its write-set groups invalid, with unspecified contents. That these are
the free values of the accept step's draw, still the same after the command, is the model's choice (log 7, 8). -/
def Obligations.ErrorEntry : Prop :=
  ∀ (s t : State) (v : Word), completionStep (s.accept v) = .next t → t.status.err = true →
    ∃ e : CmdError,
      t = { s.accept v with
        status := { (s.accept v).status with
          busy := false, done := true, err := true, kind := e.kind.code, reason := e.reason.code }
        errField := e.field.code
        errValue := BitVec.ofNat 32 (min e.value 4294967295)
        errIndex := BitVec.ofNat 32 e.index } ∧
      (touchesInfo (decode v) = true → t.status.infoV = false ∧
        ∀ f, t.reg (.info f) = Config.freeInfo s.draws (infoOffset f)) ∧
      (touchesOut (decode v) = true → t.outLen = 0 ∧ ∀ a, t.outmem.byte .outmem a = Config.freeByte .outmem s.draws a) ∧
      (touchesToc (decode v) = true → t.tocCount = 0 ∧ ∀ a, t.tocram.byte .tocram a = Config.freeByte .tocram s.draws a)

/-- R301 to R303: the codes of kinds, reasons and fields. -/
def Obligations.ErrorCodes : Prop :=
  [ErrKind.usageError, .fileOpenFailure, .allocationFailure, .readShort, .verifyFailure, .fieldMismatch,
    .illegalCommand].map ErrKind.code = [1, 2, 3, 4, 5, 6, 7] ∧
  [ErrReason.invalidHeader, .unsupportedBpp, .unsupportedDimensions, .unsupportedCompression, .invalidPalette,
    .invalidIcoFile].map ErrReason.code = [1, 2, 3, 4, 5, 6] ∧
  [ErrField.hdrSz, .width, .height, .bpp, .compression, .palSz, .icoReserved, .icoType, .icoCount, .entryBpp, .entryPalSz,
    .entryWidth, .cmdWord, .nsrc, .cmdIdx, .bufferLen, .outCap].map ErrField.code =
    [1, 2, 3, 4, 5, 6, 7, 8, 9, 10, 11, 12, 13, 14, 15, 16, 17]

/-- R301, R302, R307: a command that ends in an error reports one of the core's kinds, never FileOpenFailure, and a
nonzero reason exactly with VerifyFailure. -/
def Obligations.CoreNeverReportsFileOpenFailure : Prop :=
  ∀ (s t : State) (v : Word), completionStep (s.accept v) = .next t → t.status.err = true →
    (t.status.kind = 1 ∨ t.status.kind = 3 ∨ t.status.kind = 4 ∨ t.status.kind = 5 ∨ t.status.kind = 6 ∨
      t.status.kind = 7) ∧
    (t.status.kind = 5 ↔ t.status.reason ≠ 0) ∧ t.status.reason.toNat ≤ 6 ∧
    1 ≤ t.errField.toNat ∧ t.errField.toNat ≤ 17

/-- 10_state.md R35, R55, 70_reset_and_hazards.md R365: a running command with `n` internal steps left, whose host makes
only accesses that have a meaning and does not reset the block, is complete after `n + 1` steps. That internal steps are
counted by a number in the state is the model's choice (log 2). -/
def Obligations.RunningCommandCompletes : Prop :=
  ∀ (n : Nat) (s : State), s.status.busy = true → s.stepsLeft = n → s.hostValid → HostOp.reset ∉ s.host →
    ∃ t, Host.Core.run Sys2Proof.core (n + 1) s = .next t ∧ t.status.busy = false ∧ t.status.done = true

/-- R55, R361: whatever accesses of the host land while a command runs, short of a reset, its outcome is that of its
rule on the state as the accept step left it. Only WDROP, the host's list, what it read and the model's own counters may
differ; the host's list and its place among the internal steps are the model's choices (log 3, 4). -/
def Obligations.HostAccessesNeverChangeARunningCommand : Prop :=
  ∀ (n : Nat) (s t u : State), s.status.busy = true → s.stepsLeft = n → HostOp.reset ∉ s.host →
    Host.Core.run Sys2Proof.core (n + 1) s = .next t → completionStep s = .next u → SameBlock t u

/-- R59: the outcome of a command depends only on its word, TRANSP, NSRC, IN_BASE, IN_LEN, INMEM, SRCDESC and the
parameters: the error report, or else each result of its write set. -/
def Obligations.ResultsDependOnlyOnTheInputs : Prop :=
  ∀ (i : Instr) (s u s' u' : State), SameInputs s u → s.status.err = false → u.status.err = false →
    exec i s = .next s' → exec i u = .next u' →
    s'.status.err = u'.status.err ∧
    (s'.status.err = true → s'.status.kind = u'.status.kind ∧ s'.status.reason = u'.status.reason ∧
      s'.errField = u'.errField ∧ s'.errValue = u'.errValue ∧ s'.errIndex = u'.errIndex) ∧
    (s'.status.err = false →
      (touchesInfo (some i) = true → s'.info = u'.info ∧ s'.status.infoV = true ∧ u'.status.infoV = true) ∧
      (touchesOut (some i) = true → s'.outLen = u'.outLen ∧
        ∀ a < s'.outLen.toNat, s'.outmem.byte .outmem a = u'.outmem.byte .outmem a) ∧
      (touchesToc (some i) = true → s'.tocCount = u'.tocCount ∧
        ∀ a < 64 * s'.tocCount.toNat, s'.tocram.byte .tocram a = u'.tocram.byte .tocram a))

/-- R35: only a host write of CMD while BUSY = 0 starts a command; the word is then in CMD. The host's list of accesses is
the model's choice (log 3). -/
def Obligations.OnlyACommandWriteSetsBusy : Prop :=
  ∀ s t : State, step s = .next t → s.status.busy = false → t.status.busy = true →
    ∃ v rest, s.host = .writeReg 32 0x000 v :: rest ∧ t.cmd = v ∧ t.host = rest

/-- 20_memory.md R91, 10_state.md R39: no step of a running command, whatever the host does in it, changes INMEM, SRCDESC
or the parameters; and unless the host resets the block it changes no input register and not the command. -/
def Obligations.InputsAreFrozenWhileBusy : Prop :=
  ∀ s t : State, step s = .next t → s.status.busy = true →
    t.inmem = s.inmem ∧ t.srcdesc = s.srcdesc ∧ t.params = s.params ∧
    (s.host.head? ≠ some .reset →
      t.transp = s.transp ∧ t.nsrc = s.nsrc ∧ t.inBase = s.inBase ∧ t.inLen = s.inLen ∧ t.cmd = s.cmd)

/-! ## Invariants -/

/-- The invariant holds after reset, for every choice of the parameters that meets R7. -/
def Obligations.ResetMeetsTheInvariant : Prop := ∀ p : Params, p.Valid → Inv (State.resetWith p)

/-- The invariant is kept by every step, of the core or of the host, from every state that meets it. -/
def Obligations.StepKeepsTheInvariant : Prop := ∀ s t : State, Inv s → step s = .next t → Inv t

/-- 60_exceptions.md R317, 93_implementation_defined.md section 2: a host whose accesses all have a meaning never faults
and no command ever stops the block: every step has a next state, and that state's host is of the same kind. That an offset
past the register space has no meaning, and that a faulting access stops the model, are the model's choices (log 11, 16). -/
def Obligations.ValidHostNeverFaults : Prop :=
  ∀ s : State, s.hostValid → ∃ t, step s = .next t ∧ t.hostValid

/-! ## Reset -/

/-- 10_state.md R57, 70_reset_and_hazards.md R342: what a power-on reset leaves, for every choice of the parameters: the
reset value of every register, an idle block, and memories of which every byte is a free value (log 6). -/
def Obligations.PowerOnReset : Prop :=
  ∀ p : Params,
    (∀ r, (State.resetWith p).reg r = if r = .id then 0x49430701#32 else 0) ∧
    (State.resetWith p).status =
      { busy := false, done := false, err := false, infoV := false, wdrop := false, kind := 0, reason := 0 } ∧
    (State.resetWith p).stepsLeft = 0 ∧ (State.resetWith p).params = p ∧
    (∀ sp, ∃ d, ∀ a, ((State.resetWith p).mem sp).byte sp a = Config.freeByte sp d a)

/-- R340, R341, R342: the reset input takes every register and the hidden command state to its reset value in one step,
from every state, and changes no byte of a memory; a running command gets no completion step. That the old contents of
OUTMEM and TOCRAM stay definite is the model's reading of R342 (log 15). -/
def Obligations.ResetInput : Prop :=
  ∀ s : State, ∃ t, hostAccess .reset s = .next t ∧
    (∀ r, t.reg r = if r = .id then 0x49430701#32 else 0) ∧
    t.status = { busy := false, done := false, err := false, infoV := false, wdrop := false, kind := 0, reason := 0 } ∧
    t.stepsLeft = 0 ∧ t.params = s.params ∧ (∀ sp a, (t.mem sp).byte sp a = (s.mem sp).byte sp a) ∧
    step t = hostStep t

/-! ## Registers and host accesses -/

/-- R34: the bits of the word read at STATUS. -/
def Obligations.StatusWordBits : Prop :=
  ∀ s : State,
    (s.reg .status).getLsbD 0 = s.status.busy ∧ (s.reg .status).getLsbD 1 = s.status.done ∧
    (s.reg .status).getLsbD 2 = s.status.err ∧ (s.reg .status).getLsbD 3 = s.status.infoV ∧
    (s.reg .status).getLsbD 4 = s.status.wdrop ∧ (s.reg .status).extractLsb' 5 3 = 0#3 ∧
    (s.reg .status).extractLsb' 8 4 = s.status.kind ∧ (s.reg .status).extractLsb' 12 4 = 0#4 ∧
    (s.reg .status).extractLsb' 16 8 = s.status.reason ∧ (s.reg .status).extractLsb' 24 8 = 0#8

/-- R39: a host write to any register, or to any byte of INMEM or SRCDESC, while BUSY = 1 sets WDROP and has no other
effect; the next accept step clears WDROP, and it is 0 after reset. -/
def Obligations.WritesWhileBusyAreDropped : Prop :=
  (∀ (s : State) (offset : Nat) (v : Word), s.status.busy = true → offset % 4 = 0 → offset < 4096 →
    hostAccess (.writeReg 32 offset v) s = .next { s with status := { s.status with wdrop := true } }) ∧
  (∀ (s : State) (sp : Space) (a : Nat) (b : Byte), s.status.busy = true → sp = .inmem ∨ sp = .srcdesc →
    a < memSize s.params sp →
    hostAccess (.writeByte sp a b) s = .next { s with status := { s.status with wdrop := true } }) ∧
  (∀ (s : State) (v : Word), s.status.busy = false →
    ∃ t, hostAccess (.writeReg 32 0x000 v) s = .next t ∧ t.status.wdrop = false) ∧
  (∀ p : Params, (State.resetWith p).status.wdrop = false)

/-- R32, R51: every register is read at its offset of the register map, and an idle block answers its stored value. -/
def Obligations.RegisterMapReads : Prop :=
  ∀ s : State, s.status.busy = false →
    hostAccess (.readReg 32 0x000) s = .next { s with reads := s.cmd :: s.reads } ∧
    hostAccess (.readReg 32 0x004) s = .next { s with reads := s.status.word :: s.reads } ∧
    hostAccess (.readReg 32 0x008) s = .next { s with reads := s.errField :: s.reads } ∧
    hostAccess (.readReg 32 0x00C) s = .next { s with reads := s.errValue :: s.reads } ∧
    hostAccess (.readReg 32 0x010) s = .next { s with reads := s.errIndex :: s.reads } ∧
    hostAccess (.readReg 32 0x014) s = .next { s with reads := s.transp.setWidth 32 :: s.reads } ∧
    hostAccess (.readReg 32 0x018) s = .next { s with reads := s.nsrc :: s.reads } ∧
    hostAccess (.readReg 32 0x01C) s = .next { s with reads := s.inBase :: s.reads } ∧
    hostAccess (.readReg 32 0x020) s = .next { s with reads := s.inLen :: s.reads } ∧
    hostAccess (.readReg 32 0x024) s = .next { s with reads := s.outLen :: s.reads } ∧
    hostAccess (.readReg 32 0x028) s = .next { s with reads := s.tocCount :: s.reads } ∧
    (∀ bi, s.info = .held bi →
      hostAccess (.readReg 32 0x030) s = .next { s with reads := bi.headerSz :: s.reads } ∧
      hostAccess (.readReg 32 0x034) s = .next { s with reads := bi.width :: s.reads } ∧
      hostAccess (.readReg 32 0x038) s = .next { s with reads := bi.height :: s.reads } ∧
      hostAccess (.readReg 32 0x03C) s = .next { s with reads := bi.planes.setWidth 32 :: s.reads } ∧
      hostAccess (.readReg 32 0x040) s = .next { s with reads := bi.bpp.setWidth 32 :: s.reads } ∧
      hostAccess (.readReg 32 0x044) s = .next { s with reads := bi.compression :: s.reads } ∧
      hostAccess (.readReg 32 0x048) s = .next { s with reads := bi.imageSize :: s.reads } ∧
      hostAccess (.readReg 32 0x04C) s = .next { s with reads := bi.xres :: s.reads } ∧
      hostAccess (.readReg 32 0x050) s = .next { s with reads := bi.yres :: s.reads } ∧
      hostAccess (.readReg 32 0x054) s = .next { s with reads := bi.palSz :: s.reads } ∧
      hostAccess (.readReg 32 0x058) s = .next { s with reads := bi.important :: s.reads })

/-- R45: ID reads 0x49430701 in every state, busy or idle, and a write to it never changes what it reads. -/
def Obligations.IdReadsItsConstant : Prop :=
  ∀ s : State, hostAccess (.readReg 32 0x02C) s = .next { s with reads := 0x49430701#32 :: s.reads } ∧
    (s.status.busy = false → ∀ v, hostAccess (.writeReg 32 0x02C v) s = .next s) ∧
    (∃ t, hostAccess .reset s = .next t ∧ t.reg .id = 0x49430701#32)

/-- R52: the reserved offsets read 0, ignore a write while BUSY = 0 and set WDROP on a write while BUSY = 1; reserved
bits inside a register read as 0 and ignore writes. -/
def Obligations.ReservedOffsetsAndBits : Prop :=
  (∀ (s : State) (offset : Nat), 0x05C ≤ offset → offset ≤ 0xFFC → offset % 4 = 0 →
    hostAccess (.readReg 32 offset) s = .next { s with reads := 0 :: s.reads } ∧
    (∀ v, s.status.busy = false → hostAccess (.writeReg 32 offset v) s = .next s) ∧
    (∀ v, s.status.busy = true →
      hostAccess (.writeReg 32 offset v) s = .next { s with status := { s.status with wdrop := true } })) ∧
  (∀ s : State, (s.reg .status).extractLsb' 5 3 = 0#3 ∧ (s.reg .status).extractLsb' 12 4 = 0#4 ∧
    (s.reg .status).extractLsb' 24 8 = 0#8 ∧ (s.reg .transp).extractLsb' 8 24 = 0#24) ∧
  (∀ (s : State) (v w : Word), s.status.busy = false → hostAccess (.writeReg 32 0x004 v) s = .next s ∧
    (v.extractLsb' 0 8 = w.extractLsb' 0 8 →
      hostAccess (.writeReg 32 0x014 v) s = hostAccess (.writeReg 32 0x014 w) s))

/-- 20_memory.md R102: while BUSY = 0 a read answers the stored value; a write to CMD stores its word; a write to TRANSP,
NSRC, IN_BASE, IN_LEN, INMEM or SRCDESC stores its value and changes nothing else; every other register, OUTMEM and TOCRAM
ignore the write. -/
def Obligations.IdleHostAccesses : Prop :=
  (∀ (s : State) (r : Reg), s.status.busy = false →
    hostAccess (.readReg 32 (regOffset r)) s = .next { s with reads := s.reg r :: s.reads }) ∧
  (∀ (s : State) (sp : Space) (a : Nat), s.status.busy = false → a < memSize s.params sp →
    hostAccess (.readByte sp a) s = .next { s with reads := ((s.mem sp).byte sp a).setWidth 32 :: s.reads }) ∧
  (∀ (s : State) (v : Word), s.status.busy = false →
    (∃ t, hostAccess (.writeReg 32 0x000 v) s = .next t ∧ t.reg .cmd = v) ∧
    hostAccess (.writeReg 32 0x014 v) s = .next { s with transp := v.extractLsb' 0 8 } ∧
    hostAccess (.writeReg 32 0x018 v) s = .next { s with nsrc := v } ∧
    hostAccess (.writeReg 32 0x01C v) s = .next { s with inBase := v } ∧
    hostAccess (.writeReg 32 0x020 v) s = .next { s with inLen := v } ∧
    (∀ r, r ≠ .cmd → r ≠ .transp → r ≠ .nsrc → r ≠ .inBase → r ≠ .inLen →
      hostAccess (.writeReg 32 (regOffset r) v) s = .next s)) ∧
  (∀ (s : State) (a : Nat) (b : Byte), s.status.busy = false → a < s.params.inmemSize →
    ∃ t, hostAccess (.writeByte .inmem a b) s = .next t ∧ t = { s with inmem := t.inmem } ∧
      t.inmem.byte .inmem a = b ∧ ∀ x, x ≠ a → t.inmem.byte .inmem x = s.inmem.byte .inmem x) ∧
  (∀ (s : State) (a : Nat) (b : Byte), s.status.busy = false → a < 8 * s.params.srcMax →
    ∃ t, hostAccess (.writeByte .srcdesc a b) s = .next t ∧ t = { s with srcdesc := t.srcdesc } ∧
      t.srcdesc.byte .srcdesc a = b ∧ ∀ x, x ≠ a → t.srcdesc.byte .srcdesc x = s.srcdesc.byte .srcdesc x) ∧
  (∀ (s : State) (a : Nat) (b : Byte), s.status.busy = false →
    (a < s.params.outCap → hostAccess (.writeByte .outmem a b) s = .next s) ∧
    (a < 64 * s.params.tocMax → hostAccess (.writeByte .tocram a b) s = .next s))

/-- R101: while BUSY = 1 a read of OUTMEM, TOCRAM or an INFO register answers a free value, a new one each time; a read
of any other register, or of INMEM or SRCDESC, answers the current value; no read changes the block. That every such read
draws a new free value is the model's choice (log 9). -/
def Obligations.ReadsWhileBusy : Prop :=
  ∀ s : State, s.status.busy = true →
    (∀ f, hostAccess (.readReg 32 (infoOffset f)) s =
      .next { s with reads := Config.freeRead s.draws :: s.reads, draws := s.draws + 1 }) ∧
    (∀ r, (∀ f, r ≠ .info f) →
      hostAccess (.readReg 32 (regOffset r)) s = .next { s with reads := s.reg r :: s.reads }) ∧
    (∀ sp a, sp = .outmem ∨ sp = .tocram → a < memSize s.params sp →
      hostAccess (.readByte sp a) s =
        .next { s with reads := ((Config.freeRead s.draws).setWidth 8).setWidth 32 :: s.reads, draws := s.draws + 1 }) ∧
    (∀ sp a, sp = .inmem ∨ sp = .srcdesc → a < memSize s.params sp →
      hostAccess (.readByte sp a) s = .next { s with reads := ((s.mem sp).byte sp a).setWidth 32 :: s.reads })

/-- R85: a register access that is not an aligned 32-bit word, and an access outside its space, is a host fault; every other
access has a next state. The fault at register offsets from 4096 on is the model's reading of R32 (log 11). -/
def Obligations.HostFaults : Prop :=
  (∀ (s : State) (width offset : Nat) (v : Word), width ≠ 32 ∨ offset % 4 ≠ 0 →
    hostAccess (.readReg width offset) s = .fault .hostRegisterNotAlignedWord ∧
    hostAccess (.writeReg width offset v) s = .fault .hostRegisterNotAlignedWord) ∧
  (∀ (s : State) (offset : Nat) (v : Word), offset % 4 = 0 → 4096 ≤ offset →
    hostAccess (.readReg 32 offset) s = .fault .hostRegisterOutsideSpace ∧
    hostAccess (.writeReg 32 offset v) s = .fault .hostRegisterOutsideSpace) ∧
  (∀ (s : State) (sp : Space) (a : Nat) (b : Byte), memSize s.params sp ≤ a →
    hostAccess (.readByte sp a) s = .fault .hostMemoryOutsideSpace ∧
    hostAccess (.writeByte sp a b) s = .fault .hostMemoryOutsideSpace) ∧
  (∀ (s : State) (offset : Nat) (v : Word), offset % 4 = 0 → offset < 4096 →
    (∃ t, hostAccess (.readReg 32 offset) s = .next t) ∧ ∃ t, hostAccess (.writeReg 32 offset v) s = .next t) ∧
  (∀ (s : State) (sp : Space) (a : Nat) (b : Byte), a < memSize s.params sp →
    (∃ t, hostAccess (.readByte sp a) s = .next t) ∧ ∃ t, hostAccess (.writeByte sp a b) s = .next t)

/-! ## The inputs of a command -/

/-- 20_memory.md R88: the source view, from the two little-endian words of descriptor `k`. -/
def Obligations.SourceView : Prop :=
  ∀ (s : State) (k base len : Nat),
    base = (s.srcdesc.byte .srcdesc (8 * k)).toNat + 256 * (s.srcdesc.byte .srcdesc (8 * k + 1)).toNat +
      65536 * (s.srcdesc.byte .srcdesc (8 * k + 2)).toNat + 16777216 * (s.srcdesc.byte .srcdesc (8 * k + 3)).toNat →
    len = (s.srcdesc.byte .srcdesc (8 * k + 4)).toNat + 256 * (s.srcdesc.byte .srcdesc (8 * k + 5)).toNat +
      65536 * (s.srcdesc.byte .srcdesc (8 * k + 6)).toNat + 16777216 * (s.srcdesc.byte .srcdesc (8 * k + 7)).toNat →
    (s.src k).len = (if base < s.params.inmemSize then min len (s.params.inmemSize - base) else 0) ∧
    ∀ i < (s.src k).len, base + i < s.params.inmemSize ∧ (s.src k).byte i = s.inmem.byte .inmem (base + i)

/-- R89: the ICO input view. -/
def Obligations.IcoInputView : Prop :=
  ∀ s : State,
    s.icoInput.len = (if s.inBase.toNat < s.params.inmemSize
      then min s.inLen.toNat (s.params.inmemSize - s.inBase.toNat) else 0) ∧
    ∀ i < s.icoInput.len, s.inBase.toNat + i < s.params.inmemSize ∧
      s.icoInput.byte i = s.inmem.byte .inmem (s.inBase.toNat + i)

/-! ## NOP and the illegal word -/

/-- 44_system.md R280: NOP has no effect but its completion; issued on an idle block it clears the error report and WDROP
and keeps every result and memory. -/
def Obligations.NopCompletes : Prop :=
  (∀ s : State, exec .nop s = .next { s with status := { s.status with busy := false, done := true } }) ∧
  (∀ s : State, s.status.busy = false → ∃ u t, hostAccess (.writeReg 32 0x000 0x00000000#32) s = .next u ∧
    completionStep u = .next t ∧
    t.status = { busy := false, done := true, err := false, infoV := s.status.infoV, wdrop := false, kind := 0, reason := 0 } ∧
    t.errField = 0 ∧ t.errValue = 0 ∧ t.errIndex = 0 ∧ t.info = s.info ∧ t.outLen = s.outLen ∧
    t.tocCount = s.tocCount ∧ t.inmem = s.inmem ∧ t.outmem = s.outmem ∧ t.srcdesc = s.srcdesc ∧ t.tocram = s.tocram)

/-- R281: an illegal word written to CMD of an idle block completes with IllegalCommand, changes no result, and is read
back at CMD. -/
def Obligations.IllegalWordCompletes : Prop :=
  ∀ (s : State) (v : Word), s.status.busy = false → decode v = none →
    ∃ u t, hostAccess (.writeReg 32 0x000 v) s = .next u ∧ completionStep u = .next t ∧
      t.status = { busy := false, done := true, err := true, infoV := s.status.infoV, wdrop := false, kind := 7, reason := 0 } ∧
      t.errField = 13 ∧ t.errValue = v ∧ t.errIndex = 0 ∧ t.reg .cmd = v ∧ t.info = s.info ∧ t.outLen = s.outLen ∧
      t.tocCount = s.tocCount ∧ t.inmem = s.inmem ∧ t.outmem = s.outmem ∧ t.srcdesc = s.srcdesc ∧ t.tocram = s.tocram

/-! ## VERIFY -/

/-- 40_verifier.md R180: a header that passes the enabled checks gives its fields to the INFO registers, sets INFO_V, and
changes nothing else. -/
def Obligations.VerifyCompletes : Prop :=
  ∀ (s : State) (k : Nat) (bpp dim : Bool), OperandsOk s k → HeaderPasses (s.src k) bpp dim →
    exec (.verify k bpp dim) s = .next { s with
      status := okStatus s.status true
      info := .held
        { headerSz := (s.src k).rd32 0, width := (s.src k).rd32 4, height := (s.src k).rd32 8,
          planes := (s.src k).rd16 12, bpp := (s.src k).rd16 14, compression := (s.src k).rd32 16,
          imageSize := (s.src k).rd32 20, xres := (s.src k).rd32 24, yres := (s.src k).rd32 28,
          palSz := (s.src k).rd32 32, important := (s.src k).rd32 36 } }

/-- R170, 60_exceptions.md R308: VERIFY reports the first failing check of the verifier, in the order of R170. -/
def Obligations.VerifyReportsTheFirstFailingCheck : Prop :=
  ∀ (s : State) (k : Nat) (bpp dim : Bool) (b : Bytes), OperandsOk s k → b = s.src k →
    (b.len < 40 → FailsWith (.verify k bpp dim) s ⟨.readShort, .none, .bufferLen, 40, k⟩) ∧
    (40 ≤ b.len → b.rd32 0 ≠ 40#32 →
      FailsWith (.verify k bpp dim) s ⟨.verifyFailure, .invalidHeader, .hdrSz, (b.rd32 0).toNat, k⟩) ∧
    (40 ≤ b.len → b.rd32 0 = 40#32 →
      (bpp = true → b.rd16 14 ≠ 8#16 →
        FailsWith (.verify k bpp dim) s ⟨.verifyFailure, .unsupportedBpp, .bpp, (b.rd16 14).toNat, k⟩) ∧
      ((bpp = true → b.rd16 14 = 8#16) →
        (dim = true → b.rd32 4 ≠ 16#32 → b.rd32 4 ≠ 32#32 →
          FailsWith (.verify k bpp dim) s ⟨.verifyFailure, .unsupportedDimensions, .width, (b.rd32 4).toNat, k⟩) ∧
        (dim = true → b.rd32 4 = 16#32 ∨ b.rd32 4 = 32#32 →
          ((b.rd32 8 ≠ 16#32 ∧ b.rd32 8 ≠ 32#32) ∨ b.rd32 8 ≠ b.rd32 4) →
          FailsWith (.verify k bpp dim) s ⟨.verifyFailure, .unsupportedDimensions, .height, (b.rd32 8).toNat, k⟩) ∧
        ((dim = true → (b.rd32 4 = 16#32 ∨ b.rd32 4 = 32#32) ∧ b.rd32 8 = b.rd32 4) →
          (b.rd32 16 ≠ 0#32 → FailsWith (.verify k bpp dim) s
            ⟨.verifyFailure, .unsupportedCompression, .compression, (b.rd32 16).toNat, k⟩) ∧
          (b.rd32 16 = 0#32 → b.rd32 32 = 0#32 → FailsWith (.verify k bpp dim) s
            ⟨.verifyFailure, .invalidPalette, .palSz, 0, k⟩))))

/-- R180, 42_mask_codec.md R235: VERIFY and ENCODE report NSRC above SRC_MAX first, then an index not below NSRC. -/
def Obligations.SourceCommandsCheckTheirOperands : Prop :=
  ∀ (s : State) (k : Nat) (i : Instr), (∃ bpp dim, i = .verify k bpp dim) ∨ i = .encode k →
    (s.params.srcMax < s.nsrc.toNat → FailsWith i s ⟨.usageError, .none, .nsrc, s.nsrc.toNat, 0⟩) ∧
    (s.nsrc.toNat ≤ s.params.srcMax → s.nsrc.toNat ≤ k → FailsWith i s ⟨.usageError, .none, .cmdIdx, k, k⟩)

/-- R171, R178: the verifier depends only on the flags, the index, whether 40 bytes are there, and those bytes: "The
verifier reads no byte past offset 39". -/
def Obligations.VerifierReadsOnlyTheHeader : Prop :=
  ∀ (b c : Bytes) (chkBpp chkDim : Bool) (idx : Nat), (b.len < 40 ↔ c.len < 40) →
    (40 ≤ b.len → ∀ j < 40, b.byte j = c.byte j) →
    verifyHeader b chkBpp chkDim idx = verifyHeader c chkBpp chkDim idx

/-! ## The mask codec -/

/-- 42_mask_codec.md R226: the lengths of the masks. -/
def Obligations.MaskLengths : Prop :=
  ∀ (px : Bytes) (w h : Nat) (t : Byte),
    (encodeMasks px w h t).1.length = (w / 2) * h ∧ (encodeMasks px w h t).2.length = 4 * h ∧
    (encodeMasks px 16 16 t).1.length = 128 ∧ (encodeMasks px 16 16 t).2.length = 64 ∧
    (encodeMasks px 32 32 t).1.length = 512 ∧ (encodeMasks px 32 32 t).2.length = 128

/-- R223: pixel `i`'s nibble is the high nibble of XOR byte `i/2` for even `i`, the low nibble for odd `i`. -/
def Obligations.XorPacking : Prop :=
  ∀ (px : Bytes) (w h : Nat) (t : Byte) (i : Nat), w = 16 ∨ w = 32 → i < w * h →
    ∃ b, (encodeMasks px w h t).1[i / 2]? = some b ∧
      nib (px.byte i) t = if i % 2 = 0 then b.extractLsb' 4 4 else b.extractLsb' 0 4

/-- R224, R225: the pixel at row `r`, column `c` is bit `7 - c % 8` of AND byte `4r + c/8`, and every byte of a row past
its `w/8` data bytes is 0. -/
def Obligations.AndPackingAndPadding : Prop :=
  ∀ (px : Bytes) (w h : Nat) (t : Byte) (r : Nat), w = 16 ∨ w = 32 → r < h →
    (∀ c < w, ∃ b, (encodeMasks px w h t).2[4 * r + c / 8]? = some b ∧
      b.getLsbD (7 - c % 8) = tbit (px.byte (r * w + c)) t) ∧
    (∀ b, w / 8 ≤ b → b < 4 → (encodeMasks px w h t).2[4 * r + b]? = some 0#8)

/-- R221, R227, R228: a pixel's AND bit is 1 exactly when it equals the transparent index, and its nibble is then 0; every
other pixel's nibble is the low 4 bits of its index. -/
def Obligations.TransparencyAndTruncation : Prop :=
  ∀ p t : Byte, (tbit p t = true ↔ p = t) ∧ (p = t → nib p t = 0#4) ∧ (p ≠ t → nib p t = p.extractLsb' 0 4)

/-- R229: the source's counter loops write the masks of R220. -/
def Obligations.LoopFormWritesTheSameMasks : Prop :=
  ∀ (px : Bytes) (w h : Nat) (t : Byte), w = 16 ∨ w = 32 → encodeMasksLoop px w h t = encodeMasks px w h t

/-- R230 to R232, 30_encoding.md R143: the decoded byte of pixel `i` has the pixel's nibble in bits [3:0], its AND bit in
bit 4 and 0 in bits [7:5]. -/
def Obligations.DecodedPixelByte : Prop :=
  ∀ (xor and : Bytes) (w h i : Nat), i < w * h →
    ∃ d, (decodeMasks xor and w h)[i]? = some d ∧
      d.extractLsb' 0 4 = (if i % 2 = 0 then (xor.byte (i / 2)).extractLsb' 4 4 else (xor.byte (i / 2)).extractLsb' 0 4) ∧
      d.getLsbD 4 = (and.byte (4 * (i / w) + i % w / 8)).getLsbD (7 - i % w % 8) ∧ d.extractLsb' 5 3 = 0#3

/-- R233: decoding the masks of an encoded picture gives, for every pixel, its nibble and its AND bit; a pixel of index 0 to
15 that is not transparent comes back exactly. -/
def Obligations.CodecRoundTrip : Prop :=
  ∀ (px : Bytes) (w h : Nat) (t : Byte) (i : Nat), w = 16 ∨ w = 32 → i < w * h →
    ∃ d, (decodeMasks (Bytes.ofList (encodeMasks px w h t).1) (Bytes.ofList (encodeMasks px w h t).2) w h)[i]? = some d ∧
      d.extractLsb' 0 4 = nib (px.byte i) t ∧ d.getLsbD 4 = tbit (px.byte i) t ∧
      ((px.byte i).toNat ≤ 15 → px.byte i ≠ t → d = px.byte i)

/-- R234: for w = 16 decoding reads no AND pad byte, whatever it holds. -/
def Obligations.DecodeSkipsThePadding : Prop :=
  ∀ (xor and and' : Bytes) (h : Nat),
    (∀ r < h, and.byte (4 * r) = and'.byte (4 * r) ∧ and.byte (4 * r + 1) = and'.byte (4 * r + 1)) →
    decodeMasks xor and 16 h = decodeMasks xor and' 16 h

/-! ## ENCODE -/

/-- R235: ENCODE of a ready source whose masks fit OUTMEM writes the XOR mask and then the AND mask from address 0 on,
OUT_LEN, the INFO registers and INFO_V, and nothing else. -/
def Obligations.EncodeCompletes : Prop :=
  ∀ (s : State) (k w h n : Nat) (px : Bytes) (out : List Byte), OperandsOk s k → SourceReady (s.src k) →
    w = widthOf (s.src k) → h = heightOf (s.src k) → n = (w / 2) * h + 4 * h → n ≤ s.params.outCap →
    px = pixels (s.src k) → out = (encodeMasks px w h s.transp).1 ++ (encodeMasks px w h s.transp).2 →
    ∃ t, exec (.encode k) s = .next t ∧
      t = { s with status := okStatus s.status true, info := .held (bmpInfoOf (s.src k)),
                   outLen := BitVec.ofNat 32 n, outmem := t.outmem } ∧
      out.length = n ∧ (∀ j, (hj : j < out.length) → t.outmem.byte .outmem j = out[j]) ∧
      ∀ a, n ≤ a → t.outmem.byte .outmem a = s.outmem.byte .outmem a

/-- R235: after the operand checks ENCODE reports, in order, the strict verifier's first failure as VERIFY with both
flags does, a buffer shorter than header, colour table and pixels, and masks longer than OUT_CAP. -/
def Obligations.EncodeErrorsInOrder : Prop :=
  ∀ (s : State) (k need n : Nat), s.status.err = false → OperandsOk s k →
    need = 40 + 4 * paletteOf (s.src k) + widthOf (s.src k) * heightOf (s.src k) →
    n = (widthOf (s.src k) / 2) * heightOf (s.src k) + 4 * heightOf (s.src k) →
    (∀ e, FailsWith (.verify k true true) s e → FailsWith (.encode k) s e) ∧
    (HeaderPasses (s.src k) true true → (s.src k).len < need →
      FailsWith (.encode k) s ⟨.readShort, .none, .bufferLen, need, k⟩) ∧
    (SourceReady (s.src k) → s.params.outCap < n → FailsWith (.encode k) s ⟨.allocationFailure, .none, .outCap, n, k⟩)

/-! ## ASSEMBLE -/

/-- 41_assembler.md R200, R202: with every source ready and the file fitting OUTMEM, ASSEMBLE writes the file image from
address 0 on, OUT_LEN, one record per source in TOCRAM, TOC_COUNT, and nothing else; each record holds its entry and its
embedded header exactly as they stand in OUTMEM. -/
def Obligations.AssembleCompletes : Prop :=
  ∀ (s : State) (n : Nat) (img recs : List Byte), n = s.nsrc.toNat → 1 ≤ n → n ≤ s.params.srcMax →
    n ≤ s.params.tocMax → (∀ k < n, SourceReady (s.src k)) → fileLength (infosOf (sources s)) ≤ s.params.outCap →
    img = asmImage s.transp (sources s) → recs = writtenRecords (infosOf (sources s)) →
    ∃ t, exec .assemble s = .next t ∧
      t = { s with status := okStatus s.status s.status.infoV,
                   outLen := BitVec.ofNat 32 (fileLength (infosOf (sources s))), outmem := t.outmem,
                   tocCount := BitVec.ofNat 32 n, tocram := t.tocram } ∧
      img.length = fileLength (infosOf (sources s)) ∧ recs.length = 64 * n ∧
      (∀ j, (hj : j < img.length) → t.outmem.byte .outmem j = img[j]) ∧
      (∀ a, img.length ≤ a → t.outmem.byte .outmem a = s.outmem.byte .outmem a) ∧
      (∀ j, (hj : j < recs.length) → t.tocram.byte .tocram j = recs[j]) ∧
      (∀ a, recs.length ≤ a → t.tocram.byte .tocram a = s.tocram.byte .tocram a) ∧
      ∀ k < n, (∀ j < 16, t.tocram.byte .tocram (64 * k + j) = t.outmem.byte .outmem (6 + 16 * k + j)) ∧
        ∀ j < 40, t.tocram.byte .tocram (64 * k + 16 + j) = t.outmem.byte .outmem (offAt (infosOf (sources s)) k + j)

/-- R201: ASSEMBLE raises the first check that fails: NSRC, NSRC against TOC_MAX, then for each source in increasing
order the strict verifier (as VERIFY with both flags reports it) and its buffer length, then the file length. -/
def Obligations.AssembleErrorsInOrder : Prop :=
  ∀ (s : State) (n : Nat), s.status.err = false → n = s.nsrc.toNat →
    (n = 0 ∨ s.params.srcMax < n → FailsWith .assemble s ⟨.usageError, .none, .nsrc, n, 0⟩) ∧
    (1 ≤ n → n ≤ s.params.srcMax → s.params.tocMax < n →
      FailsWith .assemble s ⟨.allocationFailure, .none, .nsrc, n, 0⟩) ∧
    (1 ≤ n → n ≤ s.params.srcMax → n ≤ s.params.tocMax →
      (∀ k < n, (∀ j < k, SourceReady (s.src j)) →
        (∀ e, FailsWith (.verify k true true) s e → FailsWith .assemble s e) ∧
        (HeaderPasses (s.src k) true true →
          (s.src k).len < 40 + 4 * paletteOf (s.src k) + widthOf (s.src k) * heightOf (s.src k) →
          FailsWith .assemble s
            ⟨.readShort, .none, .bufferLen, 40 + 4 * paletteOf (s.src k) + widthOf (s.src k) * heightOf (s.src k), k⟩)) ∧
      ((∀ k < n, SourceReady (s.src k)) → s.params.outCap < fileLength (infosOf (sources s)) →
        FailsWith .assemble s ⟨.allocationFailure, .none, .outCap, fileLength (infosOf (sources s)), 0⟩))

/-- R199: in a file image every entry's offset field points at its block, its size field is the
block's length, the blocks lie one after the other from the end of the TOC to the end of the file. -/
def Obligations.AssembledFileIsSelfConsistent : Prop :=
  ∀ (t : Byte) (cs : List Checked) (bis : List BmpInfo) (img : List Byte), bis = infosOf cs →
    fileLength bis ≤ 4294967295 → img = asmImage t cs →
    img.length = fileLength bis ∧ offAt bis 0 = 6 + 16 * cs.length ∧ offAt bis cs.length = img.length ∧
    ∀ k, (hk : k < cs.length) →
      ((Bytes.ofList img).rd32 (6 + 16 * k + 12)).toNat = offAt bis k ∧
      ((Bytes.ofList img).rd32 (6 + 16 * k + 8)).toNat = blockSize cs[k].bi ∧
      sliceList img (offAt bis k) (blockSize cs[k].bi) = blockBytes t cs[k].src cs[k].bi ∧
      offAt bis (k + 1) = offAt bis k + blockSize cs[k].bi

/-- R194 to R197, 30_encoding.md R136: the bytes of a file image, field by field: the file header, and for each source its
TOC entry, its embedded header, its colour table copied byte for byte, its XOR mask and its AND mask. -/
def Obligations.AssembledFileBytes : Prop :=
  ∀ (t : Byte) (cs : List Checked) (b : Bytes), AllReady cs → cs.length ≤ 65535 → b = Bytes.ofList (asmImage t cs) →
    b.len = fileLength (infosOf cs) ∧ b.rd16 0 = 0#16 ∧ b.rd16 2 = 1#16 ∧ (b.rd16 4).toNat = cs.length ∧
    ∀ k, (hk : k < cs.length) → ∀ (e o w h p : Nat) (src : Bytes), e = 6 + 16 * k → o = offAt (infosOf cs) k →
      src = cs[k].src → w = widthOf src → h = heightOf src → p = paletteOf src →
      b.byte e = BitVec.ofNat 8 w ∧ b.byte (e + 1) = BitVec.ofNat 8 h ∧ b.byte (e + 2) = BitVec.ofNat 8 p ∧
      b.byte (e + 3) = 0#8 ∧ b.rd16 (e + 4) = 1#16 ∧ b.rd16 (e + 6) = 4#16 ∧
      b.rd32 (e + 8) = BitVec.ofNat 32 (40 + 4 * p + (w / 2) * h + 4 * h) ∧ b.rd32 (e + 12) = BitVec.ofNat 32 o ∧
      b.rd32 o = 40#32 ∧ b.rd32 (o + 4) = src.rd32 4 ∧ b.rd32 (o + 8) = BitVec.ofNat 32 (2 * h) ∧
      b.rd16 (o + 12) = 1#16 ∧ b.rd16 (o + 14) = 4#16 ∧ b.rd32 (o + 16) = 0#32 ∧
      b.rd32 (o + 20) = BitVec.ofNat 32 ((w / 2) * h + 4 * h) ∧ b.rd32 (o + 24) = 0#32 ∧ b.rd32 (o + 28) = 0#32 ∧
      b.rd32 (o + 32) = src.rd32 32 ∧ b.rd32 (o + 36) = 0#32 ∧
      (∀ j < 4 * p, b.byte (o + 40 + j) = src.byte (40 + j)) ∧
      (∀ j, (hj : j < (encodeMasks (pixels src) w h t).1.length) →
        b.byte (o + 40 + 4 * p + j) = (encodeMasks (pixels src) w h t).1[j]) ∧
      ∀ j, (hj : j < (encodeMasks (pixels src) w h t).2.length) →
        b.byte (o + 40 + 4 * p + (w / 2) * h + j) = (encodeMasks (pixels src) w h t).2[j]

/-- R198: the source's seekable writer, which patches offsets and the count into placeholders, writes the same file
whatever the placeholder count is. -/
def Obligations.BackpatchingWritesTheSameFile : Prop :=
  ∀ (t : Byte) (placeholder : Nat) (cs : List Checked), seekableImage t placeholder cs = asmImage t cs

/-- 43_reader.md R268, 41_assembler.md R196, R197: an input that begins with a file assembled from ready sources whose
palette sizes fit a byte parses, and every entry and embedded header reads back what the writer put there. -/
def Obligations.AssembledFileParses : Prop :=
  ∀ (t : Byte) (cs : List Checked) (tocMax : Nat) (b : Bytes), AllReady cs → (∀ c ∈ cs, c.bi.palSz.toNat ≤ 255) →
    cs.length ≤ tocMax → tocMax ≤ 65535 → fileLength (infosOf cs) ≤ 4294967295 → Holds b (asmImage t cs) →
    ∃ es, parseIco tocMax b = .ok es ∧ es.length = cs.length ∧
      ∀ k, (hk : k < cs.length) → es[k]? = some
        ({ w := BitVec.ofNat 8 cs[k].bi.width.toNat, h := BitVec.ofNat 8 cs[k].bi.height.toNat,
           palSz := BitVec.ofNat 8 cs[k].bi.palSz.toNat, reserved := 0, planes := 1, bpp := 4,
           size := BitVec.ofNat 32 (blockSize cs[k].bi), offset := BitVec.ofNat 32 (offAt (infosOf cs) k) },
         { headerSz := 40, width := cs[k].bi.width, height := BitVec.ofNat 32 (2 * cs[k].bi.height.toNat), planes := 1,
           bpp := 4, compression := 0,
           imageSize := BitVec.ofNat 32 ((cs[k].bi.width.toNat / 2) * cs[k].bi.height.toNat + 4 * cs[k].bi.height.toNat),
           xres := 0, yres := 0, palSz := cs[k].bi.palSz, important := 0 })

/-- 41_assembler.md R197, 42_mask_codec.md R233, 43_reader.md R264: DECODE of entry `k` of such a file answers, for every
pixel of source `k`, its nibble and its transparency bit. -/
def Obligations.AssembleThenDecodeRecoversEveryPixel : Prop :=
  ∀ (t : Byte) (cs : List Checked) (s : State) (k : Nat) (hk : k < cs.length), s.params.Valid → AllReady cs →
    (∀ c ∈ cs, c.bi.palSz.toNat ≤ 255) → cs.length ≤ s.params.tocMax → fileLength (infosOf cs) ≤ 4294967295 →
    Holds s.icoInput (asmImage t cs) → widthOf cs[k].src * heightOf cs[k].src ≤ s.params.outCap →
    ∃ u, exec (.decode k) s = .next u ∧ u.outLen.toNat = widthOf cs[k].src * heightOf cs[k].src ∧
      u.tocCount.toNat = cs.length ∧
      ∀ i < widthOf cs[k].src * heightOf cs[k].src,
        (u.outmem.byte .outmem i).extractLsb' 0 4 = nib ((pixels cs[k].src).byte i) t ∧
        (u.outmem.byte .outmem i).getLsbD 4 = tbit ((pixels cs[k].src).byte i) t

/-! ## PARSE and DECODE -/

/-- 43_reader.md R262, R263: an input whose header and entries all pass gives one TOCRAM record per entry and TOC_COUNT,
and changes nothing else. -/
def Obligations.ParseCompletes : Prop :=
  ∀ (s : State) (b : Bytes) (recs : List Byte), b = s.icoInput → IcoHeaderPasses s.params.tocMax b →
    (∀ k < countField b, EntryPasses b k) → recs = inputRecords b →
    ∃ t, exec .parse s = .next t ∧
      t = { s with status := okStatus s.status s.status.infoV, tocCount := BitVec.ofNat 32 (countField b),
                   tocram := t.tocram } ∧
      recs.length = 64 * countField b ∧ (∀ j, (hj : j < recs.length) → t.tocram.byte .tocram j = recs[j]) ∧
      ∀ a, recs.length ≤ a → t.tocram.byte .tocram a = s.tocram.byte .tocram a

/-- R250, 60_exceptions.md R308: PARSE and DECODE report the first failing check of the reader, in the order of R250: the
file header, then the entries in increasing order, each with its header length, the relaxed verifier, bpp and palette. -/
def Obligations.ReaderReportsTheFirstFailingCheck : Prop :=
  ∀ (s : State) (b : Bytes) (i : Instr), b = s.icoInput → i = .parse ∨ (∃ k, i = .decode k) →
    (b.len < 6 → FailsWith i s ⟨.readShort, .none, .bufferLen, 6, 0⟩) ∧
    (6 ≤ b.len → b.rd16 0 ≠ 0#16 →
      FailsWith i s ⟨.verifyFailure, .invalidIcoFile, .icoReserved, (b.rd16 0).toNat, 0⟩) ∧
    (6 ≤ b.len → b.rd16 0 = 0#16 → b.rd16 2 ≠ 1#16 →
      FailsWith i s ⟨.verifyFailure, .invalidIcoFile, .icoType, (b.rd16 2).toNat, 0⟩) ∧
    (6 ≤ b.len → b.rd16 0 = 0#16 → b.rd16 2 = 1#16 → s.params.tocMax < countField b →
      FailsWith i s ⟨.allocationFailure, .none, .icoCount, countField b, 0⟩) ∧
    (6 ≤ b.len → b.rd16 0 = 0#16 → b.rd16 2 = 1#16 → countField b ≤ s.params.tocMax → b.len < 6 + 16 * countField b →
      FailsWith i s ⟨.readShort, .none, .bufferLen, 6 + 16 * countField b, 0⟩) ∧
    (IcoHeaderPasses s.params.tocMax b → ∀ k < countField b, (∀ j < k, EntryPasses b j) →
      ∀ (o : Nat) (c : Bytes), o = offsetField b k → c = b.slice o 40 →
      (b.len < o + 40 → FailsWith i s ⟨.readShort, .none, .bufferLen, o + 40, k⟩) ∧
      (o + 40 ≤ b.len →
        (c.rd32 0 ≠ 40#32 → FailsWith i s ⟨.verifyFailure, .invalidHeader, .hdrSz, (c.rd32 0).toNat, k⟩) ∧
        (c.rd32 0 = 40#32 → c.rd32 16 ≠ 0#32 →
          FailsWith i s ⟨.verifyFailure, .unsupportedCompression, .compression, (c.rd32 16).toNat, k⟩) ∧
        (c.rd32 0 = 40#32 → c.rd32 16 = 0#32 → c.rd32 32 = 0#32 →
          FailsWith i s ⟨.verifyFailure, .invalidPalette, .palSz, 0, k⟩) ∧
        (HeaderPasses c false false →
          (b.rd16 (6 + 16 * k + 6) ≠ c.rd16 14 →
            FailsWith i s ⟨.fieldMismatch, .none, .entryBpp, (b.rd16 (6 + 16 * k + 6)).toNat, k⟩) ∧
          (b.rd16 (6 + 16 * k + 6) = c.rd16 14 → (b.byte (6 + 16 * k + 2)).toNat ≠ (c.rd32 32).toNat →
            FailsWith i s ⟨.fieldMismatch, .none, .entryPalSz, (b.byte (6 + 16 * k + 2)).toNat, k⟩))))

/-- R261: the reader makes no other check: an input with the same length, the same file header and, in every entry, the
same palette, bpp and offset fields and the same header size, bpp, compression and palette size in its embedded header,
passes or fails exactly alike, whatever its other bytes are. -/
def Obligations.ReaderMakesNoOtherCheck : Prop :=
  ∀ (b c : Bytes) (tocMax : Nat), b.len = c.len → (∀ j < 6, b.byte j = c.byte j) →
    (∀ k < countField b, b.byte (6 + 16 * k + 2) = c.byte (6 + 16 * k + 2) ∧
      b.rd16 (6 + 16 * k + 6) = c.rd16 (6 + 16 * k + 6) ∧ b.rd32 (6 + 16 * k + 12) = c.rd32 (6 + 16 * k + 12) ∧
      b.rd32 (offsetField b k) = c.rd32 (offsetField b k) ∧ b.rd16 (offsetField b k + 14) = c.rd16 (offsetField b k + 14) ∧
      b.rd32 (offsetField b k + 16) = c.rd32 (offsetField b k + 16) ∧
      b.rd32 (offsetField b k + 32) = c.rd32 (offsetField b k + 32)) →
    match parseIco tocMax b, parseIco tocMax c with
    | .ok es, .ok fs => es.length = fs.length
    | .error e, .error f => e = f
    | _, _ => False

/-- R264 to R267: with the whole file passing, entry `k` present, its bpp 4, its width 16 or 32, its masks inside the input
and the pixels fitting OUTMEM, DECODE writes the decoded pixel bytes from address 0 on, OUT_LEN, the records as PARSE
does, TOC_COUNT, and nothing else. -/
def Obligations.DecodeCompletes : Prop :=
  ∀ (s : State) (b : Bytes) (k w h xb : Nat) (d recs : List Byte), b = s.icoInput →
    IcoHeaderPasses s.params.tocMax b → (∀ j < countField b, EntryPasses b j) → k < countField b →
    b.rd16 (6 + 16 * k + 6) = 4#16 → w = dim8 (b.byte (6 + 16 * k)) → h = dim8 (b.byte (6 + 16 * k + 1)) →
    w = 16 ∨ w = 32 → xb = offsetField b k + 40 + 4 * (b.rd32 (offsetField b k + 32)).toNat →
    xb + (w / 2) * h + 4 * h ≤ b.len → w * h ≤ s.params.outCap →
    d = decodeMasks (b.slice xb ((w / 2) * h)) (b.slice (xb + (w / 2) * h) (4 * h)) w h → recs = inputRecords b →
    ∃ t, exec (.decode k) s = .next t ∧
      t = { s with status := okStatus s.status s.status.infoV, outLen := BitVec.ofNat 32 (w * h), outmem := t.outmem,
                   tocCount := BitVec.ofNat 32 (countField b), tocram := t.tocram } ∧
      d.length = w * h ∧ recs.length = 64 * countField b ∧
      (∀ j, (hj : j < d.length) → t.outmem.byte .outmem j = d[j]) ∧
      (∀ a, d.length ≤ a → t.outmem.byte .outmem a = s.outmem.byte .outmem a) ∧
      (∀ j, (hj : j < recs.length) → t.tocram.byte .tocram j = recs[j]) ∧
      ∀ a, recs.length ≤ a → t.tocram.byte .tocram a = s.tocram.byte .tocram a

/-- R264, R265: with the whole file passing, DECODE reports in order an index at or past the count, an entry bpp other
than 4, a decoded width other than 16 and 32, masks past the end of the input, and pixels past OUT_CAP. -/
def Obligations.DecodeErrorsInOrder : Prop :=
  ∀ (s : State) (b : Bytes) (k w h fin : Nat), b = s.icoInput → IcoHeaderPasses s.params.tocMax b →
    (∀ j < countField b, EntryPasses b j) → w = dim8 (b.byte (6 + 16 * k)) → h = dim8 (b.byte (6 + 16 * k + 1)) →
    fin = offsetField b k + 40 + 4 * (b.rd32 (offsetField b k + 32)).toNat + (w / 2) * h + 4 * h →
    (countField b ≤ k → FailsWith (.decode k) s ⟨.usageError, .none, .cmdIdx, k, k⟩) ∧
    (k < countField b →
      (b.rd16 (6 + 16 * k + 6) ≠ 4#16 → FailsWith (.decode k) s
        ⟨.verifyFailure, .unsupportedBpp, .entryBpp, (b.rd16 (6 + 16 * k + 6)).toNat, k⟩) ∧
      (b.rd16 (6 + 16 * k + 6) = 4#16 →
        (w ≠ 16 → w ≠ 32 → FailsWith (.decode k) s ⟨.verifyFailure, .unsupportedDimensions, .entryWidth, w, k⟩) ∧
        (w = 16 ∨ w = 32 →
          (b.len < fin → FailsWith (.decode k) s ⟨.readShort, .none, .bufferLen, fin, k⟩) ∧
          (fin ≤ b.len → s.params.outCap < w * h →
            FailsWith (.decode k) s ⟨.allocationFailure, .none, .outCap, w * h, k⟩))))
end

