-- ==== Sys2Proof/Laws/Operands.lean ====
section
/-! SUPPORT. The laws of byte strings: lengths, slices, little-endian integers written and read back. -/

namespace Sys2Proof.Machine

/-! ## Byte strings -/

@[simp] theorem slice_len (b : Bytes) (o n : Nat) : (b.slice o n).len = n := rfl

@[simp] theorem slice_byte (b : Bytes) (o n i : Nat) : (b.slice o n).byte i = b.byte (o + i) := rfl

@[simp] theorem slice_rd16 (b : Bytes) (o n i : Nat) : (b.slice o n).rd16 i = b.rd16 (o + i) := rfl

@[simp] theorem slice_rd32 (b : Bytes) (o n i : Nat) : (b.slice o n).rd32 i = b.rd32 (o + i) := rfl

@[simp] theorem ofList_len (l : List Byte) : (Bytes.ofList l).len = l.length := rfl

@[simp] theorem ofList_byte (l : List Byte) (i : Nat) : (Bytes.ofList l).byte i = l.getD i 0 := rfl

@[simp] theorem toList_length (b : Bytes) : b.toList.length = b.len := by simp [Bytes.toList]

@[simp] theorem toList_getElem (b : Bytes) (i : Nat) (h : i < b.toList.length) : b.toList[i] = b.byte i := by
  simp [Bytes.toList]

/-- Two byte strings with the same length and the same bytes below it have the same list. -/
theorem toList_congr (b c : Bytes) (hl : b.len = c.len) (h : ∀ i < b.len, b.byte i = c.byte i) : b.toList = c.toList := by
  unfold Bytes.toList
  rw [← hl]
  exact List.map_congr_left fun i hi => h i (List.mem_range.mp hi)

/-! ## Little-endian integers -/

@[simp] theorem le8_length (v : Nat) : (le8 v).length = 1 := rfl
@[simp] theorem le16_length (v : Nat) : (le16 v).length = 2 := rfl
@[simp] theorem le32_length (v : Nat) : (le32 v).length = 4 := rfl

theorem append_toNat_8 {n : Nat} (hi : BitVec n) (lo : Byte) : (hi ++ lo).toNat = 256 * hi.toNat + lo.toNat := by
  rw [BitVec.toNat_append, ← Nat.shiftLeft_add_eq_or_of_lt lo.isLt, Nat.shiftLeft_eq]
  omega

/-- `rd16` as a number: its two bytes in little-endian order. -/
theorem rd16_toNat (b : Bytes) (o : Nat) : (b.rd16 o).toNat = (b.byte o).toNat + 256 * (b.byte (o + 1)).toNat := by
  unfold Bytes.rd16
  rw [append_toNat_8]
  omega

/-- `rd32` as a number: its four bytes in little-endian order. -/
theorem rd32_toNat (b : Bytes) (o : Nat) :
    (b.rd32 o).toNat = (b.byte o).toNat + 256 * (b.byte (o + 1)).toNat + 65536 * (b.byte (o + 2)).toNat +
      16777216 * (b.byte (o + 3)).toNat := by
  have e1 : (b.byte (o + 1) ++ b.byte o).toNat = 256 * (b.byte (o + 1)).toNat + (b.byte o).toNat := append_toNat_8 _ _
  have h16 : (b.byte (o + 1) ++ b.byte o).toNat < 2 ^ 16 := (b.byte (o + 1) ++ b.byte o).isLt
  have e2 : (b.byte (o + 2) ++ (b.byte (o + 1) ++ b.byte o)).toNat =
      65536 * (b.byte (o + 2)).toNat + (b.byte (o + 1) ++ b.byte o).toNat := by
    rw [BitVec.toNat_append, ← Nat.shiftLeft_add_eq_or_of_lt h16, Nat.shiftLeft_eq]
    omega
  have h24 : (b.byte (o + 2) ++ (b.byte (o + 1) ++ b.byte o)).toNat < 2 ^ 24 :=
    (b.byte (o + 2) ++ (b.byte (o + 1) ++ b.byte o)).isLt
  unfold Bytes.rd32
  rw [BitVec.toNat_append, ← Nat.shiftLeft_add_eq_or_of_lt h24, Nat.shiftLeft_eq, e2, e1]
  omega

/-- Four bytes that are `le32 v` read as `v mod 2^32`. -/
theorem rd32_of_le32 (b : Bytes) (o v : Nat) (h : ∀ j, (hj : j < 4) → b.byte (o + j) = (le32 v)[j]'hj) :
    b.rd32 o = BitVec.ofNat 32 v := by
  have h0 := h 0 (by omega)
  have h1 := h 1 (by omega)
  have h2 := h 2 (by omega)
  have h3 := h 3 (by omega)
  simp only [le32, Nat.add_zero, List.getElem_cons_zero, List.getElem_cons_succ] at h0 h1 h2 h3
  apply BitVec.eq_of_toNat_eq
  rw [rd32_toNat, h0, h1, h2, h3]
  simp only [BitVec.toNat_ofNat]
  omega

/-- Two bytes that are `le16 v` read as `v mod 2^16`. -/
theorem rd16_of_le16 (b : Bytes) (o v : Nat) (h : ∀ j, (hj : j < 2) → b.byte (o + j) = (le16 v)[j]'hj) :
    b.rd16 o = BitVec.ofNat 16 v := by
  have h0 := h 0 (by omega)
  have h1 := h 1 (by omega)
  simp only [le16, Nat.add_zero, List.getElem_cons_zero, List.getElem_cons_succ] at h0 h1
  apply BitVec.eq_of_toNat_eq
  rw [rd16_toNat, h0, h1]
  simp only [BitVec.toNat_ofNat]
  omega

theorem sat32_le (v : Nat) : sat32 v ≤ 4294967295 := by unfold sat32; omega

@[simp] theorem sat32_sat32 (v : Nat) : sat32 (sat32 v) = sat32 v := by unfold sat32; omega

/-! ## Reads depend only on the bytes they cover -/

theorem rd16_congr (b c : Bytes) (o : Nat) (h : ∀ j < 2, b.byte (o + j) = c.byte (o + j)) : b.rd16 o = c.rd16 o := by
  have h0 := h 0 (by omega)
  have h1 := h 1 (by omega)
  simp only [Nat.add_zero] at h0
  simp only [Bytes.rd16, h0, h1]

theorem rd32_congr (b c : Bytes) (o : Nat) (h : ∀ j < 4, b.byte (o + j) = c.byte (o + j)) : b.rd32 o = c.rd32 o := by
  have h0 := h 0 (by omega)
  have h1 := h 1 (by omega)
  have h2 := h 2 (by omega)
  have h3 := h 3 (by omega)
  simp only [Nat.add_zero] at h0
  simp only [Bytes.rd32, h0, h1, h2, h3]

/-- The decoded header depends only on its 40 bytes. -/
theorem bmpInfoOf_congr (b c : Bytes) (h : ∀ j < 40, b.byte j = c.byte j) : bmpInfoOf b = bmpInfoOf c := by
  have r16 : ∀ o, o ≤ 38 → b.rd16 o = c.rd16 o := fun o ho => rd16_congr b c o fun j hj => h _ (by omega)
  have r32 : ∀ o, o ≤ 36 → b.rd32 o = c.rd32 o := fun o ho => rd32_congr b c o fun j hj => h _ (by omega)
  simp [bmpInfoOf, r16, r32]

/-- The decoded TOC entry depends only on its 16 bytes. -/
theorem tocEntryOf_congr (b c : Bytes) (o : Nat) (h : ∀ j < 16, b.byte (o + j) = c.byte (o + j)) :
    tocEntryOf b o = tocEntryOf c o := by
  have h0 := h 0 (by omega)
  simp only [Nat.add_zero] at h0
  have r16 : ∀ i, i ≤ 14 → b.rd16 (o + i) = c.rd16 (o + i) := fun i hi =>
    rd16_congr b c _ fun j hj => by rw [Nat.add_assoc]; exact h _ (by omega)
  have r32 : ∀ i, i ≤ 12 → b.rd32 (o + i) = c.rd32 (o + i) := fun i hi =>
    rd32_congr b c _ fun j hj => by rw [Nat.add_assoc]; exact h _ (by omega)
  simp [tocEntryOf, h0, h 1, h 2, h 3, r16, r32]

/-! ## Lists -/

theorem sliceList_length (l : List Byte) (o n : Nat) : (sliceList l o n).length = min n (l.length - o) := by
  simp [sliceList]

theorem sliceList_append_left (xs ys : List Byte) (o n : Nat) (h : o + n ≤ xs.length) :
    sliceList (xs ++ ys) o n = sliceList xs o n := by
  unfold sliceList
  rw [List.drop_append_of_le_length (by omega), List.take_append_of_le_length (by simp; omega)]

theorem sliceList_append_right (xs ys : List Byte) (o n : Nat) (h : xs.length ≤ o) :
    sliceList (xs ++ ys) o n = sliceList ys (o - xs.length) n := by
  unfold sliceList
  rw [List.drop_append]
  simp [List.drop_eq_nil_of_le h]

theorem sliceList_self (l : List Byte) : sliceList l 0 l.length = l := by simp [sliceList]

end Sys2Proof.Machine
end

