-- ==== Sys2Proof/Laws/Verifier.lean ====
section
/-! SUPPORT. What the verifier can answer. -/

namespace Sys2Proof.Machine

theorem isSide_iff (v : Word) : isSide v = true ↔ v = 16#32 ∨ v = 32#32 := by simp [isSide]

/-- A record that the core can raise: no FileOpenFailure, and a reason exactly with VerifyFailure (60_exceptions.md
R301, R302, R307). -/
def legalError (e : CmdError) : Prop := e.kind ≠ .fileOpenFailure ∧ (e.kind = .verifyFailure ↔ e.reason ≠ .none)

theorem legalError_readShort (n k : Nat) : legalError (readShort n k) := by simp [legalError, readShort]

theorem legalError_usageError (f : ErrField) (n k : Nat) : legalError (usageError f n k) := by
  simp [legalError, usageError]

theorem legalError_allocationFailure (f : ErrField) (n k : Nat) : legalError (allocationFailure f n k) := by
  simp [legalError, allocationFailure]

theorem legalError_verifyFailure (r : ErrReason) (f : ErrField) (n k : Nat) (h : r ≠ .none) :
    legalError (verifyFailure r f n k) := by
  simp [legalError, verifyFailure, h]

/-- The checks that an accepted header has passed (40_verifier.md R171 to R177). -/
structure HeaderChecked (buf : Bytes) (chkBpp chkDim : Bool) (bi : BmpInfo) : Prop where
  eq : bi = bmpInfoOf buf
  len : 40 ≤ buf.len
  headerSz : bi.headerSz = 40#32
  bpp : chkBpp = true → bi.bpp = 8#16
  dim : chkDim = true → (bi.width = 16#32 ∨ bi.width = 32#32) ∧ bi.height = bi.width
  compression : bi.compression = 0#32
  palSz : bi.palSz ≠ 0#32

theorem verifyHeader_ok {buf : Bytes} {x y : Bool} {k : Nat} {bi : BmpInfo} (h : verifyHeader buf x y k = .ok bi) :
    HeaderChecked buf x y bi := by
  simp only [verifyHeader] at h
  generalize hb : bmpInfoOf buf = b at h
  repeat' split at h
  all_goals simp only [reduceCtorEq, Except.ok.injEq] at h
  subst h
  rename_i h1 h2 h3 h4 h5 h6 h7 h8
  refine ⟨hb.symm, by omega, by simpa using h2, fun hx => ?_, fun hy => ?_, by simpa using h7, h8⟩
  · simpa [hx] using h3
  · have hw : isSide b.width = true := by simpa [hy] using h4
    have he : b.width = b.height := by simpa [hy] using h6
    exact ⟨(isSide_iff _).mp hw, he.symm⟩

theorem verifyHeader_of_checked {buf : Bytes} {x y : Bool} {bi : BmpInfo} (k : Nat) (h : HeaderChecked buf x y bi) :
    verifyHeader buf x y k = .ok bi := by
  obtain ⟨rfl, hlen, hs, hb, hd, hc, hp⟩ := h
  have hl : ¬ buf.len < 40 := by omega
  cases x <;> cases y <;> simp_all [verifyHeader, isSide_iff]

theorem verifyHeader_error {buf : Bytes} {x y : Bool} {k : Nat} {e : CmdError} (h : verifyHeader buf x y k = .error e) :
    legalError e := by
  simp only [verifyHeader] at h
  generalize bmpInfoOf buf = b at h
  repeat' split at h
  all_goals simp only [reduceCtorEq, Except.error.injEq] at h
  all_goals subst h
  · exact legalError_readShort _ _
  all_goals exact legalError_verifyFailure _ _ _ _ (by simp)

theorem checkSource_ok {s : State} {k : Nat} (h : checkSource s k = .ok ()) :
    s.nsrc.toNat ≤ s.params.srcMax ∧ k < s.nsrc.toNat := by
  simp only [checkSource] at h
  split at h
  · exact absurd h (by simp)
  · split at h
    · exact absurd h (by simp)
    · omega

theorem checkSource_of_ok {s : State} {k : Nat} (h1 : s.nsrc.toNat ≤ s.params.srcMax) (h2 : k < s.nsrc.toNat) :
    checkSource s k = .ok () := by
  simp [checkSource, Nat.not_lt.mpr h1, Nat.not_le.mpr h2]

theorem checkSource_error {s : State} {k : Nat} {e : CmdError} (h : checkSource s k = .error e) : legalError e := by
  simp only [checkSource] at h
  repeat' split at h
  all_goals first
    | contradiction
    | (cases h; exact legalError_usageError _ _ _)

end Sys2Proof.Machine
end

