-- ==== Sys2Proof/Laws/Codec.lean ====
section
/-! SUPPORT. The masks by index: lengths and bytes, and what the strict source check can answer. -/

namespace Sys2Proof.Machine

@[simp] theorem xorMask_length (px : Bytes) (w h : Nat) (t : Byte) : (xorMask px w h t).length = xorLen w h := by
  simp [xorMask]

@[simp] theorem andMask_length (px : Bytes) (w h : Nat) (t : Byte) : (andMask px w h t).length = andLen h := by
  simp [andMask]

@[simp] theorem decodeMasks_length (xor and : Bytes) (w h : Nat) : (decodeMasks xor and w h).length = w * h := by
  simp [decodeMasks]

theorem xorMask_getElem (px : Bytes) (w h : Nat) (t : Byte) (j : Nat) (hj : j < (xorMask px w h t).length) :
    (xorMask px w h t)[j] = xorByte px t j := by simp [xorMask]

theorem andMask_getElem (px : Bytes) (w h : Nat) (t : Byte) (j : Nat) (hj : j < (andMask px w h t).length) :
    (andMask px w h t)[j] = andByte px w t j := by simp [andMask]

theorem decodeMasks_getElem (xor and : Bytes) (w h i : Nat) (hi : i < (decodeMasks xor and w h).length) :
    (decodeMasks xor and w h)[i] = decPixel xor and w i := by simp [decodeMasks]

/-- The AND data byte written out, its first pixel in bit 7. -/
theorem andDataByte_eq (px : Bytes) (t : Byte) (i : Nat) :
    andDataByte px t i =
      bitAt (tbit (px.byte i) t) 7 ||| bitAt (tbit (px.byte (i + 1)) t) 6 ||| bitAt (tbit (px.byte (i + 2)) t) 5 |||
      bitAt (tbit (px.byte (i + 3)) t) 4 ||| bitAt (tbit (px.byte (i + 4)) t) 3 ||| bitAt (tbit (px.byte (i + 5)) t) 2 |||
      bitAt (tbit (px.byte (i + 6)) t) 1 ||| bitAt (tbit (px.byte (i + 7)) t) 0 := by
  simp [andDataByte, List.range_succ]

/-- A source that the strict check accepts has passed the strict verifier and holds its pixels. -/
theorem checkStrict_ok {src : Bytes} {k : Nat} {bi : BmpInfo} (h : checkStrict src k = .ok bi) :
    HeaderChecked src true true bi ∧ needOf bi ≤ src.len := by
  simp only [checkStrict] at h
  split at h
  · exact absurd h (by simp)
  · rename_i b hb
    split at h
    · exact absurd h (by simp)
    · cases h
      exact ⟨verifyHeader_ok hb, by omega⟩

theorem checkStrict_of_checked {src : Bytes} {bi : BmpInfo} (k : Nat) (h : HeaderChecked src true true bi)
    (hn : needOf bi ≤ src.len) : checkStrict src k = .ok bi := by
  simp only [checkStrict, verifyHeader_of_checked k h]
  rw [if_neg (by omega)]

theorem checkStrict_error {src : Bytes} {k : Nat} {e : CmdError} (h : checkStrict src k = .error e) : legalError e := by
  simp only [checkStrict] at h
  split at h
  · cases h
    exact verifyHeader_error ‹_›
  · split at h
    · cases h
      exact legalError_readShort _ _
    · exact absurd h (by simp)

/-- The result of a successful ENCODE. -/
theorem runEncode_ok {k : Nat} {s : State} {r : Results} (h : runEncode k s = .ok r) :
    ∃ bi, HeaderChecked (s.src k) true true bi ∧ needOf bi ≤ (s.src k).len ∧
      xorLen bi.width.toNat bi.height.toNat + andLen bi.height.toNat ≤ s.params.outCap ∧
      r = { info := some bi,
            out := some (xorMask (pixelsOf (s.src k) bi) bi.width.toNat bi.height.toNat s.transp ++
              andMask (pixelsOf (s.src k) bi) bi.width.toNat bi.height.toNat s.transp),
            toc := none } := by
  simp only [runEncode] at h
  split at h
  · exact absurd h (by simp)
  split at h
  · exact absurd h (by simp)
  rename_i bi hb
  split at h
  · exact absurd h (by simp)
  rename_i hn
  obtain ⟨hc, hneed⟩ := checkStrict_ok hb
  cases h
  exact ⟨bi, hc, hneed, by omega, rfl⟩

end Sys2Proof.Machine
end

