-- ==== Sys2Proof/Laws/Assembler.lean ====
section
/-! SUPPORT. The file image by parts: lengths, offsets and the place of every header, entry and block. -/

namespace Sys2Proof.Machine

@[simp] theorem fileHeader_length (n : Nat) : (fileHeader n).length = 6 := rfl

@[simp] theorem tocEntryBytes_length (bi : BmpInfo) (off : Nat) : (tocEntryBytes bi off).length = 16 := rfl

@[simp] theorem blockHeader_length (bi : BmpInfo) : (blockHeader bi).length = 40 := rfl

@[simp] theorem colourTable_length (src : Bytes) (bi : BmpInfo) : (colourTable src bi).length = 4 * bi.palSz.toNat := by
  simp [colourTable]

@[simp] theorem blockBytes_length (t : Byte) (src : Bytes) (bi : BmpInfo) :
    (blockBytes t src bi).length = blockSize bi := by
  simp only [blockBytes, encodeMasks, blockSize, xsOf, asOf, List.length_append, blockHeader_length,
    colourTable_length, xorMask_length, andMask_length]

@[simp] theorem infosOf_length (cs : List Checked) : (infosOf cs).length = cs.length := by simp [infosOf]

@[simp] theorem infosOf_cons (c : Checked) (cs : List Checked) : infosOf (c :: cs) = c.bi :: infosOf cs := rfl

@[simp] theorem blockOffsets_length (o : Nat) (bis : List BmpInfo) : (blockOffsets o bis).length = bis.length := by
  induction bis generalizing o with
  | nil => rfl
  | cons bi bis ih => simp [blockOffsets, ih]

/-- `off[k]` is the start plus the sizes before it (41_assembler.md R192). -/
theorem blockOffsets_getElem (o : Nat) (bis : List BmpInfo) (k : Nat) (h : k < (blockOffsets o bis).length) :
    (blockOffsets o bis)[k] = o + ((bis.take k).map blockSize).sum := by
  induction bis generalizing o k with
  | nil => simp [blockOffsets] at h
  | cons bi bis ih =>
    cases k with
    | zero => simp [blockOffsets]
    | succ k =>
      simp only [blockOffsets, List.getElem_cons_succ, List.take_succ_cons, List.map_cons, List.sum_cons]
      rw [ih]
      omega

@[simp] theorem offsets_length (bis : List BmpInfo) : (offsets bis).length = bis.length := by simp [offsets]

theorem offsets_getElem (bis : List BmpInfo) (k : Nat) (h : k < (offsets bis).length) :
    (offsets bis)[k] = firstBlock bis.length + ((bis.take k).map blockSize).sum := by
  simp only [offsets, blockOffsets_getElem]

/-- The sizes of the blocks up to `k` and block `k` fit the sum of all. -/
theorem sum_take_add_le (bis : List BmpInfo) (k : Nat) (h : k < bis.length) :
    ((bis.take k).map blockSize).sum + blockSize bis[k] ≤ (bis.map blockSize).sum := by
  induction bis generalizing k with
  | nil => simp at h
  | cons bi bis ih =>
    cases k with
    | zero => simp
    | succ k =>
      have := ih k (by simpa using h)
      simp only [List.take_succ_cons, List.map_cons, List.sum_cons, List.getElem_cons_succ]
      omega

theorem flatten_length_const {α : Type} (n : Nat) (ls : List (List α)) (h : ∀ l ∈ ls, l.length = n) :
    ls.flatten.length = n * ls.length := by
  induction ls with
  | nil => simp
  | cons l ls ih =>
    rw [List.flatten_cons, List.length_append, h l (by simp), ih fun m hm => h m (by simp [hm])]
    simp only [List.length_cons]
    rw [Nat.mul_succ]
    omega

/-- Slot `k` of a concatenation of pieces of one length. -/
theorem sliceList_flatten_const (n : Nat) (ls : List (List Byte)) (h : ∀ l ∈ ls, l.length = n) (k : Nat)
    (hk : k < ls.length) : sliceList ls.flatten (n * k) n = ls[k] := by
  induction ls generalizing k with
  | nil => simp at hk
  | cons l ls ih =>
    have hl : l.length = n := h l (by simp)
    cases k with
    | zero =>
      rw [List.flatten_cons, Nat.mul_zero, sliceList_append_left _ _ _ _ (by omega)]
      have := sliceList_self l
      rw [hl] at this
      exact this
    | succ k =>
      rw [List.flatten_cons, Nat.mul_succ, sliceList_append_right _ _ _ _ (by omega)]
      have : n * k + n - l.length = n * k := by omega
      rw [this, ih (fun m hm => h m (by simp [hm])) k (by simpa using hk)]
      simp

@[simp] theorem tocBytes_length (bis : List BmpInfo) : (tocBytes bis).length = 16 * bis.length := by
  rw [tocBytes, flatten_length_const 16]
  · simp
  · intro l hl
    obtain ⟨i, hi, rfl⟩ := List.getElem_of_mem hl
    simp

theorem blocks_length (t : Byte) (cs : List Checked) :
    (cs.map fun c => blockBytes t c.src c.bi).flatten.length = ((infosOf cs).map blockSize).sum := by
  induction cs with
  | nil => rfl
  | cons c cs ih => simp [ih]

/-- "len(img) = L" (41_assembler.md R194). -/
theorem asmImage_length (t : Byte) (cs : List Checked) : (asmImage t cs).length = fileLength (infosOf cs) := by
  rw [asmImage, List.length_append, List.length_append, blocks_length]
  simp [fileLength, firstBlock]

/-- Entry `k` of the image (R196). -/
theorem asmImage_entry (t : Byte) (cs : List Checked) (k : Nat) (hk : k < cs.length) :
    sliceList (asmImage t cs) (entryPos k) 16 =
      tocEntryBytes (cs[k]).bi ((offsets (infosOf cs))[k]'(by simpa using hk)) := by
  have hlen : (fileHeader cs.length ++ tocBytes (infosOf cs)).length = 6 + 16 * cs.length := by simp
  rw [asmImage, sliceList_append_left _ _ _ _ (by rw [hlen]; simp only [entryPos]; omega),
    sliceList_append_right _ _ _ _ (by simp [entryPos])]
  have : entryPos k - (fileHeader cs.length).length = 16 * k := by simp [entryPos]
  rw [this, tocBytes, sliceList_flatten_const 16]
  · simp [infosOf]
  · intro l hl
    obtain ⟨i, hi, rfl⟩ := List.getElem_of_mem hl
    simp
  · simpa using hk

theorem sliceList_blocks (t : Byte) (cs : List Checked) (k : Nat) (hk : k < cs.length) :
    sliceList (cs.map fun c => blockBytes t c.src c.bi).flatten ((((infosOf cs).take k).map blockSize).sum)
      (blockSize cs[k].bi) = blockBytes t cs[k].src cs[k].bi := by
  induction cs generalizing k with
  | nil => simp at hk
  | cons c cs ih =>
    cases k with
    | zero =>
      simp only [List.map_cons, List.flatten_cons, List.take_zero, List.map_nil, List.sum_nil, List.getElem_cons_zero]
      rw [sliceList_append_left _ _ _ _ (by simp)]
      have := sliceList_self (blockBytes t c.src c.bi)
      rwa [blockBytes_length] at this
    | succ k =>
      simp only [List.map_cons, List.flatten_cons, infosOf_cons, List.take_succ_cons, List.sum_cons,
        List.getElem_cons_succ]
      rw [sliceList_append_right _ _ _ _ (by simp)]
      have h : ∀ x : Nat, blockSize c.bi + x - (blockBytes t c.src c.bi).length = x := fun x => by simp
      rw [h]
      exact ih k (by simpa using hk)

/-- Block `k` of the image (R197). -/
theorem asmImage_block (t : Byte) (cs : List Checked) (k : Nat) (hk : k < cs.length) :
    sliceList (asmImage t cs) ((offsets (infosOf cs))[k]'(by simpa using hk)) (blockSize cs[k].bi) =
      blockBytes t cs[k].src cs[k].bi := by
  have hlen : (fileHeader cs.length ++ tocBytes (infosOf cs)).length = 6 + 16 * cs.length := by simp
  rw [offsets_getElem, asmImage, sliceList_append_right _ _ _ _ (by rw [hlen]; simp [firstBlock])]
  have : firstBlock (infosOf cs).length + (((infosOf cs).take k).map blockSize).sum -
      (fileHeader cs.length ++ tocBytes (infosOf cs)).length = (((infosOf cs).take k).map blockSize).sum := by
    rw [hlen]
    simp [firstBlock]
  rw [this, sliceList_blocks]

/-- What pass 1 of ASSEMBLE hands on: one checked source per index, in order. -/
theorem checkSources_ok {s : State} {ks : List Nat} {cs : List Checked} (h : checkSources s ks = .ok cs) :
    cs = (ks.map fun k => { src := s.src k, bi := bmpInfoOf (s.src k) }) ∧
      ∀ k ∈ ks, HeaderChecked (s.src k) true true (bmpInfoOf (s.src k)) ∧ needOf (bmpInfoOf (s.src k)) ≤ (s.src k).len := by
  induction ks generalizing cs with
  | nil =>
    simp only [checkSources] at h
    cases h
    exact ⟨rfl, by simp⟩
  | cons k ks ih =>
    simp only [checkSources] at h
    split at h
    · exact absurd h (by simp)
    rename_i bi hb
    split at h
    · exact absurd h (by simp)
    rename_i rest hrest
    cases h
    obtain ⟨hc, hn⟩ := checkStrict_ok hb
    obtain ⟨rfl, hall⟩ := ih hrest
    have he := hc.eq
    subst he
    refine ⟨rfl, fun j hj => ?_⟩
    rcases List.mem_cons.mp hj with rfl | hj
    · exact ⟨hc, hn⟩
    · exact hall j hj

theorem checkSources_error {s : State} {ks : List Nat} {e : CmdError} (h : checkSources s ks = .error e) :
    legalError e := by
  induction ks with
  | nil => exact absurd h (by simp [checkSources])
  | cons k ks ih =>
    simp only [checkSources] at h
    split at h
    · cases h
      exact checkStrict_error ‹_›
    · split at h
      · cases h
        exact ih ‹_›
      · exact absurd h (by simp)

/-- A record of its two parts, PATCH_POS and four zeros. -/
theorem tocRecord_length (entry header : List Byte) (k : Nat) (he : entry.length = 16) (hh : header.length = 40) :
    (tocRecord entry header k).length = 64 := by simp [tocRecord, he, hh]

/-- Records of 64 bytes for every entry of a written file. -/
theorem assembledRecords_length (t : Byte) (cs : List Checked) :
    (assembledRecords (asmImage t cs) (offsets (infosOf cs))).length = cs.length ∧
      ∀ r ∈ assembledRecords (asmImage t cs) (offsets (infosOf cs)), r.length = 64 := by
  refine ⟨by simp [assembledRecords], fun r hr => ?_⟩
  obtain ⟨i, hi, rfl⟩ := List.getElem_of_mem hr
  have hi' : i < cs.length := by simpa [assembledRecords] using hi
  simp only [assembledRecords, List.getElem_map, List.getElem_zipIdx, Nat.zero_add]
  apply tocRecord_length
  · rw [asmImage_entry t cs i hi']
    rfl
  · rw [sliceList_length, asmImage_length, offsets_getElem]
    have hb : i < (infosOf cs).length := by simpa using hi'
    have := sum_take_add_le (infosOf cs) i hb
    have h40 : 40 ≤ blockSize (infosOf cs)[i] := by
      unfold blockSize
      omega
    simp only [fileLength]
    omega

/-- The result of a successful ASSEMBLE. -/
theorem runAssemble_ok {s : State} {r : Results} (h : runAssemble s = .ok r) :
    ∃ cs, checkSources s (List.range s.nsrc.toNat) = .ok cs ∧ 1 ≤ s.nsrc.toNat ∧ s.nsrc.toNat ≤ s.params.srcMax ∧
      s.nsrc.toNat ≤ s.params.tocMax ∧ fileLength (infosOf cs) ≤ s.params.outCap ∧
      r = { info := none, out := some (asmImage s.transp cs),
            toc := some (assembledRecords (asmImage s.transp cs) (offsets (infosOf cs))) } := by
  simp only [runAssemble] at h
  split at h
  · exact absurd h (by simp)
  split at h
  · exact absurd h (by simp)
  split at h
  · exact absurd h (by simp)
  rename_i cs hcs
  split at h
  · exact absurd h (by simp)
  cases h
  exact ⟨cs, hcs, by omega, by omega, by omega, by omega, rfl⟩

end Sys2Proof.Machine
end

