-- ==== Sys2Proof/Laws/Decode.lean ====
section
/-! SUPPORT. The fields of a command word, read back from the word the encoder builds. -/

namespace Sys2Proof

/-- A mask over a concatenation masks each part. -/
theorem append_and_append {m n : Nat} (a b : BitVec m) (x y : BitVec n) :
    (a ++ x) &&& (b ++ y) = (a &&& b) ++ (x &&& y) := by
  apply BitVec.eq_of_getLsbD_eq
  intro i _
  simp only [BitVec.getLsbD_and, BitVec.getLsbD_append]
  split <;> rfl

/-- A mask over a command word masks each field. -/
theorem fields_and (k mk : BitVec 16) (r mr : BitVec 6) (d md b mb : BitVec 1) (op mo : BitVec 8) :
    (k ++ (r ++ (d ++ (b ++ op)))) &&& (mk ++ (mr ++ (md ++ (mb ++ mo)))) =
      (k &&& mk) ++ ((r &&& mr) ++ ((d &&& md) ++ ((b &&& mb) ++ (op &&& mo)))) :=
  (append_and_append _ _ _ _).trans (congrArg _ ((append_and_append _ _ _ _).trans (congrArg _
    ((append_and_append _ _ _ _).trans (congrArg _ (append_and_append _ _ _ _))))))

@[simp] theorem bppOf_commandWord (k : Nat) (d b : Bool) (op : BitVec 8) : bppOf (commandWord k d b op) = b := by
  simp only [bppOf, commandWord]
  rw [BitVec.getLsbD_append, BitVec.getLsbD_append, BitVec.getLsbD_append, BitVec.getLsbD_append]
  simp

@[simp] theorem dimOf_commandWord (k : Nat) (d b : Bool) (op : BitVec 8) : dimOf (commandWord k d b op) = d := by
  simp only [dimOf, commandWord]
  rw [BitVec.getLsbD_append, BitVec.getLsbD_append, BitVec.getLsbD_append]
  simp

@[simp] theorem idxOf_commandWord (k : Nat) (d b : Bool) (op : BitVec 8) :
    idxOf (commandWord k d b op) = k % 65536 := by
  have hf : (commandWord k d b op).extractLsb' 16 16 = BitVec.ofNat 16 k := by
    apply BitVec.eq_of_getLsbD_eq
    intro i hi
    rw [BitVec.getLsbD_extractLsb', commandWord, BitVec.getLsbD_append]
    have h1 : ¬ 16 + i < 6 + (1 + (1 + 8)) := by omega
    have h2 : 16 + i - (6 + (1 + (1 + 8))) = i := by omega
    rw [if_neg h1, h2]
    simp [hi]
  rw [idxOf, hf, BitVec.toNat_ofNat]

/-- The word of a command whose IDX, DIM and BPP fields are free fits the row of VERIFY (30_encoding.md R116). -/
theorem rowVerify_fits (k : Nat) (d b : Bool) : rowVerify.fits (commandWord k d b 0x01#8) = true := by
  have h := fields_and (BitVec.ofNat 16 k) 0#16 0#6 0x3F#6 (BitVec.ofBool d) 0#1 (BitVec.ofBool b) 0#1 0x01#8 0xFF#8
  simp only [BitVec.and_zero] at h
  exact beq_iff_eq.mpr h

theorem rowEncode_fits (k : Nat) : rowEncode.fits (commandWord k false false 0x02#8) = true := by
  have h := fields_and (BitVec.ofNat 16 k) 0#16 0#6 0x3F#6 0#1 1#1 0#1 1#1 0x02#8 0xFF#8
  simp only [BitVec.and_zero] at h
  exact beq_iff_eq.mpr h

theorem rowDecode_fits (k : Nat) : rowDecode.fits (commandWord k false false 0x05#8) = true := by
  have h := fields_and (BitVec.ofNat 16 k) 0#16 0#6 0x3F#6 0#1 1#1 0#1 1#1 0x05#8 0xFF#8
  simp only [BitVec.and_zero] at h
  exact beq_iff_eq.mpr h

end Sys2Proof
end

