-- ==== Sys2Proof/Laws/Memory.lean ====
section
/-! SUPPORT. The memory laws: what a byte reads as after a write, and that every memory operation keeps the canonical
form. -/

namespace Sys2Proof.Machine

theorem lookupCell_append (xs ys : List Host.Cell) (x : Nat) :
    lookupCell (xs ++ ys) x = (lookupCell xs x).or (lookupCell ys x) := by
  induction xs with
  | nil => simp [lookupCell]
  | cons c cs ih =>
    obtain ⟨a, b⟩ := c
    by_cases h : x = a <;> simp [lookupCell, h, ih]

/-- A filter that keeps the address keeps what is listed there. -/
theorem lookupCell_filter_of_pos (p : Nat → Bool) (cs : List Host.Cell) (x : Nat) (h : p x = true) :
    lookupCell (cs.filter fun c => p c.1) x = lookupCell cs x := by
  induction cs with
  | nil => rfl
  | cons c cs ih =>
    obtain ⟨a, b⟩ := c
    by_cases hx : x = a
    · subst hx; simp [lookupCell, h]
    · by_cases ha : p a = true <;> simp [ha, lookupCell, hx, ih]

/-- A filter that drops the address lists nothing there. -/
theorem lookupCell_filter_of_neg (p : Nat → Bool) (cs : List Host.Cell) (x : Nat) (h : p x = false) :
    lookupCell (cs.filter fun c => p c.1) x = none := by
  induction cs with
  | nil => rfl
  | cons c cs ih =>
    obtain ⟨a, b⟩ := c
    by_cases hx : x = a
    · subst hx; simp [h, ih]
    · by_cases ha : p a = true <;> simp [ha, lookupCell, hx, ih]

theorem lookupCell_cellsFrom_below (a : Nat) (bs : List Byte) (x : Nat) (h : x < a) :
    lookupCell (cellsFrom a bs) x = none := by
  induction bs generalizing a with
  | nil => rfl
  | cons b bs ih =>
    have : x ≠ a := by omega
    simp [cellsFrom, lookupCell, this, ih (a + 1) (by omega)]

theorem lookupCell_cellsFrom (a : Nat) (bs : List Byte) (i : Nat) : lookupCell (cellsFrom a bs) (a + i) = bs[i]? := by
  induction bs generalizing a i with
  | nil => rfl
  | cons b bs ih =>
    cases i with
    | zero => simp [cellsFrom, lookupCell]
    | succ i =>
      have hne : a + (i + 1) ≠ a := by omega
      have he : a + (i + 1) = a + 1 + i := by omega
      simp only [cellsFrom, lookupCell, hne, if_false, List.getElem?_cons_succ]
      rw [he, ih]

/-- What is listed after a write: the written bytes inside, the old listing outside. -/
theorem lookupCell_write (m : Memory) (a : Nat) (bs : List Byte) (x : Nat) :
    lookupCell (m.write a bs).cells x =
      if a ≤ x ∧ x < a + bs.length then bs[x - a]? else lookupCell m.cells x := by
  simp only [Memory.write, lookupCell_append]
  by_cases h1 : x < a
  · have hn : ¬ (a ≤ x ∧ x < a + bs.length) := by omega
    rw [lookupCell_filter_of_pos (fun y => decide (y < a)) _ _ (by simpa using h1),
      lookupCell_cellsFrom_below _ _ _ h1,
      lookupCell_filter_of_neg (fun y => decide (a + bs.length ≤ y)) _ _ (by simp; omega), if_neg hn]
    simp
  · obtain ⟨i, rfl⟩ : ∃ i, x = a + i := ⟨x - a, by omega⟩
    rw [lookupCell_filter_of_neg (fun y => decide (y < a)) _ _ (by simp), lookupCell_cellsFrom]
    by_cases h2 : i < bs.length
    · rw [if_pos ⟨by omega, by omega⟩]
      simp [List.getElem?_eq_getElem h2]
    · rw [if_neg (by omega), lookupCell_filter_of_pos (fun y => decide (a + bs.length ≤ y)) _ _ (by simp; omega),
        List.getElem?_eq_none (by omega)]
      simp

@[simp] theorem write_draw (m : Memory) (a : Nat) (bs : List Byte) : (m.write a bs).draw = m.draw := rfl

/-- A byte inside the written range reads as the byte written there. -/
theorem byte_write_inside (m : Memory) (sp : Space) (a : Nat) (bs : List Byte) (i : Nat) (h : i < bs.length) :
    (m.write a bs).byte sp (a + i) = bs[i] := by
  simp only [Memory.byte, lookupCell_write]
  rw [if_pos ⟨by omega, by omega⟩]
  simp [List.getElem?_eq_getElem h]

/-- A byte outside the written range reads as before. -/
theorem byte_write_outside (m : Memory) (sp : Space) (a : Nat) (bs : List Byte) (x : Nat)
    (h : x < a ∨ a + bs.length ≤ x) : (m.write a bs).byte sp x = m.byte sp x := by
  simp only [Memory.byte, lookupCell_write]
  rw [if_neg (by omega), write_draw]

@[simp] theorem byte_unspecified (d : Nat) (sp : Space) (a : Nat) :
    (Memory.unspecified d).byte sp a = Config.freeByte sp d a := rfl

@[simp] theorem byte_powerOn (sp : Space) (a : Nat) : Memory.powerOn.byte sp a = Config.freeByte sp 0 a := rfl

/-! ## The canonical form -/

theorem cellsRise_mono {lo lo' : Nat} (cs : List Host.Cell) (h : lo' ≤ lo) (hr : cellsRise lo cs = true) :
    cellsRise lo' cs = true := by
  cases cs with
  | nil => rfl
  | cons c cs =>
    simp only [cellsRise, Bool.and_eq_true, decide_eq_true_eq] at hr ⊢
    exact ⟨by omega, hr.2⟩

theorem cellsRise_filter {lo : Nat} (p : Host.Cell → Bool) (cs : List Host.Cell) (hr : cellsRise lo cs = true) :
    cellsRise lo (cs.filter p) = true := by
  induction cs generalizing lo with
  | nil => rfl
  | cons c cs ih =>
    simp only [cellsRise, Bool.and_eq_true, decide_eq_true_eq] at hr
    by_cases hp : p c = true
    · simp only [List.filter_cons, hp, if_true, cellsRise, Bool.and_eq_true, decide_eq_true_eq]
      exact ⟨hr.1, ih hr.2⟩
    · simp only [List.filter_cons, hp]
      exact cellsRise_mono _ (by omega : lo ≤ c.1 + 1) (ih hr.2)

/-- Rising cells below `mid` followed by rising cells from `mid` on rise. -/
theorem cellsRise_append {lo mid : Nat} (xs ys : List Host.Cell) (hx : cellsRise lo xs = true)
    (hb : ∀ c ∈ xs, c.1 < mid) (hlo : lo ≤ mid) (hy : cellsRise mid ys = true) : cellsRise lo (xs ++ ys) = true := by
  induction xs generalizing lo with
  | nil => exact cellsRise_mono _ hlo hy
  | cons c cs ih =>
    simp only [cellsRise, Bool.and_eq_true, decide_eq_true_eq] at hx
    simp only [List.cons_append, cellsRise, Bool.and_eq_true, decide_eq_true_eq]
    have hc : c.1 < mid := hb c (by simp)
    exact ⟨hx.1, ih hx.2 (fun d hd => hb d (by simp [hd])) (by omega)⟩

theorem cellsRise_filter_ge {lo : Nat} (n : Nat) (cs : List Host.Cell) (hr : cellsRise lo cs = true) :
    cellsRise n (cs.filter fun c => decide (n ≤ c.1)) = true := by
  induction cs generalizing lo with
  | nil => rfl
  | cons c cs ih =>
    simp only [cellsRise, Bool.and_eq_true, decide_eq_true_eq] at hr
    by_cases hp : n ≤ c.1
    · simp only [List.filter_cons, hp, decide_true, if_true, cellsRise, Bool.and_eq_true, true_and]
      exact cellsRise_filter _ _ hr.2
    · simp only [List.filter_cons, hp, decide_false]
      exact ih hr.2

theorem cellsRise_cellsFrom (a : Nat) (bs : List Byte) : cellsRise a (cellsFrom a bs) = true := by
  induction bs generalizing a with
  | nil => rfl
  | cons b bs ih => simp [cellsFrom, cellsRise, ih]

theorem mem_cellsFrom {a : Nat} {bs : List Byte} {c : Host.Cell} (h : c ∈ cellsFrom a bs) :
    a ≤ c.1 ∧ c.1 < a + bs.length := by
  induction bs generalizing a with
  | nil => simp [cellsFrom] at h
  | cons b bs ih =>
    simp only [cellsFrom, List.mem_cons] at h
    rcases h with rfl | h
    · simp
    · have := ih h
      simp only [List.length_cons]
      omega

theorem wf_iff (m : Memory) (size : Nat) :
    m.wf size = true ↔ cellsRise 0 m.cells = true ∧ ∀ c ∈ m.cells, c.1 < size := by
  simp [Memory.wf, List.all_eq_true]

/-- A write inside the memory keeps the canonical form. -/
theorem write_wf (m : Memory) (size a : Nat) (bs : List Byte) (h : m.wf size = true) (hin : a + bs.length ≤ size) :
    (m.write a bs).wf size = true := by
  rw [wf_iff] at h ⊢
  obtain ⟨hr, hb⟩ := h
  refine ⟨?_, ?_⟩
  · refine cellsRise_append (mid := a) _ _ (cellsRise_filter _ _ hr) ?_ (Nat.zero_le _) ?_
    · intro c hc
      simp only [List.mem_filter, decide_eq_true_eq] at hc
      exact hc.2
    · exact cellsRise_append (mid := a + bs.length) _ _ (cellsRise_cellsFrom a bs)
        (fun c hc => (mem_cellsFrom hc).2) (by omega) (cellsRise_filter_ge _ _ hr)
  · intro c hc
    simp only [Memory.write, List.mem_append, List.mem_filter] at hc
    rcases hc with hc | hc | hc
    · exact hb c hc.1
    · have := mem_cellsFrom hc
      omega
    · exact hb c hc.1

@[simp] theorem unspecified_wf (d size : Nat) : (Memory.unspecified d).wf size = true := rfl

@[simp] theorem powerOn_wf (size : Nat) : Memory.powerOn.wf size = true := rfl

end Sys2Proof.Machine
end

