-- ==== Sys2Proof/Laws/HostPort.lean ====
section
/-! SUPPORT. What the host's result-taking reads of 70_reset_and_hazards.md R351 and R353 do on an idle block: they
record the length register and the bytes below it, and change nothing else. -/

namespace Sys2Proof.Machine

@[simp] theorem readBytesOps_zero (sp : Space) (a : Nat) : readBytesOps sp a 0 = [] := rfl

@[simp] theorem readBytesOps_succ (sp : Space) (a n : Nat) :
    readBytesOps sp a (n + 1) = .readByte sp a :: readBytesOps sp (a + 1) n := rfl

@[simp] theorem readBytesOps_length (sp : Space) (a n : Nat) : (readBytesOps sp a n).length = n := by
  induction n generalizing a with
  | zero => rfl
  | succ n ih => simp [ih]

/-- A run goes on from the state after its first step. -/
theorem coreRun_succ (M : Host.Core) (n : Nat) (s t : M.State) (h : M.step s = .next t) : M.run (n + 1) s = M.run n t := by
  simp only [Host.Core.run, h]

theorem run_of_step {s t : State} {n : Nat} (h : step s = .next t) :
    Host.Core.run Sys2Proof.core (n + 1) s = Host.Core.run Sys2Proof.core n t :=
  coreRun_succ Sys2Proof.core n s t h

/-- The words that reads of the bytes `a` to `a + n - 1` answer, newest first. -/
def bytesRead (s : State) (sp : Space) (a n : Nat) : List Word :=
  ((List.range' a n).map fun x => ((s.mem sp).byte sp x).setWidth 32).reverse

theorem bytesRead_succ (s : State) (sp : Space) (a n : Nat) :
    bytesRead s sp a (n + 1) = bytesRead s sp (a + 1) n ++ [((s.mem sp).byte sp a).setWidth 32] := by
  simp [bytesRead, List.range'_succ]

/-- The host's byte read on an idle block. -/
theorem step_readByte_idle {s : State} {sp : Space} {a : Nat} {rest : List HostOp} (hb : s.status.busy = false)
    (hh : s.host = .readByte sp a :: rest) (ha : a < memSize s.params sp) :
    step s = .next { s with host := rest, reads := ((s.mem sp).byte sp a).setWidth 32 :: s.reads } := by
  have hm : State.mem { s with host := rest } sp = s.mem sp := by cases sp <;> rfl
  simp [step, hb, hostStep, hh, hostAccess, ha, State.hostReadByte, State.received, hm]

/-- The reads of a byte range on an idle block record its bytes, and change nothing else. -/
theorem run_readBytesOps (n : Nat) {s : State} {sp : Space} {a : Nat} {rest : List HostOp} (hb : s.status.busy = false)
    (hh : s.host = readBytesOps sp a n ++ rest) (ha : a + n ≤ memSize s.params sp) :
    Host.Core.run Sys2Proof.core n s = .next { s with host := rest, reads := bytesRead s sp a n ++ s.reads } := by
  induction n generalizing s a with
  | zero => cases s; simp_all [Host.Core.run, bytesRead]
  | succ n ih =>
    have h1 := step_readByte_idle hb hh (by omega)
    have h2 := ih (s := { s with host := readBytesOps sp (a + 1) n ++ rest, reads := ((s.mem sp).byte sp a).setWidth 32 :: s.reads })
      hb rfl (by simpa using by omega)
    have hm : ∀ l r, bytesRead { s with host := l, reads := r } sp (a + 1) n = bytesRead s sp (a + 1) n := by
      intro l r; cases sp <;> rfl
    rw [run_of_step h1]
    refine h2.trans ?_
    simp [hm, bytesRead_succ]

/-- The host's read of OUT_LEN or TOC_COUNT on an idle block. -/
theorem step_readReg_idle {s : State} {r : Reg} {rest : List HostOp} (hb : s.status.busy = false)
    (hh : s.host = .readReg 32 (regOffset r) :: rest) (hr : r = .outLen ∨ r = .tocCount) :
    step s = .next { s with host := rest, reads := s.reg r :: s.reads } := by
  rcases hr with rfl | rfl <;> simp [step, hb, hostStep, hh] <;>
    simp [hostAccess, State.hostReadReg, hb, regOffset, registerFault] <;> rfl

/-- On an idle block whose OUT_LEN the host knows, `takeOut` records OUT_LEN and exactly the bytes of OUTMEM below it
(R351, R353). -/
theorem run_takeOut {s : State} {rest : List HostOp} (hb : s.status.busy = false) (hh : s.host = takeOut s.outLen ++ rest)
    (hl : s.outLen.toNat ≤ s.params.outCap) :
    Host.Core.run Sys2Proof.core (s.outLen.toNat + 1) s =
      .next { s with host := rest, reads := bytesRead s .outmem 0 s.outLen.toNat ++ s.outLen :: s.reads } := by
  have h1 := step_readReg_idle (r := .outLen) hb hh (.inl rfl)
  have h2 := run_readBytesOps s.outLen.toNat (s := { s with host := readBytesOps .outmem 0 s.outLen.toNat ++ rest, reads := s.outLen :: s.reads })
    (sp := .outmem) (a := 0) hb rfl (by simpa [memSize] using hl)
  rw [run_of_step h1]
  exact h2

/-- On an idle block whose TOC_COUNT the host knows, `takeToc` records TOC_COUNT and exactly the records below it
(R353). -/
theorem run_takeToc {s : State} {rest : List HostOp} (hb : s.status.busy = false)
    (hh : s.host = takeToc s.tocCount ++ rest) (hl : s.tocCount.toNat ≤ s.params.tocMax) :
    Host.Core.run Sys2Proof.core (64 * s.tocCount.toNat + 1) s =
      .next { s with host := rest, reads := bytesRead s .tocram 0 (64 * s.tocCount.toNat) ++ s.tocCount :: s.reads } := by
  have h1 := step_readReg_idle (r := .tocCount) hb hh (.inr rfl)
  have h2 := run_readBytesOps (64 * s.tocCount.toNat)
    (s := { s with host := readBytesOps .tocram 0 (64 * s.tocCount.toNat) ++ rest, reads := s.tocCount :: s.reads })
    (sp := .tocram) (a := 0) hb rfl (by simp only [memSize]; omega)
  rw [run_of_step h1]
  exact h2

end Sys2Proof.Machine
end

