-- ==== Sys2Proof/Laws/PerInstr.lean ====
section
/-! SUPPORT. A statement made of each command by name: its word is a word of its row of the opcode map
(30_encoding.md R116), whatever its operands are. -/

namespace Sys2Proof.Laws.OpcodeRow

/-- The command's word fits the command's row. -/
def Statement (i : Instr) : Prop := i.row.fits (encode i) = true

theorem nop : Statement .nop := rfl

theorem verify (k : Nat) (bpp dim : Bool) : Statement (.verify k bpp dim) := rowVerify_fits k dim bpp

theorem encode (k : Nat) : Statement (.encode k) := rowEncode_fits k

theorem assemble : Statement .assemble := rfl

theorem parse : Statement .parse := rfl

theorem decode (k : Nat) : Statement (.decode k) := rowDecode_fits k

end Sys2Proof.Laws.OpcodeRow
end

