-- ==== Sys2Proof/Laws/Reader.lean ====
section
/-! SUPPORT. What the reader can answer. -/

namespace Sys2Proof.Machine

theorem legalError_fieldMismatch (f : ErrField) (n k : Nat) : legalError (fieldMismatch f n k) := by
  simp [legalError, fieldMismatch]

/-- The checks that an accepted entry has passed (43_reader.md R257 to R260). -/
structure EntryChecked (inp : Bytes) (k : Nat) (bi : BmpInfo) : Prop where
  len : (entryAt inp k).offset.toNat + 40 ≤ inp.len
  header : HeaderChecked (headerAt inp (entryAt inp k).offset.toNat) false false bi
  bpp : (entryAt inp k).bpp = bi.bpp
  palSz : (entryAt inp k).palSz.setWidth 32 = bi.palSz

theorem parseEntry_ok {inp : Bytes} {k : Nat} {bi : BmpInfo} (h : parseEntry inp k = .ok bi) : EntryChecked inp k bi := by
  simp only [parseEntry] at h
  split at h
  · exact absurd h (by simp)
  split at h
  · exact absurd h (by simp)
  rename_i b hb
  split at h
  · exact absurd h (by simp)
  split at h
  · exact absurd h (by simp)
  rename_i h1 h2 h3
  cases h
  exact ⟨by omega, verifyHeader_ok hb, by simpa using h2, by simpa using h3⟩

theorem parseEntry_of_checked {inp : Bytes} {k : Nat} {bi : BmpInfo} (h : EntryChecked inp k bi) :
    parseEntry inp k = .ok bi := by
  have hl : ¬ inp.len < (entryAt inp k).offset.toNat + 40 := by have := h.len; omega
  simp [parseEntry, hl, verifyHeader_of_checked k h.header, h.bpp, h.palSz]

theorem parseEntry_error {inp : Bytes} {k : Nat} {e : CmdError} (h : parseEntry inp k = .error e) : legalError e := by
  simp only [parseEntry] at h
  split at h
  · cases h; exact legalError_readShort _ _
  split at h
  · cases h; exact verifyHeader_error ‹_›
  split at h
  · cases h; exact legalError_fieldMismatch _ _ _
  split at h
  · cases h; exact legalError_fieldMismatch _ _ _
  · exact absurd h (by simp)

/-- What the entry loop answers: one entry per index with the BmpInfo of its embedded header. -/
theorem parseEntries_ok {inp : Bytes} {ks : List Nat} {es : List (TocEntry × BmpInfo)}
    (h : parseEntries inp ks = .ok es) :
    es = (ks.map fun k => (entryAt inp k, bmpInfoOf (headerAt inp (entryAt inp k).offset.toNat))) ∧
      ∀ k ∈ ks, EntryChecked inp k (bmpInfoOf (headerAt inp (entryAt inp k).offset.toNat)) := by
  induction ks generalizing es with
  | nil =>
    simp only [parseEntries] at h
    cases h
    exact ⟨rfl, by simp⟩
  | cons k ks ih =>
    simp only [parseEntries] at h
    split at h
    · exact absurd h (by simp)
    rename_i bi hb
    split at h
    · exact absurd h (by simp)
    rename_i rest hrest
    cases h
    have hc := parseEntry_ok hb
    have he := hc.header.eq
    subst he
    obtain ⟨rfl, hall⟩ := ih hrest
    refine ⟨rfl, fun j hj => ?_⟩
    rcases List.mem_cons.mp hj with rfl | hj
    · exact hc
    · exact hall j hj

theorem parseEntries_of_checked {inp : Bytes} {ks : List Nat}
    (h : ∀ k ∈ ks, EntryChecked inp k (bmpInfoOf (headerAt inp (entryAt inp k).offset.toNat))) :
    parseEntries inp ks =
      .ok (ks.map fun k => (entryAt inp k, bmpInfoOf (headerAt inp (entryAt inp k).offset.toNat))) := by
  induction ks with
  | nil => rfl
  | cons k ks ih =>
    simp [parseEntries, parseEntry_of_checked (h k (by simp)), ih fun j hj => h j (by simp [hj])]

theorem parseEntries_error {inp : Bytes} {ks : List Nat} {e : CmdError} (h : parseEntries inp ks = .error e) :
    legalError e := by
  induction ks with
  | nil => exact absurd h (by simp [parseEntries])
  | cons k ks ih =>
    simp only [parseEntries] at h
    split at h
    · cases h; exact parseEntry_error ‹_›
    · split at h
      · cases h; exact ih ‹_›
      · exact absurd h (by simp)

/-- The checks that an accepted file header has passed (R251 to R255). -/
structure IcoHeaderChecked (tocMax : Nat) (inp : Bytes) : Prop where
  len : 6 ≤ inp.len
  reserved : inp.rd16 0 = 0#16
  type : inp.rd16 2 = 1#16
  count : icoCount inp ≤ tocMax
  toc : 6 + 16 * icoCount inp ≤ inp.len

theorem parseIco_ok {tocMax : Nat} {inp : Bytes} {es : List (TocEntry × BmpInfo)} (h : parseIco tocMax inp = .ok es) :
    IcoHeaderChecked tocMax inp ∧ parseEntries inp (List.range (icoCount inp)) = .ok es := by
  simp only [parseIco] at h
  split at h
  · exact absurd h (by simp)
  split at h
  · exact absurd h (by simp)
  split at h
  · exact absurd h (by simp)
  split at h
  · exact absurd h (by simp)
  split at h
  · exact absurd h (by simp)
  rename_i h1 h2 h3 h4 h5
  exact ⟨⟨by omega, by simpa using h2, by simpa using h3, by omega, by omega⟩, h⟩

theorem parseIco_of_checked {tocMax : Nat} {inp : Bytes} (h : IcoHeaderChecked tocMax inp) :
    parseIco tocMax inp = parseEntries inp (List.range (icoCount inp)) := by
  have h1 : ¬ inp.len < 6 := by have := h.len; omega
  have h4 : ¬ icoCount inp > tocMax := by have := h.count; omega
  have h5 : ¬ inp.len < 6 + 16 * icoCount inp := by have := h.toc; omega
  simp only [parseIco, h1, h.reserved, h.type, h4, h5, if_false, ne_eq, not_true_eq_false]

theorem parseIco_error {tocMax : Nat} {inp : Bytes} {e : CmdError} (h : parseIco tocMax inp = .error e) :
    legalError e := by
  simp only [parseIco] at h
  split at h
  · cases h; exact legalError_readShort _ _
  split at h
  · cases h; exact legalError_verifyFailure _ _ _ _ (by simp)
  split at h
  · cases h; exact legalError_verifyFailure _ _ _ _ (by simp)
  split at h
  · cases h; exact legalError_allocationFailure _ _ _
  split at h
  · cases h; exact legalError_readShort _ _
  · exact parseEntries_error h

theorem parseIco_length {tocMax : Nat} {inp : Bytes} {es : List (TocEntry × BmpInfo)} (h : parseIco tocMax inp = .ok es) :
    es.length = icoCount inp ∧ es.length ≤ tocMax := by
  obtain ⟨hh, hp⟩ := parseIco_ok h
  have := (parseEntries_ok hp).1
  subst this
  exact ⟨by simp, by simpa using hh.count⟩

/-- Records of 64 bytes for every parsed entry. -/
theorem parsedRecords_length (inp : Bytes) (es : List (TocEntry × BmpInfo)) :
    (parsedRecords inp es).length = es.length ∧ ∀ r ∈ parsedRecords inp es, r.length = 64 := by
  refine ⟨by simp [parsedRecords], fun r hr => ?_⟩
  obtain ⟨i, hi, rfl⟩ := List.getElem_of_mem hr
  simp only [parsedRecords, List.getElem_map]
  exact tocRecord_length _ _ _ (by simp) (by simp [headerAt])

theorem decodeEntry_ok {inp : Bytes} {cap k : Nat} {e : TocEntry} {bi : BmpInfo} {d : List Byte}
    (h : decodeEntry inp cap k e bi = .ok d) : d.length ≤ cap := by
  simp only [decodeEntry] at h
  split at h
  · exact absurd h (by simp)
  split at h
  · exact absurd h (by simp)
  split at h
  · exact absurd h (by simp)
  split at h
  · exact absurd h (by simp)
  cases h
  simp only [decodeMasks_length]
  omega

theorem decodeEntry_error {inp : Bytes} {cap k : Nat} {e : TocEntry} {bi : BmpInfo} {err : CmdError}
    (h : decodeEntry inp cap k e bi = .error err) : legalError err := by
  simp only [decodeEntry] at h
  split at h
  · cases h; exact legalError_verifyFailure _ _ _ _ (by simp)
  split at h
  · cases h; exact legalError_verifyFailure _ _ _ _ (by simp)
  split at h
  · cases h; exact legalError_readShort _ _
  split at h
  · cases h; exact legalError_allocationFailure _ _ _
  · exact absurd h (by simp)

end Sys2Proof.Machine
end

