-- ==== Sys2Proof/Laws/State.lean ====
section
/-! SUPPORT. What each named update of the state does to each field, so that no proof unfolds a record update. -/

namespace Sys2Proof.Machine

section
variable (s : State) (v w : Word) (e : CmdError)

/-! ### `accept` -/

@[simp] theorem accept_params : (s.accept v).params = s.params := rfl
@[simp] theorem accept_cmd : (s.accept v).cmd = v := rfl
@[simp] theorem accept_status : (s.accept v).status = s.status.accepted (clears v .info) := rfl
@[simp] theorem accept_errField : (s.accept v).errField = 0 := rfl
@[simp] theorem accept_errValue : (s.accept v).errValue = 0 := rfl
@[simp] theorem accept_errIndex : (s.accept v).errIndex = 0 := rfl
@[simp] theorem accept_transp : (s.accept v).transp = s.transp := rfl
@[simp] theorem accept_nsrc : (s.accept v).nsrc = s.nsrc := rfl
@[simp] theorem accept_inBase : (s.accept v).inBase = s.inBase := rfl
@[simp] theorem accept_inLen : (s.accept v).inLen = s.inLen := rfl
@[simp] theorem accept_outLen : (s.accept v).outLen = if clears v .out then 0 else s.outLen := rfl
@[simp] theorem accept_tocCount : (s.accept v).tocCount = if clears v .toc then 0 else s.tocCount := rfl
@[simp] theorem accept_info : (s.accept v).info = if clears v .info then .unspecified s.draws else s.info := rfl
@[simp] theorem accept_inmem : (s.accept v).inmem = s.inmem := rfl
@[simp] theorem accept_outmem : (s.accept v).outmem = if clears v .out then Memory.unspecified s.draws else s.outmem := rfl
@[simp] theorem accept_srcdesc : (s.accept v).srcdesc = s.srcdesc := rfl
@[simp] theorem accept_tocram : (s.accept v).tocram = if clears v .toc then Memory.unspecified s.draws else s.tocram := rfl
@[simp] theorem accept_stepsLeft : (s.accept v).stepsLeft = Config.freeSteps s.draws := rfl
@[simp] theorem accept_draws : (s.accept v).draws = s.draws + 1 := rfl
@[simp] theorem accept_host : (s.accept v).host = s.host := rfl
@[simp] theorem accept_reads : (s.accept v).reads = s.reads := rfl

/-! ### `finish` -/

@[simp] theorem finish_params : (s.finish).params = s.params := rfl
@[simp] theorem finish_cmd : (s.finish).cmd = s.cmd := rfl
@[simp] theorem finish_status : (s.finish).status = s.status.completed := rfl
@[simp] theorem finish_errField : (s.finish).errField = s.errField := rfl
@[simp] theorem finish_errValue : (s.finish).errValue = s.errValue := rfl
@[simp] theorem finish_errIndex : (s.finish).errIndex = s.errIndex := rfl
@[simp] theorem finish_transp : (s.finish).transp = s.transp := rfl
@[simp] theorem finish_nsrc : (s.finish).nsrc = s.nsrc := rfl
@[simp] theorem finish_inBase : (s.finish).inBase = s.inBase := rfl
@[simp] theorem finish_inLen : (s.finish).inLen = s.inLen := rfl
@[simp] theorem finish_outLen : (s.finish).outLen = s.outLen := rfl
@[simp] theorem finish_tocCount : (s.finish).tocCount = s.tocCount := rfl
@[simp] theorem finish_info : (s.finish).info = s.info := rfl
@[simp] theorem finish_inmem : (s.finish).inmem = s.inmem := rfl
@[simp] theorem finish_outmem : (s.finish).outmem = s.outmem := rfl
@[simp] theorem finish_srcdesc : (s.finish).srcdesc = s.srcdesc := rfl
@[simp] theorem finish_tocram : (s.finish).tocram = s.tocram := rfl
@[simp] theorem finish_stepsLeft : (s.finish).stepsLeft = s.stepsLeft := rfl
@[simp] theorem finish_draws : (s.finish).draws = s.draws := rfl
@[simp] theorem finish_host : (s.finish).host = s.host := rfl
@[simp] theorem finish_reads : (s.finish).reads = s.reads := rfl

/-! ### `enterError` -/

@[simp] theorem enterError_params : (s.enterError e).params = s.params := rfl
@[simp] theorem enterError_cmd : (s.enterError e).cmd = s.cmd := rfl
@[simp] theorem enterError_status : (s.enterError e).status = s.status.failed e.kind e.reason := rfl
@[simp] theorem enterError_errField : (s.enterError e).errField = e.field.code := rfl
@[simp] theorem enterError_errValue : (s.enterError e).errValue = BitVec.ofNat 32 (sat32 e.value) := rfl
@[simp] theorem enterError_errIndex : (s.enterError e).errIndex = BitVec.ofNat 32 e.index := rfl
@[simp] theorem enterError_transp : (s.enterError e).transp = s.transp := rfl
@[simp] theorem enterError_nsrc : (s.enterError e).nsrc = s.nsrc := rfl
@[simp] theorem enterError_inBase : (s.enterError e).inBase = s.inBase := rfl
@[simp] theorem enterError_inLen : (s.enterError e).inLen = s.inLen := rfl
@[simp] theorem enterError_outLen : (s.enterError e).outLen = s.outLen := rfl
@[simp] theorem enterError_tocCount : (s.enterError e).tocCount = s.tocCount := rfl
@[simp] theorem enterError_info : (s.enterError e).info = s.info := rfl
@[simp] theorem enterError_inmem : (s.enterError e).inmem = s.inmem := rfl
@[simp] theorem enterError_outmem : (s.enterError e).outmem = s.outmem := rfl
@[simp] theorem enterError_srcdesc : (s.enterError e).srcdesc = s.srcdesc := rfl
@[simp] theorem enterError_tocram : (s.enterError e).tocram = s.tocram := rfl
@[simp] theorem enterError_stepsLeft : (s.enterError e).stepsLeft = s.stepsLeft := rfl
@[simp] theorem enterError_draws : (s.enterError e).draws = s.draws := rfl
@[simp] theorem enterError_host : (s.enterError e).host = s.host := rfl
@[simp] theorem enterError_reads : (s.enterError e).reads = s.reads := rfl

/-! ### `resetEvent` -/

@[simp] theorem resetEvent_params : (s.resetEvent).params = s.params := rfl
@[simp] theorem resetEvent_cmd : (s.resetEvent).cmd = 0 := rfl
@[simp] theorem resetEvent_status : (s.resetEvent).status = Status.reset := rfl
@[simp] theorem resetEvent_errField : (s.resetEvent).errField = 0 := rfl
@[simp] theorem resetEvent_errValue : (s.resetEvent).errValue = 0 := rfl
@[simp] theorem resetEvent_errIndex : (s.resetEvent).errIndex = 0 := rfl
@[simp] theorem resetEvent_transp : (s.resetEvent).transp = 0 := rfl
@[simp] theorem resetEvent_nsrc : (s.resetEvent).nsrc = 0 := rfl
@[simp] theorem resetEvent_inBase : (s.resetEvent).inBase = 0 := rfl
@[simp] theorem resetEvent_inLen : (s.resetEvent).inLen = 0 := rfl
@[simp] theorem resetEvent_outLen : (s.resetEvent).outLen = 0 := rfl
@[simp] theorem resetEvent_tocCount : (s.resetEvent).tocCount = 0 := rfl
@[simp] theorem resetEvent_info : (s.resetEvent).info = .held BmpInfo.zero := rfl
@[simp] theorem resetEvent_inmem : (s.resetEvent).inmem = s.inmem := rfl
@[simp] theorem resetEvent_outmem : (s.resetEvent).outmem = s.outmem := rfl
@[simp] theorem resetEvent_srcdesc : (s.resetEvent).srcdesc = s.srcdesc := rfl
@[simp] theorem resetEvent_tocram : (s.resetEvent).tocram = s.tocram := rfl
@[simp] theorem resetEvent_stepsLeft : (s.resetEvent).stepsLeft = 0 := rfl
@[simp] theorem resetEvent_draws : (s.resetEvent).draws = s.draws := rfl
@[simp] theorem resetEvent_host : (s.resetEvent).host = s.host := rfl
@[simp] theorem resetEvent_reads : (s.resetEvent).reads = s.reads := rfl

/-! ### `received` -/

@[simp] theorem received_params : (s.received w).params = s.params := rfl
@[simp] theorem received_cmd : (s.received w).cmd = s.cmd := rfl
@[simp] theorem received_status : (s.received w).status = s.status := rfl
@[simp] theorem received_errField : (s.received w).errField = s.errField := rfl
@[simp] theorem received_errValue : (s.received w).errValue = s.errValue := rfl
@[simp] theorem received_errIndex : (s.received w).errIndex = s.errIndex := rfl
@[simp] theorem received_transp : (s.received w).transp = s.transp := rfl
@[simp] theorem received_nsrc : (s.received w).nsrc = s.nsrc := rfl
@[simp] theorem received_inBase : (s.received w).inBase = s.inBase := rfl
@[simp] theorem received_inLen : (s.received w).inLen = s.inLen := rfl
@[simp] theorem received_outLen : (s.received w).outLen = s.outLen := rfl
@[simp] theorem received_tocCount : (s.received w).tocCount = s.tocCount := rfl
@[simp] theorem received_info : (s.received w).info = s.info := rfl
@[simp] theorem received_inmem : (s.received w).inmem = s.inmem := rfl
@[simp] theorem received_outmem : (s.received w).outmem = s.outmem := rfl
@[simp] theorem received_srcdesc : (s.received w).srcdesc = s.srcdesc := rfl
@[simp] theorem received_tocram : (s.received w).tocram = s.tocram := rfl
@[simp] theorem received_stepsLeft : (s.received w).stepsLeft = s.stepsLeft := rfl
@[simp] theorem received_draws : (s.received w).draws = s.draws := rfl
@[simp] theorem received_host : (s.received w).host = s.host := rfl
@[simp] theorem received_reads : (s.received w).reads = w :: s.reads := rfl

/-! ### `drawn` -/

@[simp] theorem drawn_params : (s.drawn).params = s.params := rfl
@[simp] theorem drawn_cmd : (s.drawn).cmd = s.cmd := rfl
@[simp] theorem drawn_status : (s.drawn).status = s.status := rfl
@[simp] theorem drawn_errField : (s.drawn).errField = s.errField := rfl
@[simp] theorem drawn_errValue : (s.drawn).errValue = s.errValue := rfl
@[simp] theorem drawn_errIndex : (s.drawn).errIndex = s.errIndex := rfl
@[simp] theorem drawn_transp : (s.drawn).transp = s.transp := rfl
@[simp] theorem drawn_nsrc : (s.drawn).nsrc = s.nsrc := rfl
@[simp] theorem drawn_inBase : (s.drawn).inBase = s.inBase := rfl
@[simp] theorem drawn_inLen : (s.drawn).inLen = s.inLen := rfl
@[simp] theorem drawn_outLen : (s.drawn).outLen = s.outLen := rfl
@[simp] theorem drawn_tocCount : (s.drawn).tocCount = s.tocCount := rfl
@[simp] theorem drawn_info : (s.drawn).info = s.info := rfl
@[simp] theorem drawn_inmem : (s.drawn).inmem = s.inmem := rfl
@[simp] theorem drawn_outmem : (s.drawn).outmem = s.outmem := rfl
@[simp] theorem drawn_srcdesc : (s.drawn).srcdesc = s.srcdesc := rfl
@[simp] theorem drawn_tocram : (s.drawn).tocram = s.tocram := rfl
@[simp] theorem drawn_stepsLeft : (s.drawn).stepsLeft = s.stepsLeft := rfl
@[simp] theorem drawn_draws : (s.drawn).draws = s.draws + 1 := rfl
@[simp] theorem drawn_host : (s.drawn).host = s.host := rfl
@[simp] theorem drawn_reads : (s.drawn).reads = s.reads := rfl

/-! ### `putInfo` -/

@[simp] theorem putInfo_none : s.putInfo none = s := rfl
@[simp] theorem putInfo_params (o : Option (BmpInfo)) : (s.putInfo o).params = s.params := by cases o <;> rfl
@[simp] theorem putInfo_cmd (o : Option (BmpInfo)) : (s.putInfo o).cmd = s.cmd := by cases o <;> rfl
@[simp] theorem putInfo_some_status (x : BmpInfo) : (s.putInfo (some x)).status = s.status.withInfo := rfl
@[simp] theorem putInfo_errField (o : Option (BmpInfo)) : (s.putInfo o).errField = s.errField := by cases o <;> rfl
@[simp] theorem putInfo_errValue (o : Option (BmpInfo)) : (s.putInfo o).errValue = s.errValue := by cases o <;> rfl
@[simp] theorem putInfo_errIndex (o : Option (BmpInfo)) : (s.putInfo o).errIndex = s.errIndex := by cases o <;> rfl
@[simp] theorem putInfo_transp (o : Option (BmpInfo)) : (s.putInfo o).transp = s.transp := by cases o <;> rfl
@[simp] theorem putInfo_nsrc (o : Option (BmpInfo)) : (s.putInfo o).nsrc = s.nsrc := by cases o <;> rfl
@[simp] theorem putInfo_inBase (o : Option (BmpInfo)) : (s.putInfo o).inBase = s.inBase := by cases o <;> rfl
@[simp] theorem putInfo_inLen (o : Option (BmpInfo)) : (s.putInfo o).inLen = s.inLen := by cases o <;> rfl
@[simp] theorem putInfo_outLen (o : Option (BmpInfo)) : (s.putInfo o).outLen = s.outLen := by cases o <;> rfl
@[simp] theorem putInfo_tocCount (o : Option (BmpInfo)) : (s.putInfo o).tocCount = s.tocCount := by cases o <;> rfl
@[simp] theorem putInfo_some_info (x : BmpInfo) : (s.putInfo (some x)).info = .held x := rfl
@[simp] theorem putInfo_inmem (o : Option (BmpInfo)) : (s.putInfo o).inmem = s.inmem := by cases o <;> rfl
@[simp] theorem putInfo_outmem (o : Option (BmpInfo)) : (s.putInfo o).outmem = s.outmem := by cases o <;> rfl
@[simp] theorem putInfo_srcdesc (o : Option (BmpInfo)) : (s.putInfo o).srcdesc = s.srcdesc := by cases o <;> rfl
@[simp] theorem putInfo_tocram (o : Option (BmpInfo)) : (s.putInfo o).tocram = s.tocram := by cases o <;> rfl
@[simp] theorem putInfo_stepsLeft (o : Option (BmpInfo)) : (s.putInfo o).stepsLeft = s.stepsLeft := by cases o <;> rfl
@[simp] theorem putInfo_draws (o : Option (BmpInfo)) : (s.putInfo o).draws = s.draws := by cases o <;> rfl
@[simp] theorem putInfo_host (o : Option (BmpInfo)) : (s.putInfo o).host = s.host := by cases o <;> rfl
@[simp] theorem putInfo_reads (o : Option (BmpInfo)) : (s.putInfo o).reads = s.reads := by cases o <;> rfl

/-! ### `putOut` -/

@[simp] theorem putOut_none : s.putOut none = s := rfl
@[simp] theorem putOut_params (o : Option (List Byte)) : (s.putOut o).params = s.params := by cases o <;> rfl
@[simp] theorem putOut_cmd (o : Option (List Byte)) : (s.putOut o).cmd = s.cmd := by cases o <;> rfl
@[simp] theorem putOut_status (o : Option (List Byte)) : (s.putOut o).status = s.status := by cases o <;> rfl
@[simp] theorem putOut_errField (o : Option (List Byte)) : (s.putOut o).errField = s.errField := by cases o <;> rfl
@[simp] theorem putOut_errValue (o : Option (List Byte)) : (s.putOut o).errValue = s.errValue := by cases o <;> rfl
@[simp] theorem putOut_errIndex (o : Option (List Byte)) : (s.putOut o).errIndex = s.errIndex := by cases o <;> rfl
@[simp] theorem putOut_transp (o : Option (List Byte)) : (s.putOut o).transp = s.transp := by cases o <;> rfl
@[simp] theorem putOut_nsrc (o : Option (List Byte)) : (s.putOut o).nsrc = s.nsrc := by cases o <;> rfl
@[simp] theorem putOut_inBase (o : Option (List Byte)) : (s.putOut o).inBase = s.inBase := by cases o <;> rfl
@[simp] theorem putOut_inLen (o : Option (List Byte)) : (s.putOut o).inLen = s.inLen := by cases o <;> rfl
@[simp] theorem putOut_some_outLen (x : List Byte) : (s.putOut (some x)).outLen = BitVec.ofNat 32 x.length := rfl
@[simp] theorem putOut_tocCount (o : Option (List Byte)) : (s.putOut o).tocCount = s.tocCount := by cases o <;> rfl
@[simp] theorem putOut_info (o : Option (List Byte)) : (s.putOut o).info = s.info := by cases o <;> rfl
@[simp] theorem putOut_inmem (o : Option (List Byte)) : (s.putOut o).inmem = s.inmem := by cases o <;> rfl
@[simp] theorem putOut_some_outmem (x : List Byte) : (s.putOut (some x)).outmem = s.outmem.write 0 x := rfl
@[simp] theorem putOut_srcdesc (o : Option (List Byte)) : (s.putOut o).srcdesc = s.srcdesc := by cases o <;> rfl
@[simp] theorem putOut_tocram (o : Option (List Byte)) : (s.putOut o).tocram = s.tocram := by cases o <;> rfl
@[simp] theorem putOut_stepsLeft (o : Option (List Byte)) : (s.putOut o).stepsLeft = s.stepsLeft := by cases o <;> rfl
@[simp] theorem putOut_draws (o : Option (List Byte)) : (s.putOut o).draws = s.draws := by cases o <;> rfl
@[simp] theorem putOut_host (o : Option (List Byte)) : (s.putOut o).host = s.host := by cases o <;> rfl
@[simp] theorem putOut_reads (o : Option (List Byte)) : (s.putOut o).reads = s.reads := by cases o <;> rfl

/-! ### `putToc` -/

@[simp] theorem putToc_none : s.putToc none = s := rfl
@[simp] theorem putToc_params (o : Option (List (List Byte))) : (s.putToc o).params = s.params := by cases o <;> rfl
@[simp] theorem putToc_cmd (o : Option (List (List Byte))) : (s.putToc o).cmd = s.cmd := by cases o <;> rfl
@[simp] theorem putToc_status (o : Option (List (List Byte))) : (s.putToc o).status = s.status := by cases o <;> rfl
@[simp] theorem putToc_errField (o : Option (List (List Byte))) : (s.putToc o).errField = s.errField := by cases o <;> rfl
@[simp] theorem putToc_errValue (o : Option (List (List Byte))) : (s.putToc o).errValue = s.errValue := by cases o <;> rfl
@[simp] theorem putToc_errIndex (o : Option (List (List Byte))) : (s.putToc o).errIndex = s.errIndex := by cases o <;> rfl
@[simp] theorem putToc_transp (o : Option (List (List Byte))) : (s.putToc o).transp = s.transp := by cases o <;> rfl
@[simp] theorem putToc_nsrc (o : Option (List (List Byte))) : (s.putToc o).nsrc = s.nsrc := by cases o <;> rfl
@[simp] theorem putToc_inBase (o : Option (List (List Byte))) : (s.putToc o).inBase = s.inBase := by cases o <;> rfl
@[simp] theorem putToc_inLen (o : Option (List (List Byte))) : (s.putToc o).inLen = s.inLen := by cases o <;> rfl
@[simp] theorem putToc_outLen (o : Option (List (List Byte))) : (s.putToc o).outLen = s.outLen := by cases o <;> rfl
@[simp] theorem putToc_some_tocCount (x : List (List Byte)) : (s.putToc (some x)).tocCount = BitVec.ofNat 32 x.length := rfl
@[simp] theorem putToc_info (o : Option (List (List Byte))) : (s.putToc o).info = s.info := by cases o <;> rfl
@[simp] theorem putToc_inmem (o : Option (List (List Byte))) : (s.putToc o).inmem = s.inmem := by cases o <;> rfl
@[simp] theorem putToc_outmem (o : Option (List (List Byte))) : (s.putToc o).outmem = s.outmem := by cases o <;> rfl
@[simp] theorem putToc_srcdesc (o : Option (List (List Byte))) : (s.putToc o).srcdesc = s.srcdesc := by cases o <;> rfl
@[simp] theorem putToc_some_tocram (x : List (List Byte)) : (s.putToc (some x)).tocram = s.tocram.write 0 x.flatten := rfl
@[simp] theorem putToc_stepsLeft (o : Option (List (List Byte))) : (s.putToc o).stepsLeft = s.stepsLeft := by cases o <;> rfl
@[simp] theorem putToc_draws (o : Option (List (List Byte))) : (s.putToc o).draws = s.draws := by cases o <;> rfl
@[simp] theorem putToc_host (o : Option (List (List Byte))) : (s.putToc o).host = s.host := by cases o <;> rfl
@[simp] theorem putToc_reads (o : Option (List (List Byte))) : (s.putToc o).reads = s.reads := by cases o <;> rfl

/-! ### `complete` -/

theorem complete_ok (r : Results) :
    s.complete (.ok r) = (((s.putInfo r.info).putOut r.out).putToc r.toc).finish := rfl

theorem complete_error : s.complete (.error e) = s.enterError e := rfl

@[simp] theorem complete_params (r : Except CmdError Results) : (s.complete r).params = s.params := by
  cases r <;> simp [State.complete]
@[simp] theorem complete_cmd (r : Except CmdError Results) : (s.complete r).cmd = s.cmd := by
  cases r <;> simp [State.complete]
@[simp] theorem complete_transp (r : Except CmdError Results) : (s.complete r).transp = s.transp := by
  cases r <;> simp [State.complete]
@[simp] theorem complete_nsrc (r : Except CmdError Results) : (s.complete r).nsrc = s.nsrc := by
  cases r <;> simp [State.complete]
@[simp] theorem complete_inBase (r : Except CmdError Results) : (s.complete r).inBase = s.inBase := by
  cases r <;> simp [State.complete]
@[simp] theorem complete_inLen (r : Except CmdError Results) : (s.complete r).inLen = s.inLen := by
  cases r <;> simp [State.complete]
@[simp] theorem complete_inmem (r : Except CmdError Results) : (s.complete r).inmem = s.inmem := by
  cases r <;> simp [State.complete]
@[simp] theorem complete_srcdesc (r : Except CmdError Results) : (s.complete r).srcdesc = s.srcdesc := by
  cases r <;> simp [State.complete]
@[simp] theorem complete_stepsLeft (r : Except CmdError Results) : (s.complete r).stepsLeft = s.stepsLeft := by
  cases r <;> simp [State.complete]
@[simp] theorem complete_draws (r : Except CmdError Results) : (s.complete r).draws = s.draws := by
  cases r <;> simp [State.complete]
@[simp] theorem complete_host (r : Except CmdError Results) : (s.complete r).host = s.host := by
  cases r <;> simp [State.complete]
@[simp] theorem complete_reads (r : Except CmdError Results) : (s.complete r).reads = s.reads := by
  cases r <;> simp [State.complete]

/-! ### STATUS -/

@[simp] theorem accepted_busy (st : Status) (b : Bool) : (st.accepted b).busy = true := rfl
@[simp] theorem accepted_done (st : Status) (b : Bool) : (st.accepted b).done = false := rfl
@[simp] theorem accepted_err (st : Status) (b : Bool) : (st.accepted b).err = false := rfl
@[simp] theorem accepted_infoV (st : Status) (b : Bool) : (st.accepted b).infoV = if b then false else st.infoV := rfl
@[simp] theorem accepted_wdrop (st : Status) (b : Bool) : (st.accepted b).wdrop = false := rfl
@[simp] theorem accepted_kind (st : Status) (b : Bool) : (st.accepted b).kind = 0 := rfl
@[simp] theorem accepted_reason (st : Status) (b : Bool) : (st.accepted b).reason = 0 := rfl
@[simp] theorem completed_busy (st : Status) : st.completed.busy = false := rfl
@[simp] theorem completed_done (st : Status) : st.completed.done = true := rfl
@[simp] theorem completed_err (st : Status) : st.completed.err = st.err := rfl
@[simp] theorem completed_infoV (st : Status) : st.completed.infoV = st.infoV := rfl
@[simp] theorem completed_wdrop (st : Status) : st.completed.wdrop = st.wdrop := rfl
@[simp] theorem completed_kind (st : Status) : st.completed.kind = st.kind := rfl
@[simp] theorem completed_reason (st : Status) : st.completed.reason = st.reason := rfl
@[simp] theorem failed_busy (st : Status) (k : ErrKind) (r : ErrReason) : (st.failed k r).busy = false := rfl
@[simp] theorem failed_done (st : Status) (k : ErrKind) (r : ErrReason) : (st.failed k r).done = true := rfl
@[simp] theorem failed_err (st : Status) (k : ErrKind) (r : ErrReason) : (st.failed k r).err = true := rfl
@[simp] theorem failed_infoV (st : Status) (k : ErrKind) (r : ErrReason) : (st.failed k r).infoV = st.infoV := rfl
@[simp] theorem failed_wdrop (st : Status) (k : ErrKind) (r : ErrReason) : (st.failed k r).wdrop = st.wdrop := rfl
@[simp] theorem failed_kind (st : Status) (k : ErrKind) (r : ErrReason) : (st.failed k r).kind = k.code := rfl
@[simp] theorem failed_reason (st : Status) (k : ErrKind) (r : ErrReason) : (st.failed k r).reason = r.code := rfl
@[simp] theorem withInfo_infoV (st : Status) : st.withInfo.infoV = true := rfl
@[simp] theorem withInfo_busy (st : Status) : st.withInfo.busy = st.busy := rfl
@[simp] theorem withInfo_done (st : Status) : st.withInfo.done = st.done := rfl
@[simp] theorem withInfo_err (st : Status) : st.withInfo.err = st.err := rfl
@[simp] theorem withInfo_wdrop (st : Status) : st.withInfo.wdrop = st.wdrop := rfl
@[simp] theorem withInfo_kind (st : Status) : st.withInfo.kind = st.kind := rfl
@[simp] theorem withInfo_reason (st : Status) : st.withInfo.reason = st.reason := rfl
@[simp] theorem dropped_wdrop (st : Status) : st.dropped.wdrop = true := rfl
@[simp] theorem dropped_busy (st : Status) : st.dropped.busy = st.busy := rfl
@[simp] theorem dropped_done (st : Status) : st.dropped.done = st.done := rfl
@[simp] theorem dropped_err (st : Status) : st.dropped.err = st.err := rfl
@[simp] theorem dropped_infoV (st : Status) : st.dropped.infoV = st.infoV := rfl
@[simp] theorem dropped_kind (st : Status) : st.dropped.kind = st.kind := rfl
@[simp] theorem dropped_reason (st : Status) : st.dropped.reason = st.reason := rfl

end

end Sys2Proof.Machine
end

