-- ==== Sys2Proof/Laws/Step.lean ====
section
/-! SUPPORT. What a step can do, said once: the outcome of a command's rule, the completion step, a host access, and the
four kinds of step. -/

namespace Sys2Proof.Machine

/-! ## Commands -/

/-- The outcome of the rule of a command: its results or its error (10_state.md R55). -/
def outcomeOf : Instr → State → Except CmdError Results
  | .nop, _ => .ok Results.nothing
  | .verify k bpp dim, s => runVerify k bpp dim s
  | .encode k, s => runEncode k s
  | .assemble, s => runAssemble s
  | .parse, s => runParse s
  | .decode k, s => runDecode k s

/-- Every command is the completion step of its rule's outcome. -/
theorem exec_eq (i : Instr) (s : State) : exec i s = .next (s.complete (outcomeOf i s)) := by cases i <;> rfl

/-- The outcome of the word in CMD. -/
def wordOutcome (v : Word) (s : State) : Except CmdError Results :=
  match decode v with
  | some i => outcomeOf i s
  | none => .error (illegalError v)

theorem completionStep_eq (s : State) : completionStep s = .next (s.complete (wordOutcome s.cmd s)) := by
  unfold completionStep wordOutcome
  cases decode s.cmd with
  | none => rfl
  | some i => exact exec_eq i s

/-- A command's results lie in its write set (R50). -/
theorem outcome_groups {i : Instr} {s : State} {r : Results} (h : outcomeOf i s = .ok r) :
    (r.info.isSome = true ↔ .info ∈ writeSet (some i)) ∧ (r.out.isSome = true ↔ .out ∈ writeSet (some i)) ∧
      (r.toc.isSome = true ↔ .toc ∈ writeSet (some i)) := by
  cases i with
  | nop => cases h; simp [writeSet, Results.nothing]
  | verify k bpp dim =>
    simp only [outcomeOf, runVerify] at h
    split at h
    · exact absurd h (by simp)
    split at h
    · exact absurd h (by simp)
    cases h
    simp [writeSet]
  | encode k =>
    obtain ⟨bi, -, -, -, rfl⟩ := runEncode_ok h
    simp [writeSet]
  | assemble =>
    obtain ⟨cs, -, -, -, -, -, rfl⟩ := runAssemble_ok h
    simp [writeSet]
  | parse =>
    simp only [outcomeOf, runParse] at h
    split at h
    · exact absurd h (by simp)
    cases h
    simp [writeSet]
  | decode k =>
    simp only [outcomeOf, runDecode] at h
    split at h
    · exact absurd h (by simp)
    split at h
    · exact absurd h (by simp)
    split at h
    · exact absurd h (by simp)
    cases h
    simp [writeSet]

/-- The size of the results: OUT fits OUTMEM, TOC is a list of at most TOC_MAX records of 64 bytes, and INFO is a
verified header. -/
structure ResultsFit (p : Params) (r : Results) : Prop where
  info : ∀ bi, r.info = some bi → bi.headerSz = 40#32 ∧ bi.compression = 0#32 ∧ bi.palSz ≠ 0#32
  out : ∀ bs, r.out = some bs → bs.length ≤ p.outCap
  tocCount : ∀ rs, r.toc = some rs → rs.length ≤ p.tocMax
  tocRecord : ∀ rs, r.toc = some rs → ∀ k, (h : k < rs.length) →
    ∃ entry header, entry.length = 16 ∧ header.length = 40 ∧ rs[k] = tocRecord entry header k

theorem parsedRecords_form (inp : Bytes) (es : List (TocEntry × BmpInfo)) (k : Nat)
    (h : k < (parsedRecords inp es).length) :
    ∃ entry header, entry.length = 16 ∧ header.length = 40 ∧ (parsedRecords inp es)[k] = tocRecord entry header k := by
  simp only [parsedRecords, List.getElem_map, List.getElem_zipIdx, Nat.zero_add]
  exact ⟨_, _, by simp, by simp [headerAt], rfl⟩

theorem assembledRecords_form (t : Byte) (cs : List Checked) (k : Nat)
    (h : k < (assembledRecords (asmImage t cs) (offsets (infosOf cs))).length) :
    ∃ entry header, entry.length = 16 ∧ header.length = 40 ∧
      (assembledRecords (asmImage t cs) (offsets (infosOf cs)))[k] = tocRecord entry header k := by
  have hk : k < cs.length := by simpa [assembledRecords] using h
  simp only [assembledRecords, List.getElem_map, List.getElem_zipIdx, Nat.zero_add]
  refine ⟨_, _, ?_, ?_, rfl⟩
  · rw [asmImage_entry t cs k hk]
    rfl
  · have := (assembledRecords_length t cs).2 _ (List.getElem_mem h)
    simp only [assembledRecords, List.getElem_map, List.getElem_zipIdx, Nat.zero_add, tocRecord, List.length_append,
      le32_length] at this
    rw [asmImage_entry t cs k hk, tocEntryBytes_length] at this
    omega

theorem outcome_fits {i : Instr} {s : State} {r : Results} (h : outcomeOf i s = .ok r) : ResultsFit s.params r := by
  cases i with
  | nop =>
    cases h
    exact ⟨by simp [Results.nothing], by simp [Results.nothing], by simp [Results.nothing], by simp [Results.nothing]⟩
  | verify k bpp dim =>
    simp only [outcomeOf, runVerify] at h
    split at h
    · exact absurd h (by simp)
    split at h
    · exact absurd h (by simp)
    rename_i bi hb
    have hc := verifyHeader_ok hb
    cases h
    refine ⟨fun b hb => ?_, by simp, by simp, by simp⟩
    cases hb
    exact ⟨hc.headerSz, hc.compression, hc.palSz⟩
  | encode k =>
    obtain ⟨bi, hc, -, hn, rfl⟩ := runEncode_ok h
    refine ⟨fun b hb => ?_, fun bs hbs => ?_, by simp, by simp⟩
    · cases hb
      exact ⟨hc.headerSz, hc.compression, hc.palSz⟩
    · cases hbs
      simpa using hn
  | assemble =>
    obtain ⟨cs, hcs, -, -, hmax, hlen, rfl⟩ := runAssemble_ok h
    refine ⟨by simp, fun bs hbs => ?_, fun rs hrs => ?_, fun rs hrs k hk => ?_⟩
    · cases hbs
      simpa [asmImage_length] using hlen
    · cases hrs
      rw [(assembledRecords_length _ _).1, (checkSources_ok hcs).1]
      simpa using hmax
    · cases hrs
      exact assembledRecords_form _ _ _ hk
  | parse =>
    simp only [outcomeOf, runParse] at h
    split at h
    · exact absurd h (by simp)
    rename_i es hes
    cases h
    refine ⟨by simp, by simp, fun rs hrs => ?_, fun rs hrs k hk => ?_⟩
    · cases hrs
      rw [(parsedRecords_length _ _).1]
      exact (parseIco_length hes).2
    · cases hrs
      exact parsedRecords_form _ _ _ hk
  | decode k =>
    simp only [outcomeOf, runDecode] at h
    split at h
    · exact absurd h (by simp)
    rename_i es hes
    split at h
    · exact absurd h (by simp)
    split at h
    · exact absurd h (by simp)
    rename_i d hd
    cases h
    refine ⟨by simp, fun bs hbs => ?_, fun rs hrs => ?_, fun rs hrs k hk => ?_⟩
    · cases hbs
      exact decodeEntry_ok hd
    · cases hrs
      rw [(parsedRecords_length _ _).1]
      exact (parseIco_length hes).2
    · cases hrs
      exact parsedRecords_form _ _ _ hk

/-- Every error a command raises is one of the core's. -/
theorem outcome_error {i : Instr} {s : State} {e : CmdError} (h : outcomeOf i s = .error e) : legalError e := by
  cases i with
  | nop => cases h
  | verify k bpp dim =>
    simp only [outcomeOf, runVerify] at h
    split at h
    · cases h; exact checkSource_error ‹_›
    split at h
    · cases h; exact verifyHeader_error ‹_›
    · exact absurd h (by simp)
  | encode k =>
    simp only [outcomeOf, runEncode] at h
    split at h
    · cases h; exact checkSource_error ‹_›
    split at h
    · cases h; exact checkStrict_error ‹_›
    split at h
    · cases h; exact legalError_allocationFailure _ _ _
    · exact absurd h (by simp)
  | assemble =>
    simp only [outcomeOf, runAssemble] at h
    split at h
    · cases h; exact legalError_usageError _ _ _
    split at h
    · cases h; exact legalError_allocationFailure _ _ _
    split at h
    · cases h; exact checkSources_error ‹_›
    split at h
    · cases h; exact legalError_allocationFailure _ _ _
    · exact absurd h (by simp)
  | parse =>
    simp only [outcomeOf, runParse] at h
    split at h
    · cases h; exact parseIco_error ‹_›
    · exact absurd h (by simp)
  | decode k =>
    simp only [outcomeOf, runDecode] at h
    split at h
    · cases h; exact parseIco_error ‹_›
    split at h
    · cases h; exact legalError_usageError _ _ _
    split at h
    · cases h; exact decodeEntry_error ‹_›
    · exact absurd h (by simp)

theorem wordOutcome_error {v : Word} {s : State} {e : CmdError} (h : wordOutcome v s = .error e) : legalError e := by
  unfold wordOutcome at h
  cases hd : decode v with
  | none =>
    rw [hd] at h
    cases h
    simp [legalError, illegalError]
  | some i =>
    rw [hd] at h
    exact outcome_error h

theorem wordOutcome_ok {v : Word} {s : State} {r : Results} (h : wordOutcome v s = .ok r) :
    ∃ i, decode v = some i ∧ outcomeOf i s = .ok r := by
  unfold wordOutcome at h
  cases hd : decode v with
  | none => rw [hd] at h; cases h
  | some i => rw [hd] at h; exact ⟨i, rfl, h⟩

theorem clears_iff {v : Word} {g : Group} : clears v g = true ↔ g ∈ writeSet (decode v) := by simp [clears]

/-! ## Host accesses -/

theorem registerFault_none {width offset : Nat} :
    registerFault width offset = none ↔ width = 32 ∧ offset % 4 = 0 ∧ offset < 4096 := by
  unfold registerFault
  split
  · simp; omega
  · split
    · simp; omega
    · simp; omega

/-- Everything a host access with a next state can be. -/
theorem hostAccess_cases {op : HostOp} {s t : State} (h : hostAccess op s = .next t) :
    (∃ o v, op = .writeReg 32 o v ∧ o % 4 = 0 ∧ o < 4096 ∧ t = s.hostWriteReg o v) ∨
    (∃ o, op = .readReg 32 o ∧ o % 4 = 0 ∧ o < 4096 ∧ t = s.hostReadReg o) ∨
    (∃ sp a b, op = .writeByte sp a b ∧ a < memSize s.params sp ∧ t = s.hostWriteByte sp a b) ∨
    (∃ sp a, op = .readByte sp a ∧ a < memSize s.params sp ∧ t = s.hostReadByte sp a) ∨
    (op = .wait ∧ s.status.busy = true ∧ t = { s.received s.status.word with host := .wait :: s.host }) ∨
    (op = .wait ∧ s.status.busy = false ∧ t = s.received s.status.word) ∨
    (op = .reset ∧ t = s.resetEvent) := by
  cases op with
  | writeReg w o v =>
    simp only [hostAccess] at h
    split at h
    · cases h
    · rename_i hf
      obtain ⟨rfl, h4, hlt⟩ := registerFault_none.mp hf
      cases h
      exact .inl ⟨o, v, rfl, h4, hlt, rfl⟩
  | readReg w o =>
    simp only [hostAccess] at h
    split at h
    · cases h
    · rename_i hf
      obtain ⟨rfl, h4, hlt⟩ := registerFault_none.mp hf
      cases h
      exact .inr (.inl ⟨o, rfl, h4, hlt, rfl⟩)
  | writeByte sp a b =>
    simp only [hostAccess] at h
    split at h
    · cases h
      exact .inr (.inr (.inl ⟨sp, a, b, rfl, ‹_›, rfl⟩))
    · cases h
  | readByte sp a =>
    simp only [hostAccess] at h
    split at h
    · cases h
      exact .inr (.inr (.inr (.inl ⟨sp, a, rfl, ‹_›, rfl⟩)))
    · cases h
  | wait =>
    simp only [hostAccess] at h
    split at h
    · rename_i hb
      cases h
      exact .inr (.inr (.inr (.inr (.inl ⟨rfl, hb, rfl⟩))))
    · rename_i hb
      cases h
      exact .inr (.inr (.inr (.inr (.inr (.inl ⟨rfl, by simpa using hb, rfl⟩)))))
  | reset =>
    simp only [hostAccess] at h
    cases h
    exact .inr (.inr (.inr (.inr (.inr (.inr ⟨rfl, rfl⟩)))))

/-- The register at an offset, if there is one, has that offset. -/
theorem regAt_some {o : Nat} {r : Reg} (h : regAt o = some r) : regOffset r = o := by
  have := List.find?_some h
  simpa using this

/-- Every register is found at its offset (10_state.md R32, R51). -/
theorem regAt_regOffset (r : Reg) : regAt (regOffset r) = some r := by
  cases r with
  | info f => cases f <;> rfl
  | _ => rfl

/-- What a register write does while BUSY = 0. -/
theorem setReg_cases (s : State) (o : Nat) (v : Word) :
    (o = 0x000 ∧ s.setReg o v = s.accept v) ∨ (o = 0x014 ∧ s.setReg o v = { s with transp := v.extractLsb' 0 8 }) ∨
    (o = 0x018 ∧ s.setReg o v = { s with nsrc := v }) ∨ (o = 0x01C ∧ s.setReg o v = { s with inBase := v }) ∨
    (o = 0x020 ∧ s.setReg o v = { s with inLen := v }) ∨ s.setReg o v = s := by
  unfold State.setReg
  cases h : regAt o with
  | none => simp
  | some r =>
    have ho := (regAt_some h).symm
    cases r with
    | cmd => exact .inl ⟨ho, rfl⟩
    | transp => exact .inr (.inl ⟨ho, rfl⟩)
    | nsrc => exact .inr (.inr (.inl ⟨ho, rfl⟩))
    | inBase => exact .inr (.inr (.inr (.inl ⟨ho, rfl⟩)))
    | inLen => exact .inr (.inr (.inr (.inr (.inl ⟨ho, rfl⟩))))
    | _ => simp

/-! ## Steps -/

/-- The four kinds of step: the completion step, an internal step with a host access, an idle block with a host access,
and a block with nothing to do but wait for its host or its internal steps. -/
theorem step_cases {s t : State} (h : step s = .next t) :
    (s.status.busy = true ∧ s.stepsLeft = 0 ∧ t = s.complete (wordOutcome s.cmd s)) ∨
    (∃ n, s.status.busy = true ∧ s.stepsLeft = n + 1 ∧ hostStep { s with stepsLeft := n } = .next t) ∨
    (s.status.busy = false ∧ hostStep s = .next t) := by
  unfold step at h
  split at h
  · rename_i hb
    split at h
    · rename_i h0
      rw [completionStep_eq] at h
      cases h
      exact .inl ⟨hb, h0, rfl⟩
    · rename_i n hn
      exact .inr (.inl ⟨n, hb, hn, h⟩)
  · rename_i hb
    exact .inr (.inr ⟨by simpa using hb, h⟩)

theorem hostStep_cases {s t : State} (h : hostStep s = .next t) :
    (s.host = [] ∧ t = s) ∨ ∃ op rest, s.host = op :: rest ∧ hostAccess op { s with host := rest } = .next t := by
  unfold hostStep at h
  split at h
  · rename_i hh
    cases h
    exact .inl ⟨hh, rfl⟩
  · rename_i op rest hh
    exact .inr ⟨op, rest, hh, h⟩

end Sys2Proof.Machine
end

