-- ==== Sys2Proof/Tests/Slice0.lean ====
section
/-! SUPPORT. The model's own tests: ill-formed terms, words written out from the encodings of 30_encoding.md, single
commands against vectors of 95_test_vectors.md, and for every statement with hypotheses a witness that meets them. -/

namespace Sys2Proof.Tests

open Sys2Proof.Machine Sys2Proof.Claims

/-! ## Helpers -/

/-- The state of a next outcome. -/
def after : Host.Outcome State Fault Refusal → Option State
  | .next t => some t
  | _ => none

/-- A 40-byte info-header with the planes, xres and yres of 95_test_vectors.md section 0 and image size 256. -/
def header (size w h bpp comp pal : Nat) : List Byte :=
  le32 size ++ le32 w ++ le32 h ++ le16 1 ++ le16 bpp ++ le32 comp ++ le32 256 ++ le32 2835 ++ le32 2835 ++ le32 pal ++
    le32 0

/-- `V1`'s header: 16x16, 8 bpp, 16 colours. -/
def v1 : List Byte := header 40 16 16 8 0 16

/-- A 16x16 source with one colour: header, the colour-table entry 00 00 00 00, pixel bytes. -/
def picture (px : Nat → Nat) : List Byte :=
  header 40 16 16 8 0 1 ++ le32 0 ++ (List.range 256).map fun i => BitVec.ofNat 8 (px i)

/-- A running block whose INMEM starts with the given bytes and whose SRCDESC starts with the given descriptors. -/
def running (inm : List Byte) (descs : List (Nat × Nat)) (inLen : Nat) : State :=
  { State.reset with
    status := { Status.reset with busy := true }
    inmem := { cells := cellsFrom 0 inm, draw := 0 }
    srcdesc := { cells := cellsFrom 0 (descs.map fun d => le32 d.1 ++ le32 d.2).flatten, draw := 0 }
    nsrc := BitVec.ofNat 32 descs.length
    inLen := BitVec.ofNat 32 inLen }

/-- A running block with one source, all of INMEM's bytes. -/
def oneSource (src : List Byte) : State := running src [(0, src.length)] 0

/-- A running block whose ICO input is the given file. -/
def oneFile (file : List Byte) : State := running file [] file.length

/-- An idle block with a host that makes one access. -/
def idleWith (op : HostOp) : State := { State.reset with host := [op] }

/-- A 94-byte ICO file with one 16x16 entry of `pal` colours in the entry and `hpal` in the header, `bpp` bits in the
entry and `hbpp` in the header, a header of size `hs` with compression `comp`, at offset `o`. -/
def smallFile (reserved type count pal bpp hs hbpp comp hpal o : Nat) : List Byte :=
  le16 reserved ++ le16 type ++ le16 count ++
    (le8 16 ++ le8 16 ++ le8 pal ++ le8 0 ++ le16 1 ++ le16 bpp ++ le32 72 ++ le32 o) ++ header hs 16 32 hbpp comp hpal ++
    List.replicate 32 0#8

/-- STATUS, ERR_FIELD, ERR_VALUE, ERR_INDEX as numbers. -/
def report (s : State) : Nat × Nat × Nat × Nat :=
  (s.status.word.toNat, s.errField.toNat, s.errValue.toNat, s.errIndex.toNat)

/-! ## Well-formedness: ill-formed terms are refused -/

theorem test_wellFormed_refuses_verify_index : (Instr.verify 65536 true true).wellFormed = false := by decide
theorem test_wellFormed_refuses_encode_index : (Instr.encode 65536).wellFormed = false := by decide
theorem test_wellFormed_refuses_decode_index : (Instr.decode 65536).wellFormed = false := by decide

/-! ## Decoding: words written out from R110 and the opcode map of R116 -/

theorem test_decode_nop : decode 0b00000000000000000000000000000000#32 = some .nop := by decide
theorem test_decode_verify_strict : decode 0b00000000000000000000001100000001#32 = some (.verify 0 true true) := by decide
theorem test_decode_verify_relaxed : decode 0b11111111111111110000000000000001#32 = some (.verify 65535 false false) := by
  decide
theorem test_decode_verify_bpp : decode 0b00000000000000100000000100000001#32 = some (.verify 2 true false) := by decide
theorem test_decode_verify_dim : decode 0b10000000000000000000001000000001#32 = some (.verify 32768 false true) := by decide
theorem test_decode_encode : decode 0b00000000000001010000000000000010#32 = some (.encode 5) := by decide
theorem test_decode_assemble : decode 0b00000000000000000000000000000011#32 = some .assemble := by decide
theorem test_decode_parse : decode 0b00000000000000000000000000000100#32 = some .parse := by decide
theorem test_decode_decode : decode 0b00000001000000000000000000000101#32 = some (.decode 256) := by decide

/-- T-S3 to T-S7 and one word for every other clause of R117. -/
theorem test_decode_illegal :
    [0x000000FF#32, 0x00000006#32, 0x00000103#32, 0x00010000#32, 0x00000401#32, 0x00008001#32, 0x00000102#32, 0x00000205#32,
      0x00000804#32, 0x80000003#32, 0x00010004#32, 0xFFFFFFFF#32].map decode = List.replicate 12 none := by decide

/-- The host's numbering of a row's bits gives the same commands. -/
theorem test_decodeTableWord : decodeTableWord 32 0x00010005 = some (.decode 1) ∧ decodeTableWord 32 0x301 =
    some (.verify 0 true true) ∧ decodeTableWord 32 0x103 = none := by decide

/-- The encodings of P1 to P4 of 95_test_vectors.md section 8. -/
theorem test_encode_words : [Instr.verify 0 true true, .verify 0 false false, .encode 0, .assemble, .parse, .decode 1,
    .nop].map encode = [0x301#32, 0x1#32, 0x2#32, 0x3#32, 0x4#32, 0x10005#32, 0x0#32] := by decide

/-! ## Assembly text (R150, R151) -/

/-- Lines of section 8 and T-V11, with the words written beside them there. -/
theorem test_assembly_lines :
    ["VERIFY.S 0", "VERIFY.R 0", "VERIFY 0, BPP", "VERIFY 0, DIM", "VERIFY.S 1 ; comment", "ENCODE 0", "ASSEMBLE", "PARSE",
      "DECODE 1", "NOP", ".word 0x00000103"].map (fun l => (assembleLine l.toList).map AsmLine.word) =
    [some 0x301#32, some 0x1#32, some 0x101#32, some 0x201#32, some 0x10301#32, some 0x2#32, some 0x3#32, some 0x4#32,
      some 0x10005#32, some 0x0#32, some 0x103#32] := by decide

theorem test_assembly_flags_in_either_order :
    assembleLine "VERIFY 3, DIM, BPP".toList = some (.command (.verify 3 true true)) ∧
    assembleLine "VERIFY 3, BPP, DIM".toList = some (.command (.verify 3 true true)) := by decide

theorem test_assembly_refuses :
    ["ENCODE 65536", "ENCODE", "NOP 0", "VERIFY 0, BPP, BPP", ".word 0x100000000", "FOO"].map
      (fun l => assembleLine l.toList) = List.replicate 6 none := by decide

/-! ## Single commands against the vectors -/

/-- T-S1. -/
theorem test_nop : (after (step (State.reset.withFetchWord 32 0x00000000))).map report = some (0x2, 0, 0, 0) := by decide

/-- T-S5. -/
theorem test_illegal_word : (after (step (State.reset.withFetchWord 32 0x00000103))).map report = some (0x706, 13, 0x103, 0) := by
  decide

/-- T-V1: STATUS and the INFO registers. -/
theorem test_verify_passes : (after (exec (.verify 0 true true) (oneSource v1))).map (fun t => (report t,
    [0x030, 0x034, 0x040, 0x048, 0x04C, 0x054].map t.regWord)) =
    some ((0x0A, 0, 0, 0), [40#32, 16#32, 8#32, 256#32, 2835#32, 16#32]) := by decide +kernel

/-- T-V10: the first check wins. -/
theorem test_verify_first_check_wins : (after (exec (.verify 0 true true) (oneSource (header 12 16 16 8 1 16)))).map report =
    some (0x00010506, 1, 12, 0) := by decide +kernel

/-- T-C13 with one colour: rows 01 23 45 67 89 AB CD EF and 80 00 00 00 (T-C10), OUT_LEN 192. -/
theorem test_encode_rows : (after (exec (.encode 0) (oneSource (picture (· % 16))))).map (fun t => (t.status.word, t.outLen,
    [0, 1, 2, 7, 127, 128, 129, 130, 188].map (t.outmem.byte .outmem))) =
    some (0x0A#32, 192#32, [0x01#8, 0x23#8, 0x45#8, 0xEF#8, 0xEF#8, 0x80#8, 0#8, 0#8, 0x80#8]) := by decide +kernel

/-- T-C18: ENCODE is strict. -/
theorem test_encode_is_strict : (after (exec (.encode 0) (oneSource (header 40 16 16 4 0 16)))).map report =
    some (0x00020506, 4, 4, 0) := by decide +kernel

/-- T-A1 with one colour: header, entry (size 40 + 4 + 128 + 64 = 236, offset 22) and OUT_LEN 258. -/
theorem test_assemble_file : (after (exec .assemble (oneSource (picture (· % 16))))).map (fun t => (t.status.word, t.outLen,
    t.tocCount, (List.range 22).map (t.outmem.byte .outmem), (List.range 8).map fun j => t.tocram.byte .tocram (56 + j))) =
    some (0x02#32, 258#32, 1#32, [0, 0, 1, 0, 1, 0, 16, 16, 1, 0, 1, 0, 4, 0, 236, 0, 0, 0, 22, 0, 0, 0],
      [18, 0, 0, 0, 0, 0, 0, 0]) := by decide +kernel

/-- T-A3. -/
theorem test_assemble_no_sources : (after (exec .assemble (running [] [] 0))).map report = some (0x106, 14, 0, 0) := by decide

/-- T-R1's shape: one record, its entry bytes, its header bytes and PATCH_POS 18 (R141). -/
theorem test_parse_record : (after (exec .parse (oneFile (smallFile 0 1 1 1 4 40 4 0 1 22)))).map (fun t => (t.status.word,
    t.tocCount, [0, 2, 6, 8, 12, 16, 24, 48, 56, 60].map (t.tocram.byte .tocram))) =
    some (0x02#32, 1#32, [16, 1, 4, 72, 22, 40, 32, 1, 18, 0]) := by decide +kernel

/-- T-R9's shape: palette byte 15 against a header palette size of 16. -/
theorem test_parse_palette_mismatch : (after (exec .parse (oneFile (smallFile 0 1 1 15 4 40 4 0 16 22)))).map report =
    some (0x606, 11, 15, 0) := by decide +kernel

/-- T-C20: the decoded bytes; row 0's pad bytes `FF FF` are not read. -/
theorem test_decode_masks : (decodeMasks (Bytes.ofList [0xA5#8, 0x0F#8]) (Bytes.ofList [0x40#8, 0#8, 0xFF#8, 0xFF#8]) 16 1).take 10 =
    [0x0A#8, 0x15#8, 0x00#8, 0x0F#8, 0#8, 0#8, 0#8, 0#8, 0#8, 0#8] := by decide +kernel

/-- T-R15: an index at the count. -/
theorem test_decode_index : (after (exec (.decode 1) (oneFile (smallFile 0 1 1 1 4 40 4 0 1 22)))).map report =
    some (0x106, 15, 1, 1) := by decide +kernel

/-- T-C1 to T-C7: one XOR byte from a pixel pair. -/
theorem test_pixel_pairs : ([(0x12, 0x34, 0), (0x10, 0x0F, 0), (0xFF, 0x0D, 13), (0x0D, 0x0D, 13), (0x00, 0x05, 0), (0x1D, 0x0D, 13),
    (0x0D, 0x1D, 0x1D)] : List (Byte × Byte × Byte)).map (fun p => xorByte (Bytes.ofList [p.1, p.2.1]) p.2.2 0) =
    [0x24, 0x0F, 0xF0, 0x00, 0x05, 0xD0, 0xD0] := by decide

/-- T-C9: the AND row of a 32-pixel row. -/
theorem test_and_row : andMask (Bytes.ofList ((List.range 32).map fun i => if i = 0 ∨ i = 8 ∨ i = 31 then 9 else 1)) 32 1 9 =
    [0x80, 0x80, 0x00, 0x01] := by decide +kernel

/-! ## Host accesses -/

/-- T-H2: TRANSP is unchanged and WDROP is set. -/
theorem test_write_while_busy : (after (hostAccess (.writeReg 32 0x014 5) (running [] [] 0))).map (fun t => (t.transp, t.status.word)) =
    some (0#8, 0x11#32) := by decide

/-- T-S10 and T-S9. -/
theorem test_reserved_and_id : (after (hostAccess (.readReg 32 0x100) State.reset)).map State.reads = some [0#32] ∧
    (after (hostAccess (.readReg 32 0x02C) State.reset)).map State.reads = some [0x49430701#32] := by decide

/-- P1's `DESC 0, 0x0000, 360` stands for the bytes 00 00 00 00 68 01 00 00 of SRCDESC. -/
theorem test_desc_line : (HostLine.desc 0 0 360).ops = writeBytesOps .srcdesc 0 [0, 0, 0, 0, 0x68, 1, 0, 0] := by decide

/-- The encoder sequence of one file strips 14 bytes, ends its commands with P2's ASSEMBLE word, and takes the output with
ERR = 0 only (R351, R352). -/
theorem test_encoder_sequence : encoderSequence 13 [(0x1000, List.replicate 14 0xFF#8 ++ [0x28#8])] ⟨0x02, 2⟩ =
    .writeByte .inmem 0x1000 0x28 :: writeBytesOps .srcdesc 0 [0, 0x10, 0, 0, 1, 0, 0, 0] ++
      [.writeReg 32 0x018 1, .writeReg 32 0x014 13, .writeReg 32 0x000 3, .wait, .readReg 32 0x024, .readByte .outmem 0,
        .readByte .outmem 1] ∧
    encoderSequence 13 [] ⟨0x106, 0⟩ = [.writeReg 32 0x018 0, .writeReg 32 0x014 13, .writeReg 32 0x000 3, .wait] := by decide

/-- The decoder sequence with P2's command words: TOC_COUNT and the records after PARSE, each DECODE's pixels before the next
DECODE, no DECODE at or past TOC_COUNT, and nothing after a PARSE that failed (R353). -/
theorem test_decoder_sequence : decoderSequence 0x8000 [] ⟨0x02, 2⟩ [(0, 2), (1, 1), (2, 9)] =
    [.writeReg 32 0x01C 0x8000, .writeReg 32 0x020 0, .writeReg 32 0x000 0x00000004, .wait, .readReg 32 0x028] ++
      readBytesOps .tocram 0 128 ++
      [.writeReg 32 0x000 0x00000005, .wait, .readReg 32 0x024, .readByte .outmem 0, .readByte .outmem 1,
        .writeReg 32 0x000 0x00010005, .wait, .readReg 32 0x024, .readByte .outmem 0] ∧
    decoderSequence 0x8000 [] ⟨0x606, 0⟩ [(0, 2)] =
      [.writeReg 32 0x01C 0x8000, .writeReg 32 0x020 0, .writeReg 32 0x000 0x00000004, .wait] := by decide +kernel

/-! ## Witnesses: concrete states and operands that meet the hypotheses of each statement -/

/-! ### Encoding -/

theorem witness_DecodeOfEncode : (Instr.verify 65535 true false).wellFormed = true ∧ (Instr.decode 0).wellFormed = true := by
  decide

theorem witness_EncodeOfDecode : decode 0xFFFF0005#32 = some (.decode 65535) := by decide

theorem witness_OpcodeRowsNeverOverlap : rowVerify ∈ opcodeMap ∧ rowVerify.fits 0xFFFF0301#32 = true := by decide

/-! ### The command lifecycle -/

theorem witness_StepRunsTheDecodedCommand_legal : (oneSource v1).status.busy = true ∧ (oneSource v1).stepsLeft = 0 ∧
    decode (oneSource v1).cmd = some .nop := by decide

theorem witness_StepRunsTheDecodedCommand_illegal :
    ∃ s : State, s.status.busy = true ∧ s.stepsLeft = 0 ∧ decode s.cmd = none :=
  ⟨{ running [] [] 0 with cmd := 0x103 }, by decide⟩

theorem witness_StepRunsTheDecodedCommand_internal : ∃ s : State, s.status.busy = true ∧ s.stepsLeft = 0 + 1 :=
  ⟨{ running [] [] 0 with stepsLeft := 1 }, by decide⟩

theorem witness_StepRunsTheDecodedCommand_idle : State.reset.status.busy = false ∧ (Instr.encode 65535).wellFormed = true := by
  decide

theorem witness_AcceptStep : State.reset.status.busy = false ∧ touchesInfo (decode 0x301) = true ∧
    touchesOut (decode 0x301) = false ∧ touchesOut (decode 3) = true ∧ touchesToc (decode 3) = true ∧
    touchesInfo (decode 3) = false ∧ touchesToc (decode 2) = false := by decide

/-- PARSE leaves INFO and OUT, VERIFY leaves TOC. -/
theorem witness_WriteSetFrame : (∃ t, completionStep (State.reset.accept 4) = .next t) ∧
    (∃ t, completionStep (State.reset.accept 1) = .next t) ∧ touchesInfo (decode 4) = false ∧ touchesOut (decode 4) = false ∧
    touchesToc (decode 1) = false := ⟨⟨_, rfl⟩, ⟨_, rfl⟩, by decide⟩

theorem witness_StoresStayBelowTheReportedLength : (oneSource (picture id)).params.Valid ∧
    (∃ t, exec .assemble (oneSource (picture id)) = .next t) ∧
    (oneSource (picture id)).outLen.toNat ≤ (oneSource (picture id)).params.outCap ∧
    (oneSource (picture id)).tocCount.toNat ≤ (oneSource (picture id)).params.tocMax := by
  refine ⟨?_, ⟨_, rfl⟩, ?_, ?_⟩ <;> decide

/-- With NSRC 0, ENCODE and ASSEMBLE end in a UsageError. -/
theorem witness_ErrorEntry : (∃ t, completionStep (State.reset.accept 2) = .next t ∧ t.status.err = true) ∧
    (∃ t, completionStep (State.reset.accept 3) = .next t ∧ t.status.err = true) ∧ touchesInfo (decode 2) = true ∧
    touchesOut (decode 3) = true ∧ touchesToc (decode 3) = true := ⟨⟨_, rfl, rfl⟩, ⟨_, rfl, rfl⟩, by decide⟩

theorem witness_CoreNeverReportsFileOpenFailure :
    ∃ t, completionStep (State.reset.accept 0x103) = .next t ∧ t.status.err = true := ⟨_, rfl, rfl⟩

/-- A running command with one internal step left, in which the host's write of TRANSP lands. -/
def interrupted : State := { running [] [] 0 with cmd := 3, stepsLeft := 1, host := [.writeReg 32 0x014 5, .wait] }

theorem witness_RunningCommandCompletes : interrupted.status.busy = true ∧ interrupted.stepsLeft = 1 ∧ interrupted.hostValid ∧
    HostOp.reset ∉ interrupted.host := by
  refine ⟨rfl, rfl, ?_, by decide⟩
  intro op h
  simp only [interrupted, List.mem_cons, List.not_mem_nil, or_false] at h
  rcases h with h | h <;> subst h
  · exact ⟨rfl, rfl, by decide⟩
  · trivial

theorem witness_HostAccessesNeverChangeARunningCommand : HostOp.reset ∉ interrupted.host ∧
    (∃ t, Host.Core.run Sys2Proof.core 2 interrupted = .next t) ∧ ∃ u, completionStep interrupted = .next u :=
  ⟨by decide, ⟨_, rfl⟩, ⟨_, rfl⟩⟩

/-- The same inputs, different results left over. -/
theorem witness_ResultsDependOnlyOnTheInputs : ∃ s u : State, SameInputs s u ∧ s.status.err = false ∧ u.status.err = false ∧
    (∃ t, exec (.verify 0 true true) s = .next t ∧ t.status.err = false) ∧
    (∃ t, exec (.verify 0 true true) u = .next t ∧ t.status.err = false) ∧ s ≠ u :=
  ⟨oneSource v1, { oneSource v1 with outLen := 7 }, ⟨rfl, rfl, rfl, rfl, rfl, fun _ _ => rfl, fun _ _ => rfl⟩, rfl, rfl,
    ⟨_, rfl, by decide +kernel⟩, ⟨_, rfl, by decide +kernel⟩, by decide +kernel⟩

theorem witness_OnlyACommandWriteSetsBusy : ∃ s t : State, step s = .next t ∧ s.status.busy = false ∧ t.status.busy = true :=
  ⟨idleWith (.writeReg 32 0 0x301), _, rfl, rfl, rfl⟩

theorem witness_InputsAreFrozenWhileBusy : (∃ t, step interrupted = .next t) ∧ interrupted.status.busy = true ∧
    interrupted.host.head? ≠ some .reset := ⟨⟨_, rfl⟩, rfl, by decide⟩

theorem witness_ResetMeetsTheInvariant : Params.reference.Valid ∧ Params.Valid { inmemSize := 1, outCap := 1, srcMax := 1, tocMax := 1 } ∧
    Params.Valid { inmemSize := 4294967295, outCap := 4294967295, srcMax := 65535, tocMax := 65535 } := by decide

/-- An idle block whose host writes CMD next. -/
theorem witness_StepKeepsTheInvariant : Inv (idleWith (.writeReg 32 0 0x301)) ∧
    ∃ t, step (idleWith (.writeReg 32 0 0x301)) = .next t := by
  refine ⟨?_, _, rfl⟩
  constructor <;> simp [idleWith, State.reset, State.resetWith, Status.reset, Params.reference, Memory.powerOn, Memory.wf, cellsRise,
    Params.Valid]

theorem witness_ValidHostNeverFaults : (idleWith (.writeReg 32 0xFFC 0)).hostValid ∧ (idleWith (.readByte .outmem 65535)).hostValid := by
  refine ⟨fun op h => ?_, fun op h => ?_⟩ <;> simp only [idleWith, List.mem_singleton] at h <;> subst h
  · exact ⟨rfl, rfl, by decide⟩
  · show 65535 < 65536; decide

/-! ### Registers and host accesses -/

theorem witness_WritesWhileBusyAreDropped : (running [] [] 0).status.busy = true ∧ 0xFFC % 4 = 0 ∧ 0xFFC < 4096 ∧
    65535 < memSize (running [] [] 0).params .inmem ∧ 127 < memSize (running [] [] 0).params .srcdesc ∧
    State.reset.status.busy = false := by decide

theorem witness_RegisterMapReads : State.reset.status.busy = false ∧ State.reset.info = .held BmpInfo.zero := by decide

theorem witness_IdReadsItsConstant : State.reset.status.busy = false := rfl

theorem witness_ReservedOffsetsAndBits : (0x05C ≤ 0x05C ∧ 0x05C ≤ 0xFFC ∧ 0x05C % 4 = 0) ∧ (0x05C ≤ 0xFFC ∧ 0xFFC ≤ 0xFFC ∧ 0xFFC % 4 = 0) ∧
    State.reset.status.busy = false ∧ (running [] [] 0).status.busy = true ∧
    (0xFFFFFF05#32).extractLsb' 0 8 = (0x00000005#32).extractLsb' 0 8 := by decide

theorem witness_IdleHostAccesses : State.reset.status.busy = false ∧ 65535 < State.reset.params.inmemSize ∧
    127 < 8 * State.reset.params.srcMax ∧ 65535 < State.reset.params.outCap ∧ 1023 < 64 * State.reset.params.tocMax ∧
    1023 < memSize State.reset.params .tocram ∧ Reg.id ≠ .cmd ∧ Reg.id ≠ .transp ∧ Reg.id ≠ .nsrc ∧ Reg.id ≠ .inBase ∧
    Reg.id ≠ .inLen := by decide

theorem witness_ReadsWhileBusy : (running [] [] 0).status.busy = true ∧ (∀ f, Reg.status ≠ .info f) ∧
    65535 < memSize (running [] [] 0).params .outmem ∧ 1023 < memSize (running [] [] 0).params .tocram ∧
    65535 < memSize (running [] [] 0).params .inmem ∧ 127 < memSize (running [] [] 0).params .srcdesc := by
  refine ⟨rfl, fun f h => (nomatch h), ?_⟩; decide

theorem witness_HostFaults : ((8 ≠ 32 ∨ 0 % 4 ≠ 0) ∧ (32 ≠ 32 ∨ 2 % 4 ≠ 0)) ∧ (4096 % 4 = 0 ∧ 4096 ≤ 4096) ∧ (4092 % 4 = 0 ∧ 4092 < 4096) ∧
    memSize State.reset.params .tocram ≤ 1024 ∧ 1023 < memSize State.reset.params .tocram := by decide

/-! ### The inputs of a command -/

/-- T-V17's descriptor: 20 of 360 bytes lie inside INMEM; and a base past INMEM. -/
theorem witness_SourceView : ∃ s : State, ∀ k base len, (k = 0 ∧ base = 65516 ∧ len = 360 ∨ k = 1 ∧ base = 70000 ∧ len = 360) →
    base = (s.srcdesc.byte .srcdesc (8 * k)).toNat + 256 * (s.srcdesc.byte .srcdesc (8 * k + 1)).toNat +
      65536 * (s.srcdesc.byte .srcdesc (8 * k + 2)).toNat + 16777216 * (s.srcdesc.byte .srcdesc (8 * k + 3)).toNat ∧
    len = (s.srcdesc.byte .srcdesc (8 * k + 4)).toNat + 256 * (s.srcdesc.byte .srcdesc (8 * k + 5)).toNat +
      65536 * (s.srcdesc.byte .srcdesc (8 * k + 6)).toNat + 16777216 * (s.srcdesc.byte .srcdesc (8 * k + 7)).toNat ∧
    (k = 0 → 19 < (s.src k).len) ∧ (k = 1 → (s.src k).len = 0) := by
  refine ⟨running [] [(65516, 360), (70000, 360)] 0, ?_⟩
  rintro k base len (⟨rfl, rfl, rfl⟩ | ⟨rfl, rfl, rfl⟩) <;> decide +kernel

theorem witness_IcoInputView : 5 < (running [] [] 6).icoInput.len := by decide +kernel

/-! ### NOP, the illegal word, VERIFY -/

theorem witness_NopCompletes : State.reset.status.busy = false := rfl

theorem witness_IllegalWordCompletes : State.reset.status.busy = false ∧ decode 0x00000401#32 = none := by decide

theorem witness_VerifyCompletes : OperandsOk (oneSource v1) 0 ∧ HeaderPasses ((oneSource v1).src 0) true true ∧
    HeaderPasses ((oneSource (header 40 24 9 4 0 1)).src 0) false false := by
  unfold OperandsOk HeaderPasses; decide +kernel

/-- One state for each clause, in the statement's order (T-V13, T-V2, T-V3, T-V5, T-V6, T-V8, T-V9). -/
theorem witness_VerifyReportsTheFirstFailingCheck : OperandsOk (oneSource v1) 0 ∧ ((running v1 [(0, 39)] 0).src 0).len < 40 ∧
    ((oneSource (header 12 16 16 8 0 16)).src 0).rd32 0 ≠ 40#32 ∧ ((oneSource (header 40 16 16 4 0 16)).src 0).rd16 14 ≠ 8#16 ∧
    (((oneSource (header 40 24 24 8 0 16)).src 0).rd32 4 ≠ 16#32 ∧ ((oneSource (header 40 24 24 8 0 16)).src 0).rd32 4 ≠ 32#32) ∧
    (((oneSource (header 40 16 32 8 0 16)).src 0).rd32 4 = 16#32 ∧
      ((oneSource (header 40 16 32 8 0 16)).src 0).rd32 8 ≠ ((oneSource (header 40 16 32 8 0 16)).src 0).rd32 4) ∧
    ((oneSource (header 40 16 16 8 1 16)).src 0).rd32 16 ≠ 0#32 ∧
    (((oneSource (header 40 16 16 8 0 0)).src 0).rd32 16 = 0#32 ∧ ((oneSource (header 40 16 16 8 0 0)).src 0).rd32 32 = 0#32) := by
  unfold OperandsOk; decide +kernel

/-- T-V15 and T-V16. -/
theorem witness_SourceCommandsCheckTheirOperands :
    (∃ s : State, s.params.srcMax < s.nsrc.toNat) ∧ ∃ s : State, s.nsrc.toNat ≤ s.params.srcMax ∧ s.nsrc.toNat ≤ 1 :=
  ⟨⟨{ running [] [] 0 with nsrc := 17 }, by decide⟩, ⟨oneSource v1, by decide⟩⟩

/-- Two buffers that differ at offset 40 only. -/
theorem witness_VerifierReadsOnlyTheHeader : ∃ b c : Bytes, (b.len < 40 ↔ c.len < 40) ∧ (40 ≤ b.len → ∀ j < 40, b.byte j = c.byte j) ∧
    40 ≤ b.len ∧ b.byte 40 ≠ c.byte 40 :=
  ⟨Bytes.ofList (v1 ++ [1]), Bytes.ofList (v1 ++ [2]), by decide +kernel⟩

/-! ### The mask codec -/

theorem witness_XorPacking : (16 = 16 ∨ 16 = 32) ∧ 255 < 16 * 16 ∧ (32 = 16 ∨ 32 = 32) ∧ 1023 < 32 * 32 := by decide

theorem witness_AndPackingAndPadding : (16 = 16 ∨ 16 = 32) ∧ 15 < 16 ∧ 16 / 8 ≤ 2 ∧ 3 < 4 ∧ (32 = 16 ∨ 32 = 32) ∧ 31 < 32 := by decide

theorem witness_LoopFormWritesTheSameMasks : (16 = 16 ∨ 16 = 32) ∧ (32 = 16 ∨ 32 = 32) := by decide

theorem witness_DecodedPixelByte : 127 < 16 * 8 := by decide

theorem witness_CodecRoundTrip : (32 = 16 ∨ 32 = 32) ∧ 1023 < 32 * 32 ∧ (15#8).toNat ≤ 15 ∧ 15#8 ≠ 0#8 := by decide

/-- T-C20's row and the same row without its pad bytes. -/
theorem witness_DecodeSkipsThePadding : ∃ b c : Bytes, (∀ r < 1, b.byte (4 * r) = c.byte (4 * r) ∧ b.byte (4 * r + 1) = c.byte (4 * r + 1)) ∧
    b.byte 2 ≠ c.byte 2 := ⟨Bytes.ofList [0x40#8, 0#8, 0xFF#8, 0xFF#8], Bytes.ofList [0x40#8, 0#8, 0#8, 0#8], by decide +kernel⟩

/-! ### ENCODE and ASSEMBLE -/

theorem witness_EncodeCompletes : OperandsOk (oneSource (picture id)) 0 ∧ SourceReady ((oneSource (picture id)).src 0) ∧
    widthOf ((oneSource (picture id)).src 0) / 2 * heightOf ((oneSource (picture id)).src 0) +
      4 * heightOf ((oneSource (picture id)).src 0) ≤ (oneSource (picture id)).params.outCap := by
  unfold OperandsOk SourceReady HeaderPasses widthOf heightOf paletteOf; decide +kernel

/-- A source whose masks do not fit OUTMEM (T-C17's OUT_CAP). -/
def tightOutput : State := { oneSource (picture id) with params := { Params.reference with outCap := 100 } }

/-- T-C18, T-C16 and T-C17, in the statement's order. -/
theorem witness_EncodeErrorsInOrder : OperandsOk (oneSource v1) 0 ∧ (oneSource v1).status.err = false ∧
    (∃ e, FailsWith (.verify 0 true true) (oneSource (header 40 16 16 4 0 16)) e) ∧
    (HeaderPasses ((oneSource v1).src 0) true true ∧ ((oneSource v1).src 0).len < 40 + 4 * 16 + 16 * 16) ∧
    OperandsOk tightOutput 0 ∧ SourceReady (tightOutput.src 0) ∧
    tightOutput.params.outCap < widthOf (tightOutput.src 0) / 2 * heightOf (tightOutput.src 0) + 4 * heightOf (tightOutput.src 0) := by
  refine ⟨?_, rfl, ⟨verifyFailure .unsupportedBpp .bpp 4 0, rfl⟩, ?_⟩
  · unfold OperandsOk; decide +kernel
  · unfold OperandsOk SourceReady HeaderPasses widthOf heightOf paletteOf; decide +kernel

theorem witness_AssembleCompletes : 1 ≤ (oneSource (picture id)).nsrc.toNat ∧
    (oneSource (picture id)).nsrc.toNat ≤ (oneSource (picture id)).params.srcMax ∧
    (oneSource (picture id)).nsrc.toNat ≤ (oneSource (picture id)).params.tocMax ∧
    (∀ k < (oneSource (picture id)).nsrc.toNat, SourceReady ((oneSource (picture id)).src k)) ∧
    fileLength (infosOf (sources (oneSource (picture id)))) ≤ (oneSource (picture id)).params.outCap := by
  unfold SourceReady HeaderPasses widthOf heightOf paletteOf; decide +kernel

/-- T-A3, T-A4, T-A5, T-A6, T-A8 and T-A7 with smaller sources, in the statement's order. -/
theorem witness_AssembleErrorsInOrder : (running [] [] 0).nsrc.toNat = 0 ∧
    (∃ s : State, s.params.srcMax < s.nsrc.toNat) ∧
    (∃ s : State, 1 ≤ s.nsrc.toNat ∧ s.nsrc.toNat ≤ s.params.srcMax ∧ s.params.tocMax < s.nsrc.toNat) ∧
    (∃ s : State, s.nsrc.toNat = 2 ∧ SourceReady (s.src 0) ∧ ∃ e, FailsWith (.verify 1 true true) s e) ∧
    (HeaderPasses ((oneSource v1).src 0) true true ∧ ((oneSource v1).src 0).len < 40 + 4 * 16 + 16 * 16) ∧
    (1 ≤ tightOutput.nsrc.toNat ∧ (∀ k < tightOutput.nsrc.toNat, SourceReady (tightOutput.src k)) ∧
      tightOutput.params.outCap < fileLength (infosOf (sources tightOutput))) := by
  refine ⟨by decide, ⟨{ running [] [] 0 with nsrc := 17 }, by decide⟩,
    ⟨{ running [] [] 0 with nsrc := 2, params := { Params.reference with tocMax := 1 } }, by decide⟩,
    ⟨running (header 40 32 32 8 1 16 ++ picture id) [(40, 300), (0, 40)] 0, by decide, ?_, verifyFailure .unsupportedCompression .compression 1 1, rfl⟩, ?_⟩
  all_goals unfold SourceReady HeaderPasses widthOf heightOf paletteOf; decide +kernel

/-- Two checked sources: the pictures of every pixel index and of the transparent one. -/
def twoSources : List Checked :=
  [picture id, picture fun _ => 13].map fun l => { src := Bytes.ofList l, bi := bmpInfoOf (Bytes.ofList l) }

theorem twoSources_ready : AllReady twoSources := by
  intro c hc
  simp only [twoSources, List.map_cons, List.map_nil, List.mem_cons, List.not_mem_nil, or_false] at hc
  rcases hc with hc | hc <;> subst hc <;> refine ⟨?_, rfl⟩ <;> unfold SourceReady HeaderPasses widthOf heightOf paletteOf <;>
    decide +kernel

theorem witness_AssembledFileIsSelfConsistent : fileLength (infosOf twoSources) ≤ 4294967295 ∧ 1 < twoSources.length := by
  decide +kernel

theorem witness_AssembledFileBytes : AllReady twoSources ∧ twoSources.length ≤ 65535 ∧ 1 < twoSources.length :=
  ⟨twoSources_ready, by decide⟩

theorem ofList_holds (l : List Byte) : Holds (Bytes.ofList l) l := by
  refine ⟨Nat.le_refl _, fun j h => ?_⟩
  simp [Bytes.ofList, h]

theorem witness_AssembledFileParses : AllReady twoSources ∧ (∀ c ∈ twoSources, c.bi.palSz.toNat ≤ 255) ∧ twoSources.length ≤ 2 ∧
    2 ≤ 65535 ∧ fileLength (infosOf twoSources) ≤ 4294967295 ∧
    Holds (Bytes.ofList (asmImage 13 twoSources)) (asmImage 13 twoSources) :=
  ⟨twoSources_ready, by decide +kernel, by decide, by decide, by decide +kernel, ofList_holds _⟩

/-- A running block whose ICO input is the file of the two sources, whatever its bytes are. -/
def holdsFile (img : List Byte) : State :=
  { running [] [] 0 with inmem := Memory.powerOn.write 0 img, inLen := BitVec.ofNat 32 img.length }

theorem holdsFile_holds (img : List Byte) (h : img.length ≤ 65536) : Holds (holdsFile img).icoInput img := by
  have hl : (holdsFile img).icoInput.len = img.length := by
    show avail 65536 0 (BitVec.ofNat 32 img.length).toNat = img.length
    simp [avail]; omega
  refine ⟨Nat.le_of_eq hl.symm, fun j hj => ?_⟩
  show (Memory.powerOn.write 0 img).byte .inmem (0 + j) = _
  exact byte_write_inside _ _ _ _ _ hj

theorem witness_AssembleThenDecodeRecoversEveryPixel : ∃ s : State, 1 < twoSources.length ∧ s.params.Valid ∧ AllReady twoSources ∧
    (∀ c ∈ twoSources, c.bi.palSz.toNat ≤ 255) ∧ twoSources.length ≤ s.params.tocMax ∧
    fileLength (infosOf twoSources) ≤ 4294967295 ∧ Holds s.icoInput (asmImage 13 twoSources) ∧
    ∀ c ∈ twoSources, widthOf c.src * heightOf c.src ≤ s.params.outCap :=
  ⟨holdsFile (asmImage 13 twoSources), by decide, by decide, twoSources_ready, by decide +kernel, by decide, by decide +kernel,
    holdsFile_holds _ (by decide +kernel), by unfold widthOf heightOf; decide +kernel⟩

/-! ### PARSE and DECODE -/

/-- The file of `test_parse_record`, lengthened to hold its masks (258 bytes). -/
def wholeFile : List Byte := smallFile 0 1 1 1 4 40 4 0 1 22 ++ List.replicate 164 0#8

theorem witness_ParseCompletes : IcoHeaderPasses 16 (oneFile wholeFile).icoInput ∧ countField (oneFile wholeFile).icoInput = 1 ∧
    ∀ k < countField (oneFile wholeFile).icoInput, EntryPasses (oneFile wholeFile).icoInput k := by
  unfold IcoHeaderPasses EntryPasses HeaderPasses countField offsetField; decide +kernel

/-- The header checks, in the statement's order (T-R2, T-R3, T-R4, T-R5 and a TOC past the end of the input). -/
theorem witness_ReaderReportsTheFirstFailingCheck_header : (oneFile [0, 0, 1, 0, 1]).icoInput.len < 6 ∧
    (oneFile (smallFile 1 1 1 1 4 40 4 0 1 22)).icoInput.rd16 0 ≠ 0#16 ∧
    (oneFile (smallFile 0 2 1 1 4 40 4 0 1 22)).icoInput.rd16 2 ≠ 1#16 ∧
    (oneFile (smallFile 0 1 17 1 4 40 4 0 1 22)).params.tocMax < countField (oneFile (smallFile 0 1 17 1 4 40 4 0 1 22)).icoInput ∧
    ((oneFile [0, 0, 1, 0, 1, 0]).icoInput.len < 6 + 16 * countField (oneFile [0, 0, 1, 0, 1, 0]).icoInput ∧
      countField (oneFile [0, 0, 1, 0, 1, 0]).icoInput ≤ 16) := by
  unfold countField; decide +kernel

/-- The entry checks, in the statement's order (T-R7, T-R10, compression, palette, T-R8, T-R9). -/
theorem witness_ReaderReportsTheFirstFailingCheck_entry :
    (IcoHeaderPasses 16 (oneFile (smallFile 0 1 1 1 4 40 4 0 1 60)).icoInput ∧
      (oneFile (smallFile 0 1 1 1 4 40 4 0 1 60)).icoInput.len < offsetField (oneFile (smallFile 0 1 1 1 4 40 4 0 1 60)).icoInput 0 + 40) ∧
    ((oneFile (smallFile 0 1 1 1 4 41 4 0 1 22)).icoInput.slice 22 40).rd32 0 ≠ 40#32 ∧
    ((oneFile (smallFile 0 1 1 1 4 40 4 1 1 22)).icoInput.slice 22 40).rd32 16 ≠ 0#32 ∧
    ((oneFile (smallFile 0 1 1 1 4 40 4 0 0 22)).icoInput.slice 22 40).rd32 32 = 0#32 ∧
    (HeaderPasses ((oneFile (smallFile 0 1 1 1 8 40 4 0 1 22)).icoInput.slice 22 40) false false ∧
      (oneFile (smallFile 0 1 1 1 8 40 4 0 1 22)).icoInput.rd16 12 ≠ ((oneFile (smallFile 0 1 1 1 8 40 4 0 1 22)).icoInput.slice 22 40).rd16 14) ∧
    ((oneFile (smallFile 0 1 1 15 4 40 4 0 16 22)).icoInput.byte 8).toNat ≠
      (((oneFile (smallFile 0 1 1 15 4 40 4 0 16 22)).icoInput.slice 22 40).rd32 32).toNat := by
  unfold IcoHeaderPasses HeaderPasses countField offsetField; decide +kernel

/-- Two inputs that differ in the entry's width and in the masks. -/
theorem witness_ReaderMakesNoOtherCheck : ∃ b c : Bytes, b.len = c.len ∧ (∀ j < 6, b.byte j = c.byte j) ∧ countField b = 1 ∧
    (∀ k < countField b, b.byte (6 + 16 * k + 2) = c.byte (6 + 16 * k + 2) ∧
      b.rd16 (6 + 16 * k + 6) = c.rd16 (6 + 16 * k + 6) ∧ b.rd32 (6 + 16 * k + 12) = c.rd32 (6 + 16 * k + 12) ∧
      b.rd32 (offsetField b k) = c.rd32 (offsetField b k) ∧ b.rd16 (offsetField b k + 14) = c.rd16 (offsetField b k + 14) ∧
      b.rd32 (offsetField b k + 16) = c.rd32 (offsetField b k + 16) ∧ b.rd32 (offsetField b k + 32) = c.rd32 (offsetField b k + 32)) ∧
    b.byte 6 ≠ c.byte 6 ∧ b.byte 80 ≠ c.byte 80 := by
  refine ⟨Bytes.ofList (smallFile 0 1 1 1 4 40 4 0 1 22), Bytes.ofList (((smallFile 0 1 1 1 4 40 4 0 1 22).set 6 99).set 80 1), ?_⟩
  unfold countField offsetField; decide +kernel

theorem witness_DecodeCompletes : IcoHeaderPasses 16 (oneFile wholeFile).icoInput ∧
    (∀ k < countField (oneFile wholeFile).icoInput, EntryPasses (oneFile wholeFile).icoInput k) ∧
    0 < countField (oneFile wholeFile).icoInput ∧ (oneFile wholeFile).icoInput.rd16 12 = 4#16 ∧
    dim8 ((oneFile wholeFile).icoInput.byte 6) = 16 ∧ dim8 ((oneFile wholeFile).icoInput.byte 7) = 16 ∧
    22 + 40 + 4 + 128 + 64 ≤ (oneFile wholeFile).icoInput.len ∧ 16 * 16 ≤ (oneFile wholeFile).params.outCap := by
  unfold IcoHeaderPasses EntryPasses HeaderPasses countField offsetField; decide +kernel

/-- A file that passes whole, for each clause in the statement's order: an index at the count, an entry bpp of 8 (T-R23), a
width byte of 24 (T-R20) and of 0 (T-R19), masks past the end of the input (T-R17), and pixels past OUT_CAP (T-R18). -/
theorem witness_DecodeErrorsInOrder : (∀ f ∈ [wholeFile, smallFile 0 1 1 1 8 40 8 0 1 22, wholeFile.set 6 24, wholeFile.set 6 0,
      wholeFile.take 257],
      IcoHeaderPasses 16 (oneFile f).icoInput ∧ ∀ k < countField (oneFile f).icoInput, EntryPasses (oneFile f).icoInput k) ∧
    countField (oneFile wholeFile).icoInput ≤ 1 ∧ (oneFile (smallFile 0 1 1 1 8 40 8 0 1 22)).icoInput.rd16 12 ≠ 4#16 ∧
    dim8 ((oneFile (wholeFile.set 6 24)).icoInput.byte 6) = 24 ∧ dim8 ((oneFile (wholeFile.set 6 0)).icoInput.byte 6) = 256 ∧
    (oneFile (wholeFile.take 257)).icoInput.len < 258 ∧
    ∃ s : State, s.icoInput.len = 258 ∧ IcoHeaderPasses s.params.tocMax s.icoInput ∧
      (∀ k < countField s.icoInput, EntryPasses s.icoInput k) ∧ s.params.outCap < 16 * 16 := by
  unfold IcoHeaderPasses EntryPasses HeaderPasses countField offsetField
  refine ⟨by decide +kernel, by decide +kernel, by decide +kernel, by decide +kernel, by decide +kernel, by decide +kernel,
    { oneFile wholeFile with params := { Params.reference with outCap := 200 } }, by decide +kernel⟩

end Sys2Proof.Tests
end

section
/-! PROOFS. The register space seen by the host: the bits of STATUS, the map of register reads, ID, the reserved
offsets and dropped writes, and what a power-on reset leaves (10_state.md R32 to R57). -/

namespace Sys2Proof.Machine

/-! ## Register accesses by offset -/

theorem registerFault_word {o : Nat} (h4 : o % 4 = 0) (hlt : o < 4096) : registerFault 32 o = none :=
  registerFault_none.mpr ⟨rfl, h4, hlt⟩

/-- An aligned word read inside the register space is the host's register read. -/
theorem hostAccess_readReg {o : Nat} (s : State) (h4 : o % 4 = 0) (hlt : o < 4096) :
    hostAccess (.readReg 32 o) s = .next (s.hostReadReg o) := by
  simp [hostAccess, registerFault_word h4 hlt]

/-- An aligned word write inside the register space is the host's register write. -/
theorem hostAccess_writeReg {o : Nat} (s : State) (v : Word) (h4 : o % 4 = 0) (hlt : o < 4096) :
    hostAccess (.writeReg 32 o v) s = .next (s.hostWriteReg o v) := by
  simp [hostAccess, registerFault_word h4 hlt]

/-- Every register lies at an aligned offset of the register space (R32). -/
theorem regOffset_aligned (r : Reg) : regOffset r % 4 = 0 ∧ regOffset r < 4096 := by
  cases r with
  | info f => cases f <;> decide
  | _ => decide

theorem regOffset_le (r : Reg) : regOffset r ≤ 0x058 := by
  cases r with
  | info f => cases f <;> decide
  | _ => decide

/-- No register lies past INFO_IMPORTANT (R32, R52). -/
theorem regAt_reserved {o : Nat} (h : 0x05C ≤ o) : regAt o = none := by
  cases hr : regAt o with
  | none => rfl
  | some r =>
    have ho := regAt_some hr
    have hle := regOffset_le r
    omega

theorem reg_info_held {s : State} {bi : BmpInfo} (h : s.info = .held bi) (f : InfoField) :
    s.reg (.info f) = infoField bi f := by simp [State.reg, infoWord, h]

theorem regWord_regOffset (s : State) (r : Reg) : s.regWord (regOffset r) = s.reg r := by
  simp [State.regWord, regAt_regOffset]

/-- A read of a register that answers its stored value: every read of an idle block, and of a busy one every read but
that of an INFO register (20_memory.md R101, R102). -/
theorem hostAccess_readReg_stored {s : State} (r : Reg)
    (h : s.status.busy = false ∨ infoOffsetRead (regOffset r) = false) :
    hostAccess (.readReg 32 (regOffset r)) s = .next { s with reads := s.reg r :: s.reads } := by
  obtain ⟨h4, hlt⟩ := regOffset_aligned r
  rw [hostAccess_readReg s h4 hlt, State.hostReadReg, if_neg, regWord_regOffset]
  · rfl
  · rcases h with h | h <;> simp [h]

theorem hostWriteReg_idle {s : State} (hb : s.status.busy = false) (o : Nat) (v : Word) :
    s.hostWriteReg o v = s.setReg o v := by simp [State.hostWriteReg, hb]

theorem hostWriteReg_busy {s : State} (hb : s.status.busy = true) (o : Nat) (v : Word) :
    s.hostWriteReg o v = { s with status := s.status.dropped } := by simp [State.hostWriteReg, hb]

/-- The host's write of CMD while BUSY = 0 is the accept step (R33, R54). -/
theorem hostAccess_writeCmd {s : State} (hb : s.status.busy = false) (v : Word) :
    hostAccess (.writeReg 32 0x000 v) s = .next (s.accept v) := by
  rw [hostAccess_writeReg s v (by decide) (by decide), hostWriteReg_idle hb]
  rfl

/-- While BUSY = 0 a write that no register rule stores changes nothing (R52, R102). -/
theorem hostAccess_writeReg_ignored {s : State} {o : Nat} (v : Word) (hb : s.status.busy = false) (h4 : o % 4 = 0)
    (hlt : o < 4096) (h : s.setReg o v = s) : hostAccess (.writeReg 32 o v) s = .next s := by
  rw [hostAccess_writeReg s v h4 hlt, hostWriteReg_idle hb, h]

/-- While BUSY = 1 a word write to any offset of the register space sets WDROP only (R39). -/
theorem hostAccess_writeReg_dropped {s : State} {o : Nat} (v : Word) (hb : s.status.busy = true) (h4 : o % 4 = 0)
    (hlt : o < 4096) : hostAccess (.writeReg 32 o v) s = .next { s with status := { s.status with wdrop := true } } := by
  rw [hostAccess_writeReg s v h4 hlt, hostWriteReg_busy hb]
  rfl

/-! ## The bits of STATUS -/

/-- The fields of the STATUS word at their places (R34). -/
theorem statusWord_extract (st : Status) :
    st.word.extractLsb' 5 3 = 0#3 ∧ st.word.extractLsb' 8 4 = st.kind ∧ st.word.extractLsb' 12 4 = 0#4 ∧
      st.word.extractLsb' 16 8 = st.reason ∧ st.word.extractLsb' 24 8 = 0#8 := by
  have below {a b p n : Nat} (hi : BitVec a) (lo : BitVec b) (h : p + n ≤ b) :
      (hi ++ lo).extractLsb' p n = lo.extractLsb' p n := BitVec.extractLsb'_append_eq_of_add_le h
  unfold Status.word
  refine ⟨?_, ?_, ?_, ?_, ?_⟩
  · rw [below, below, below, below, BitVec.extractLsb'_append_eq_left] <;> decide
  · rw [below, below, below, BitVec.extractLsb'_append_eq_left] <;> decide
  · rw [below, below, BitVec.extractLsb'_append_eq_left] <;> decide
  · rw [below, BitVec.extractLsb'_append_eq_left]
    decide
  · rw [BitVec.extractLsb'_append_eq_left]

/-- The one-bit fields of the STATUS word at their places (R34). -/
theorem statusWord_bits (st : Status) :
    st.word.getLsbD 0 = st.busy ∧ st.word.getLsbD 1 = st.done ∧ st.word.getLsbD 2 = st.err ∧
      st.word.getLsbD 3 = st.infoV ∧ st.word.getLsbD 4 = st.wdrop := by
  unfold Status.word
  refine ⟨?_, ?_, ?_, ?_, ?_⟩ <;> iterate 9 rw [BitVec.getLsbD_append]
  all_goals simp

theorem statusWord_reset : Status.reset.word = 0 := by decide

end Sys2Proof.Machine

namespace Sys2Proof.Claims

open Sys2Proof.Machine

/-- Settles O23, from the places of the fields in the STATUS word. -/
theorem statusWordBits : Obligations.StatusWordBits := by
  intro s
  obtain ⟨hbusy, hdone, herr, hinfo, hwdrop⟩ := statusWord_bits s.status
  exact ⟨hbusy, hdone, herr, hinfo, hwdrop, statusWord_extract s.status⟩

/-- Settles O25: an idle block's register read answers the stored value, register by register. -/
theorem registerMapReads : Obligations.RegisterMapReads := by
  intro s hb
  have read (r : Reg) := hostAccess_readReg_stored (s := s) r (.inl hb)
  refine ⟨read .cmd, read .status, read .errField, read .errValue, read .errIndex, read .transp, read .nsrc,
    read .inBase, read .inLen, read .outLen, read .tocCount, fun bi hi => ?_⟩
  have readInfo (f : InfoField) :
      hostAccess (.readReg 32 (infoOffset f)) s = .next { s with reads := infoField bi f :: s.reads } :=
    reg_info_held hi f ▸ read (.info f)
  exact ⟨readInfo .hdrSz, readInfo .width, readInfo .height, readInfo .planes, readInfo .bpp, readInfo .compression,
    readInfo .imageSize, readInfo .xres, readInfo .yres, readInfo .palSz, readInfo .important⟩

/-- Settles O26: ID is a constant of the model, no INFO register and no stored one. -/
theorem idReadsItsConstant : Obligations.IdReadsItsConstant := by
  intro s
  exact ⟨hostAccess_readReg_stored .id (.inr rfl),
    fun hb v => hostAccess_writeReg_ignored v hb (by decide) (by decide) rfl, s.resetEvent, rfl, rfl⟩

/-- Settles O27: a reserved offset has no register, and TRANSP keeps the low byte of a write. -/
theorem reservedOffsetsAndBits : Obligations.ReservedOffsetsAndBits := by
  refine ⟨fun s o hlo hhi h4 => ?_, fun s => ?_, fun s v w hb => ⟨?_, fun hvw => ?_⟩⟩
  · have hlt : o < 4096 := by omega
    have hnone : regAt o = none := regAt_reserved hlo
    refine ⟨?_, fun v hb => hostAccess_writeReg_ignored v hb h4 hlt (by simp [State.setReg, hnone]),
      fun v hb => hostAccess_writeReg_dropped v hb h4 hlt⟩
    rw [hostAccess_readReg s h4 hlt]
    simp [State.hostReadReg, infoOffsetRead, State.regWord, hnone, State.received]
  · obtain ⟨h5, -, h12, -, h24⟩ := statusWord_extract s.status
    refine ⟨h5, h12, h24, ?_⟩
    show (s.transp.setWidth 32).extractLsb' 8 24 = 0#24
    apply BitVec.eq_of_getLsbD_eq
    intro i hi
    simp
  · exact hostAccess_writeReg_ignored v hb (by decide) (by decide) rfl
  · have transp (x : Word) : hostAccess (.writeReg 32 0x014 x) s = .next { s with transp := x.extractLsb' 0 8 } := by
      rw [hostAccess_writeReg s x (by decide) (by decide), hostWriteReg_idle hb]
      rfl
    rw [transp, transp, hvw]

/-- Settles O24: a busy block drops the write, and the accept step and reset clear WDROP. -/
theorem writesWhileBusyAreDropped : Obligations.WritesWhileBusyAreDropped := by
  refine ⟨fun s o v hb h4 hlt => hostAccess_writeReg_dropped v hb h4 hlt, fun s sp a b hb hsp ha => ?_,
    fun s v hb => ⟨s.accept v, hostAccess_writeCmd hb v, rfl⟩, fun p => rfl⟩
  have howned : coreOwned sp = false := by rcases hsp with rfl | rfl <;> rfl
  simp [hostAccess, ha, State.hostWriteByte, hb, howned, Status.dropped]

/-! ## Power-on -/

/-- Settles O21: each register and memory of the power-on state. -/
theorem powerOnReset : Obligations.PowerOnReset := by
  refine fun p => ⟨fun r => ?_, rfl, rfl, rfl, fun sp => ⟨0, fun a => ?_⟩⟩
  · cases r with
    | info f => cases f <;> rfl
    | status => exact statusWord_reset
    | _ => rfl
  · cases sp <;> rfl

/-- Settles O18: the memories are empty, no command runs and no result is valid. -/
theorem resetMeetsTheInvariant : Obligations.ResetMeetsTheInvariant := by
  intro p hp
  constructor
  case params => exact hp
  all_goals simp [State.resetWith, Status.reset]

end Sys2Proof.Claims
end

section
/-! PROOFS. The decoder reads back the command that the encoder wrote (30_encoding.md R114 to R116): every row's mask
keeps OP, so a word fits one row at most, and the row of a command's word is its own. -/

namespace Sys2Proof

/-- OP = `v[7:0]` (R110). -/
def opByte (v : Word) : BitVec 8 := v.extractLsb' 0 8

/-- Every mask of the map keeps OP whole. -/
theorem opcodeMap_mask_op : ∀ r ∈ opcodeMap, r.mask.extractLsb' 0 8 = BitVec.allOnes 8 := by decide

/-- A word that fits a row has the row's OP. -/
theorem opByte_of_fits {r : OpRow} {v : Word} (hr : r ∈ opcodeMap) (h : r.fits v = true) : opByte v = opByte r.fixed := by
  have hv : v &&& r.mask = r.fixed := beq_iff_eq.mp h
  rw [opByte, opByte, ← hv, BitVec.extractLsb'_and, opcodeMap_mask_op r hr, BitVec.and_allOnes]

/-- The rows of the map have distinct OPs. -/
theorem opcodeMap_eq_of_opByte : ∀ r ∈ opcodeMap, ∀ q ∈ opcodeMap, opByte r.fixed = opByte q.fixed → r = q := by
  decide

theorem opcodeMap_row_unique {r q : OpRow} {v : Word} (hr : r ∈ opcodeMap) (hq : q ∈ opcodeMap) (hrv : r.fits v = true)
    (hqv : q.fits v = true) : r = q :=
  opcodeMap_eq_of_opByte r hr q hq ((opByte_of_fits hr hrv).symm.trans (opByte_of_fits hq hqv))

theorem row_mem_opcodeMap (i : Instr) : i.row ∈ opcodeMap := by cases i <;> simp [Instr.row, opcodeMap]

theorem row_fits_encode (i : Instr) : i.row.fits (encode i) = true := by
  cases i with
  | nop => exact Laws.OpcodeRow.nop
  | verify k bpp dim => exact Laws.OpcodeRow.verify k bpp dim
  | encode k => exact Laws.OpcodeRow.encode k
  | assemble => exact Laws.OpcodeRow.assemble
  | parse => exact Laws.OpcodeRow.parse
  | decode k => exact Laws.OpcodeRow.decode k

/-- A command's word fits its own row and no other. -/
theorem fits_encode_eq (i : Instr) {q : OpRow} (hq : q ∈ opcodeMap) : q.fits (encode i) = decide (q = i.row) := by
  by_cases h : q = i.row
  · simp [h, row_fits_encode]
  · have hn : q.fits (encode i) ≠ true := fun hf =>
      h (opcodeMap_row_unique hq (row_mem_opcodeMap i) hf (row_fits_encode i))
    simp [h, hn]

theorem decode_encode {i : Instr} (h : i.wellFormed = true) : decode (encode i) = some i := by
  have fits {q : OpRow} (hq : q ∈ opcodeMap) := fits_encode_eq i hq
  rw [decode, fits (q := rowNop) (by decide), fits (q := rowVerify) (by decide), fits (q := rowEncode) (by decide),
    fits (q := rowAssemble) (by decide), fits (q := rowParse) (by decide), fits (q := rowDecode) (by decide)]
  have index {k : Nat} (hk : idxFits k = true) : k % 65536 = k :=
    Nat.mod_eq_of_lt (Nat.lt_succ_of_le (of_decide_eq_true hk))
  cases i with
  | nop => rfl
  | verify k bpp dim => simp [Instr.row, rowNop, rowVerify, encode, index h]
  | encode k => simp [Instr.row, rowNop, rowVerify, rowEncode, encode, index h]
  | assemble => rfl
  | parse => rfl
  | decode k =>
    simp [Instr.row, rowNop, rowVerify, rowEncode, rowAssemble, rowParse, rowDecode, encode, index h]

end Sys2Proof
end

section
/-! PROOFS. The life of a command: which step runs it, the accept step, and what the accept step and the completion step
leave unchanged outside the write set (10_state.md R30, R50, R54, R55). -/

namespace Sys2Proof.Machine

open Sys2Proof.Claims

/-! ## Steps -/

theorem step_idle {s : State} (hb : s.status.busy = false) : step s = hostStep s := by simp [step, hb]

theorem step_internal {s : State} {n : Nat} (hb : s.status.busy = true) (hn : s.stepsLeft = n + 1) :
    step s = hostStep { s with stepsLeft := n } := by
  unfold step
  rw [if_pos hb, hn]

theorem step_completion {s : State} (hb : s.status.busy = true) (hn : s.stepsLeft = 0) : step s = completionStep s := by
  unfold step
  rw [if_pos hb, hn]

theorem completionStep_legal {s : State} {i : Instr} (h : decode s.cmd = some i) : completionStep s = exec i s := by
  rw [completionStep, h]

theorem completionStep_illegal {s : State} (h : decode s.cmd = none) : completionStep s = execIllegal s.cmd s := by
  rw [completionStep, h]

theorem withFetchWord_cmd (s : State) (v : Word) : (s.withFetchWord 32 v.toNat).cmd = v := by
  simp [State.withFetchWord, Nat.mod_eq_of_lt v.isLt]

/-! ## Write sets -/

/-- The write set of R50, group by group. -/
theorem writeSet_contains (o : Option Instr) :
    (writeSet o).contains .info = touchesInfo o ∧ (writeSet o).contains .out = touchesOut o ∧
      (writeSet o).contains .toc = touchesToc o := by
  rcases o with _ | i
  · exact ⟨rfl, rfl, rfl⟩
  · cases i <;> exact ⟨rfl, rfl, rfl⟩

theorem clears_info (v : Word) : clears v .info = touchesInfo (decode v) := (writeSet_contains _).1
theorem clears_out (v : Word) : clears v .out = touchesOut (decode v) := (writeSet_contains _).2.1
theorem clears_toc (v : Word) : clears v .toc = touchesToc (decode v) := (writeSet_contains _).2.2

/-- A command that succeeds hands results to exactly the groups of its write set. -/
theorem outcome_isSome {i : Instr} {s : State} {r : Results} (h : outcomeOf i s = .ok r) :
    r.info.isSome = touchesInfo (some i) ∧ r.out.isSome = touchesOut (some i) ∧ r.toc.isSome = touchesToc (some i) := by
  obtain ⟨hinfo, hout, htoc⟩ := outcome_groups h
  obtain ⟨ginfo, gout, gtoc⟩ := writeSet_contains (some i)
  rw [← ginfo, ← gout, ← gtoc]
  exact ⟨Bool.eq_iff_iff.mpr (hinfo.trans List.contains_iff_mem.symm),
    Bool.eq_iff_iff.mpr (hout.trans List.contains_iff_mem.symm),
    Bool.eq_iff_iff.mpr (htoc.trans List.contains_iff_mem.symm)⟩

theorem wordOutcome_isSome {v : Word} {s : State} {r : Results} (h : wordOutcome v s = .ok r) :
    r.info.isSome = touchesInfo (decode v) ∧ r.out.isSome = touchesOut (decode v) ∧
      r.toc.isSome = touchesToc (decode v) := by
  obtain ⟨i, hi, ho⟩ := wordOutcome_ok h
  exact hi ▸ outcome_isSome ho

/-! ## The completion step outside the results -/

@[simp] theorem complete_busy (s : State) (o : Except CmdError Results) : (s.complete o).status.busy = false := by
  cases o <;> simp [State.complete]

@[simp] theorem complete_done (s : State) (o : Except CmdError Results) : (s.complete o).status.done = true := by
  cases o <;> simp [State.complete]

theorem complete_keeps_info {s : State} {o : Except CmdError Results} (h : ∀ r, o = .ok r → r.info = none) :
    (s.complete o).info = s.info ∧ (s.complete o).status.infoV = s.status.infoV := by
  cases o with
  | error e => exact ⟨rfl, rfl⟩
  | ok r => simp [State.complete, h r rfl]

theorem complete_keeps_out {s : State} {o : Except CmdError Results} (h : ∀ r, o = .ok r → r.out = none) :
    (s.complete o).outLen = s.outLen ∧ (s.complete o).outmem = s.outmem := by
  cases o with
  | error e => exact ⟨rfl, rfl⟩
  | ok r => simp [State.complete, h r rfl]

theorem complete_keeps_toc {s : State} {o : Except CmdError Results} (h : ∀ r, o = .ok r → r.toc = none) :
    (s.complete o).tocCount = s.tocCount ∧ (s.complete o).tocram = s.tocram := by
  cases o with
  | error e => exact ⟨rfl, rfl⟩
  | ok r => simp [State.complete, h r rfl]

end Sys2Proof.Machine

namespace Sys2Proof.Claims

open Sys2Proof.Machine

/-- Settles O6: the branches of `step`, and the decoder on the word of a placed command. -/
theorem stepRunsTheDecodedCommand : Obligations.StepRunsTheDecodedCommand := by
  refine ⟨fun s i hb hn hd => ?_, fun s hb hn hd => ?_, fun s n hb hn => step_internal hb hn, fun s hb => step_idle hb,
    fun s i hwf => ?_⟩
  · rw [step_completion hb hn, completionStep_legal hd]
  · rw [step_completion hb hn, completionStep_illegal hd]
  · have hcmd : decode (s.withFetchWord 32 (encode i).toNat).cmd = some i := by rw [withFetchWord_cmd, decode_encode hwf]
    rw [step_completion rfl rfl, completionStep_legal hcmd]

/-- Settles O7: the host's write is `accept`, group by group of the write set. -/
theorem acceptStep : Obligations.AcceptStep := by
  intro s v hb
  refine ⟨s.accept v, hostAccess_writeCmd hb v, rfl, ?_, rfl, rfl, rfl, ?_, ?_, ?_, rfl, rfl, rfl, rfl, rfl, rfl, rfl,
    rfl, rfl⟩
  · rw [accept_status, clears_info]
    rfl
  · by_cases h : touchesInfo (decode v) = true <;> simp [h, clears_info, State.reg, infoWord]
  · by_cases h : touchesOut (decode v) = true <;> simp [h, clears_out]
  · by_cases h : touchesToc (decode v) = true <;> simp [h, clears_toc]

/-- Settles O8: a group outside the write set is cleared by no accept step and written by no completion step. -/
theorem writeSetFrame : Obligations.WriteSetFrame := by
  intro s t v h
  rw [completionStep_eq] at h
  cases h
  have groups {r : Results} (hr : wordOutcome v (s.accept v) = .ok r) := wordOutcome_isSome hr
  refine ⟨by simp, by simp, by simp, by simp, by simp, by simp, fun a => by simp, fun a => by simp, fun hi => ?_,
    fun ho => ?_, fun ht => ?_⟩
  · obtain ⟨hinfo, hinfoV⟩ := complete_keeps_info (s := s.accept v) fun r hr => by simpa [hi] using (groups hr).1
    exact ⟨hinfo.trans (by simp [clears_info, hi]), hinfoV.trans (by simp [clears_info, hi])⟩
  · obtain ⟨hlen, hmem⟩ := complete_keeps_out (s := s.accept v) fun r hr => by simpa [ho] using (groups hr).2.1
    exact ⟨hlen.trans (by simp [clears_out, ho]),
      fun a => congrArg (·.byte .outmem a) (hmem.trans (by simp [clears_out, ho]))⟩
  · obtain ⟨hcount, hmem⟩ := complete_keeps_toc (s := s.accept v) fun r hr => by simpa [ht] using (groups hr).2.2
    exact ⟨hcount.trans (by simp [clears_toc, ht]),
      fun a => congrArg (·.byte .tocram a) (hmem.trans (by simp [clears_toc, ht]))⟩

end Sys2Proof.Claims
end

section
/-! PROOFS. The outcome of a command's rule depends only on the inputs of R59: every read of a byte string lies below its
length (20_memory.md R90), so two states with the same inputs give every rule the same outcome. -/

namespace Sys2Proof.Machine

open Sys2Proof.Claims

/-! ## Byte strings that agree below their length -/

/-- Two byte strings of one length with the same bytes below it. -/
structure Bytes.Agree (b c : Bytes) : Prop where
  len : b.len = c.len
  byte : ∀ i < b.len, b.byte i = c.byte i

namespace Bytes.Agree

variable {b c : Bytes}

theorem slice {o n : Nat} (h : b.Agree c) (hn : o + n ≤ b.len) : (b.slice o n).Agree (c.slice o n) :=
  ⟨rfl, fun i hi => h.byte (o + i) (Nat.lt_of_lt_of_le (Nat.add_lt_add_left hi o) hn)⟩

theorem toList_eq (h : b.Agree c) : b.toList = c.toList := by
  unfold Bytes.toList
  rw [← h.len]
  exact List.map_congr_left fun i hi => h.byte i (List.mem_range.mp hi)

theorem rd16_eq {o : Nat} (h : b.Agree c) (ho : o + 2 ≤ b.len) : b.rd16 o = c.rd16 o :=
  rd16_congr b c o fun j hj => h.byte _ (by omega)

theorem rd32_eq {o : Nat} (h : b.Agree c) (ho : o + 4 ≤ b.len) : b.rd32 o = c.rd32 o :=
  rd32_congr b c o fun j hj => h.byte _ (by omega)

end Bytes.Agree

/-! ## The inputs of two states -/

theorem inView_agree {s u : State} (h : SameInputs s u) (base len : Nat) :
    (s.inView base len).Agree (u.inView base len) := by
  obtain ⟨hp, -, -, -, -, hin, -⟩ := h
  refine ⟨by simp [State.inView, hp], fun i hi => hin _ ?_⟩
  simp only [State.inView, avail] at hi
  split at hi
  · omega
  · omega

/-- Source `k` of a descriptor that SRCDESC holds. -/
theorem src_agree {s u : State} (h : SameInputs s u) {k : Nat} (hk : k < s.params.srcMax) :
    (s.src k).Agree (u.src k) := by
  have ⟨hp, _, _, _, _, _, hdesc⟩ := h
  have hview : s.descView.Agree u.descView := ⟨by simp [State.descView, hp], hdesc⟩
  have hlen : s.descView.len = 8 * s.params.srcMax := rfl
  have hbase : s.srcBase k = u.srcBase k := hview.rd32_eq (by omega)
  have hsize : s.srcLen k = u.srcLen k := hview.rd32_eq (by omega)
  rw [State.src, State.src, hbase, hsize]
  exact inView_agree h _ _

theorem icoInput_agree {s u : State} (h : SameInputs s u) : s.icoInput.Agree u.icoInput := by
  have ⟨_, _, _, hbase, hlen, _⟩ := h
  rw [State.icoInput, State.icoInput, hbase, hlen]
  exact inView_agree h _ _

/-! ## The verifier -/

/-- The verifier reads the length, up to 40, and the 40 bytes of the header (40_verifier.md R178). -/
theorem verifyHeader_congr {b c : Bytes} (x y : Bool) (k : Nat) (hlen : b.len < 40 ↔ c.len < 40)
    (h : 40 ≤ b.len → ∀ j < 40, b.byte j = c.byte j) : verifyHeader b x y k = verifyHeader c x y k := by
  by_cases hb : b.len < 40
  · simp [verifyHeader, hb, hlen.mp hb]
  · have hbi : bmpInfoOf b = bmpInfoOf c := bmpInfoOf_congr b c (h (by omega))
    simp only [verifyHeader, hlen, hbi]

theorem Bytes.Agree.verifyHeader_eq {b c : Bytes} (h : b.Agree c) (x y : Bool) (k : Nat) :
    verifyHeader b x y k = verifyHeader c x y k :=
  verifyHeader_congr x y k (by rw [h.len]) fun hb j hj => h.byte j (by omega)

theorem Bytes.Agree.checkStrict_eq {b c : Bytes} (h : b.Agree c) (k : Nat) : checkStrict b k = checkStrict c k := by
  simp only [checkStrict, h.verifyHeader_eq, h.len]

theorem checkSource_congr {s u : State} (h : SameInputs s u) (k : Nat) : checkSource s k = checkSource u k := by
  obtain ⟨hp, -, hn, -⟩ := h
  simp only [checkSource, hp, hn]

theorem runVerify_congr {s u : State} (h : SameInputs s u) (k : Nat) (x y : Bool) :
    runVerify k x y s = runVerify k x y u := by
  unfold runVerify
  rw [← checkSource_congr h]
  cases hk : checkSource s k with
  | error e => rfl
  | ok _ =>
    obtain ⟨hmax, hlt⟩ := checkSource_ok hk
    rw [(src_agree h (by omega : k < s.params.srcMax)).verifyHeader_eq]

/-! ## The encoder -/

/-- A picture of even width has two pixels for each byte of its XOR mask. -/
theorem mul_eq_two_mul_half {w : Nat} (hw : w % 2 = 0) (h : Nat) : w * h = 2 * (w / 2 * h) := by
  rw [← Nat.mul_assoc, Nat.mul_div_cancel' (Nat.dvd_of_mod_eq_zero hw)]

/-- The XOR mask of a width of whole bytes reads pixels below `w * h` only (42_mask_codec.md R223). -/
theorem xorMask_congr {px qx : Bytes} {w h : Nat} (t : Byte) (hw : w % 2 = 0)
    (hpx : ∀ i < w * h, px.byte i = qx.byte i) : xorMask px w h t = xorMask qx w h t := by
  refine List.map_congr_left fun j hj => ?_
  have hj' : j < w / 2 * h := by simpa [xorLen] using hj
  have hsize := mul_eq_two_mul_half hw h
  rw [xorByte, xorByte, hpx _ (by omega), hpx _ (by omega)]

theorem andDataByte_congr {px qx : Bytes} (t : Byte) (i : Nat) (h : ∀ m < 8, px.byte (i + m) = qx.byte (i + m)) :
    andDataByte px t i = andDataByte qx t i := by
  have h0 : px.byte i = qx.byte i := h 0 (by decide)
  simp only [andDataByte_eq, h0, h 1 (by decide), h 2 (by decide), h 3 (by decide), h 4 (by decide), h 5 (by decide),
    h 6 (by decide), h 7 (by decide)]

/-- The AND mask of a width of whole data bytes reads pixels below `w * h` only (R224, R225). -/
theorem andMask_congr {px qx : Bytes} {w h : Nat} (t : Byte) (hw : w % 8 = 0)
    (hpx : ∀ i < w * h, px.byte i = qx.byte i) : andMask px w h t = andMask qx w h t := by
  refine List.map_congr_left fun q hq => ?_
  have hq' : q < 4 * h := by simpa [andLen] using hq
  simp only [andByte]
  split
  · rename_i hdata
    refine andDataByte_congr t _ fun m hm => hpx _ ?_
    have hrow : (q / 4 + 1) * w ≤ h * w := Nat.mul_le_mul_right w (by omega)
    rw [Nat.succ_mul] at hrow
    rw [Nat.mul_comm w h]
    omega
  · rfl

/-- A strictly checked header has a side of 16 or 32 pixels (40_verifier.md R174). -/
theorem HeaderChecked.width_mod {b : Bytes} {x : Bool} {bi : BmpInfo} (h : HeaderChecked b x true bi) :
    bi.width.toNat % 8 = 0 := by
  rcases (h.dim rfl).1 with hw | hw <;> rw [hw] <;> rfl

theorem Bytes.Agree.pixels {b c : Bytes} {bi : BmpInfo} (h : b.Agree c) (hn : needOf bi ≤ b.len) :
    (pixelsOf b bi).Agree (pixelsOf c bi) := h.slice hn

theorem Bytes.Agree.encodeMasks_eq {b c : Bytes} {x : Bool} {bi : BmpInfo} (h : b.Agree c)
    (hc : HeaderChecked b x true bi) (hn : needOf bi ≤ b.len) (t : Byte) :
    encodeMasks (pixelsOf b bi) bi.width.toNat bi.height.toNat t =
      encodeMasks (pixelsOf c bi) bi.width.toNat bi.height.toNat t := by
  have hpx := (h.pixels hn).byte
  have hw := hc.width_mod
  rw [encodeMasks, encodeMasks, xorMask_congr t (by omega) hpx, andMask_congr t hw hpx]

theorem runEncode_congr {s u : State} (h : SameInputs s u) (k : Nat) : runEncode k s = runEncode k u := by
  have ⟨hp, ht, _⟩ := h
  unfold runEncode
  rw [← checkSource_congr h]
  cases hk : checkSource s k with
  | error e => rfl
  | ok _ =>
    obtain ⟨hmax, hlt⟩ := checkSource_ok hk
    have hsrc := src_agree h (by omega : k < s.params.srcMax)
    simp only [← hsrc.checkStrict_eq]
    cases hs : checkStrict (s.src k) k with
    | error e => rfl
    | ok bi =>
      obtain ⟨hc, hn⟩ := checkStrict_ok hs
      simp only [hsrc.encodeMasks_eq hc hn, hp, ht]

/-! ## The assembler -/

theorem Bytes.Agree.blockBytes_eq {b c : Bytes} {bi : BmpInfo} (h : b.Agree c) (hc : HeaderChecked b true true bi)
    (hn : needOf bi ≤ b.len) (t : Byte) : blockBytes t b bi = blockBytes t c bi := by
  have hpal : colourTable b bi = colourTable c bi := (h.slice (by unfold needOf at hn; omega)).toList_eq
  simp only [blockBytes, hpal, h.encodeMasks_eq hc hn]

/-- Checked sources that ASSEMBLE writes alike: one BmpInfo and one block for each. -/
def SameBlocks (cs ds : List Checked) : Prop :=
  infosOf cs = infosOf ds ∧
    ∀ t, cs.map (fun c => blockBytes t c.src c.bi) = ds.map fun c => blockBytes t c.src c.bi

/-- Pass 1 of ASSEMBLE over sources that agree ends in the same error, or hands on sources that are written alike. -/
theorem checkSources_congr {s u : State} {ks : List Nat} (h : ∀ k ∈ ks, (s.src k).Agree (u.src k)) :
    (∃ e, checkSources s ks = .error e ∧ checkSources u ks = .error e) ∨
      ∃ cs ds, checkSources s ks = .ok cs ∧ checkSources u ks = .ok ds ∧ SameBlocks cs ds := by
  induction ks with
  | nil => exact .inr ⟨[], [], rfl, rfl, rfl, fun _ => rfl⟩
  | cons k ks ih =>
    have hk : (s.src k).Agree (u.src k) := h k (by simp)
    simp only [checkSources, ← hk.checkStrict_eq]
    cases hs : checkStrict (s.src k) k with
    | error e => exact .inl ⟨e, rfl, rfl⟩
    | ok bi =>
      obtain ⟨hc, hn⟩ := checkStrict_ok hs
      rcases ih fun j hj => h j (by simp [hj]) with ⟨e, he, he'⟩ | ⟨cs, ds, hcs, hds, hinfos, hblocks⟩
      · exact .inl ⟨e, by simp [he], by simp [he']⟩
      · refine .inr ⟨⟨s.src k, bi⟩ :: cs, ⟨u.src k, bi⟩ :: ds, by simp [hcs], by simp [hds], ?_, fun t => ?_⟩
        · simp [hinfos]
        · simp [hblocks t, hk.blockBytes_eq hc hn t]

theorem SameBlocks.asmImage_eq {cs ds : List Checked} (h : SameBlocks cs ds) (t : Byte) :
    asmImage t cs = asmImage t ds := by
  have hlen : cs.length = ds.length := by simpa using congrArg List.length h.1
  rw [asmImage, asmImage, hlen, h.1, h.2 t]

theorem runAssemble_congr {s u : State} (h : SameInputs s u) : runAssemble s = runAssemble u := by
  have ⟨hp, ht, hn, _⟩ := h
  simp only [runAssemble, ← hp, ← ht, ← hn]
  split
  · rfl
  split
  · rfl
  rename_i hrange _
  have hsrc : ∀ k ∈ List.range s.nsrc.toNat, (s.src k).Agree (u.src k) := fun k hk =>
    src_agree h (by have := List.mem_range.mp hk; omega)
  rcases checkSources_congr hsrc with ⟨e, he, he'⟩ | ⟨cs, ds, hcs, hds, hsame⟩
  · rw [he, he']
  · rw [hcs, hds]
    simp only [hsame.1, hsame.asmImage_eq]

/-! ## The reader -/

theorem Bytes.Agree.entryAt_eq {b c : Bytes} {k : Nat} (h : b.Agree c) (hk : entryPos k + 16 ≤ b.len) :
    entryAt b k = entryAt c k :=
  tocEntryOf_congr b c _ fun j hj => h.byte _ (by omega)

theorem Bytes.Agree.parseEntry_eq {b c : Bytes} {k : Nat} (h : b.Agree c) (hk : entryPos k + 16 ≤ b.len) :
    parseEntry b k = parseEntry c k := by
  simp only [parseEntry, ← h.entryAt_eq hk, ← h.len]
  split
  · rfl
  · have hheader : (headerAt b (entryAt b k).offset.toNat).Agree (headerAt c (entryAt b k).offset.toNat) :=
      h.slice (by omega)
    rw [hheader.verifyHeader_eq]

theorem Bytes.Agree.parseEntries_eq {b c : Bytes} {ks : List Nat} (h : b.Agree c)
    (hks : ∀ k ∈ ks, entryPos k + 16 ≤ b.len) : parseEntries b ks = parseEntries c ks := by
  induction ks with
  | nil => rfl
  | cons k ks ih =>
    have hk := hks k (by simp)
    simp only [parseEntries, h.parseEntry_eq hk, h.entryAt_eq hk, ih fun j hj => hks j (by simp [hj])]

/-- Entry `k` of a table of `n` entries lies below its end. -/
theorem entryPos_add_le {k n : Nat} (h : k < n) : entryPos k + 16 ≤ 6 + 16 * n := by
  unfold entryPos
  omega

theorem Bytes.Agree.parseIco_eq {b c : Bytes} (h : b.Agree c) (tocMax : Nat) : parseIco tocMax b = parseIco tocMax c := by
  unfold parseIco
  rw [← h.len]
  split
  · rfl
  have hcount : icoCount b = icoCount c := congrArg BitVec.toNat (h.rd16_eq (by omega))
  rw [h.rd16_eq (o := 0) (by omega), h.rd16_eq (o := 2) (by omega), hcount]
  split
  · rfl
  split
  · rfl
  split
  · rfl
  split
  · rfl
  exact h.parseEntries_eq fun k hk =>
    Nat.le_trans (entryPos_add_le (List.mem_range.mp hk)) (by omega)

/-- The entries of a file that passes, and their embedded headers, lie below its end (R255, R257). -/
theorem entry_inside_of_parseIco {inp : Bytes} {tocMax k : Nat} {es : List (TocEntry × BmpInfo)} {e : TocEntry × BmpInfo}
    (h : parseIco tocMax inp = .ok es) (he : es[k]? = some e) :
    entryPos k + 16 ≤ inp.len ∧ e.1.offset.toNat + 40 ≤ inp.len := by
  obtain ⟨hico, hes⟩ := parseIco_ok h
  obtain ⟨rfl, hall⟩ := parseEntries_ok hes
  obtain ⟨hk, rfl⟩ := List.getElem?_eq_some_iff.mp he
  have hcount : k < icoCount inp := by simpa using hk
  refine ⟨Nat.le_trans (entryPos_add_le hcount) hico.toc, ?_⟩
  simpa using (hall k (List.mem_range.mpr hcount)).len

theorem Bytes.Agree.parsedRecords_eq {b c : Bytes} {tocMax : Nat} {es : List (TocEntry × BmpInfo)} (h : b.Agree c)
    (hes : parseIco tocMax b = .ok es) : parsedRecords b es = parsedRecords c es := by
  refine List.map_congr_left fun p hp => ?_
  obtain ⟨hentry, hheader⟩ := entry_inside_of_parseIco hes (List.mem_zipIdx_iff_getElem?.mp hp)
  have h1 := (h.slice hentry).toList_eq
  have h2 : (headerAt b p.1.1.offset.toNat).toList = (headerAt c p.1.1.offset.toNat).toList := (h.slice hheader).toList_eq
  rw [h1, h2]

theorem runParse_congr {s u : State} (h : SameInputs s u) : runParse s = runParse u := by
  have hin := icoInput_agree h
  unfold runParse
  rw [← h.1, ← hin.parseIco_eq]
  cases hes : parseIco s.params.tocMax s.icoInput with
  | error e => rfl
  | ok es => simp only [hin.parsedRecords_eq hes]

/-! ## The decoder -/

/-- Decoding reads the masks below their lengths only (42_mask_codec.md R231, R232). -/
theorem decodeMasks_congr {x y a b : Bytes} {w h : Nat} (hw : w = 16 ∨ w = 32)
    (hx : ∀ j < xorLen w h, x.byte j = y.byte j) (ha : ∀ j < andLen h, a.byte j = b.byte j) :
    decodeMasks x a w h = decodeMasks y b w h := by
  refine List.map_congr_left fun i hi => ?_
  have hi' : i < w * h := List.mem_range.mp hi
  have hrow : i / w < h := Nat.div_lt_of_lt_mul hi'
  have hcol : i % w < w := Nat.mod_lt i (Nat.pos_of_lt_mul_right hi')
  have hsize : w * h = 2 * (w / 2 * h) := mul_eq_two_mul_half (by omega) h
  have hnib : x.byte (i / 2) = y.byte (i / 2) := hx _ (by unfold xorLen; omega)
  have hbit : a.byte (4 * (i / w) + i % w / 8) = b.byte (4 * (i / w) + i % w / 8) := ha _ (by unfold andLen; omega)
  rw [decPixel, decPixel, decNibble, decNibble, decBit, decBit, hnib, hbit]

theorem Bytes.Agree.decodeEntry_eq {b c : Bytes} (h : b.Agree c) (cap k : Nat) (e : TocEntry) (bi : BmpInfo) :
    decodeEntry b cap k e bi = decodeEntry c cap k e bi := by
  simp only [decodeEntry, ← h.len]
  split
  · rfl
  split
  · rfl
  split
  · rfl
  split
  · rfl
  rename_i _ hw hfin _
  have hx := h.slice (o := xorStart e bi) (n := xorLen (dim8 e.w) (dim8 e.h)) (by omega)
  have ha := h.slice (o := xorStart e bi + xorLen (dim8 e.w) (dim8 e.h)) (n := andLen (dim8 e.h)) (by omega)
  rw [decodeMasks_congr (by omega) hx.byte ha.byte]

theorem runDecode_congr {s u : State} (h : SameInputs s u) (k : Nat) : runDecode k s = runDecode k u := by
  have hin := icoInput_agree h
  unfold runDecode
  rw [← h.1, ← hin.parseIco_eq]
  cases hes : parseIco s.params.tocMax s.icoInput with
  | error e => rfl
  | ok es => simp only [hin.parsedRecords_eq hes, hin.decodeEntry_eq]

/-! ## Every command -/

/-- The outcome of a command's rule is a function of its inputs (10_state.md R59). -/
theorem outcomeOf_congr {s u : State} (h : SameInputs s u) (i : Instr) : outcomeOf i s = outcomeOf i u := by
  cases i with
  | nop => rfl
  | verify k x y => exact runVerify_congr h k x y
  | encode k => exact runEncode_congr h k
  | assemble => exact runAssemble_congr h
  | parse => exact runParse_congr h
  | decode k => exact runDecode_congr h k

theorem wordOutcome_congr {s u : State} (h : SameInputs s u) (v : Word) : wordOutcome v s = wordOutcome v u := by
  unfold wordOutcome
  cases decode v with
  | none => rfl
  | some i => exact outcomeOf_congr h i

/-! ## The results of the completion step -/

/-- A length register holds no more than the length it was written with. -/
theorem toNat_ofNat_le (n : Nat) : (BitVec.ofNat 32 n).toNat ≤ n := by
  rw [BitVec.toNat_ofNat]
  exact Nat.mod_le _ _

@[simp] theorem complete_ok_err (s : State) (r : Results) : (s.complete (.ok r)).status.err = s.status.err := by
  obtain ⟨info, out, toc⟩ := r
  cases info <;> simp [complete_ok]

theorem complete_ok_info {s : State} {r : Results} {bi : BmpInfo} (h : r.info = some bi) :
    (s.complete (.ok r)).info = .held bi ∧ (s.complete (.ok r)).status.infoV = true := by
  simp [complete_ok, h]

theorem complete_ok_out {s : State} {r : Results} {bs : List Byte} (h : r.out = some bs) :
    (s.complete (.ok r)).outLen = BitVec.ofNat 32 bs.length ∧
      ∀ j, (hj : j < bs.length) → (s.complete (.ok r)).outmem.byte .outmem j = bs[j] := by
  refine ⟨by simp [complete_ok, h], fun j hj => ?_⟩
  have hw := byte_write_inside s.outmem .outmem 0 bs j hj
  simpa [complete_ok, h] using hw

theorem complete_ok_toc {s : State} {r : Results} {rs : List (List Byte)} (h : r.toc = some rs) :
    (s.complete (.ok r)).tocCount = BitVec.ofNat 32 rs.length ∧
      ∀ j, (hj : j < rs.flatten.length) → (s.complete (.ok r)).tocram.byte .tocram j = rs.flatten[j] := by
  refine ⟨by simp [complete_ok, h], fun j hj => ?_⟩
  have hw := byte_write_inside s.tocram .tocram 0 rs.flatten j hj
  simpa [complete_ok, h] using hw

/-- The records of a command's TOC result have 64 bytes each (30_encoding.md R141). -/
theorem outcome_toc_length {i : Instr} {s : State} {r : Results} {rs : List (List Byte)} (h : outcomeOf i s = .ok r)
    (hr : r.toc = some rs) : rs.flatten.length = 64 * rs.length := by
  refine flatten_length_const 64 rs fun l hl => ?_
  obtain ⟨k, hk, rfl⟩ := List.getElem_of_mem hl
  obtain ⟨entry, header, he, hh, heq⟩ := (outcome_fits h).tocRecord rs hr k hk
  rw [heq, tocRecord_length entry header k he hh]

end Sys2Proof.Machine

namespace Sys2Proof.Claims

open Sys2Proof.Machine

/-- Settles O15: the two states have one outcome, and the completion step writes it alike in both. -/
theorem resultsDependOnlyOnTheInputs : Obligations.ResultsDependOnlyOnTheInputs := by
  intro i s u s' u' hsame hs hu hs' hu'
  rw [exec_eq] at hs' hu'
  cases hs'
  cases hu'
  rw [← outcomeOf_congr hsame i]
  cases ho : outcomeOf i s with
  | error e => exact ⟨rfl, fun _ => ⟨rfl, rfl, rfl, rfl, rfl⟩, fun h => absurd h (by simp [complete_error])⟩
  | ok r =>
    obtain ⟨ginfo, gout, gtoc⟩ := outcome_isSome ho
    refine ⟨by simp [hs, hu], fun h => absurd h (by simp [hs]), fun _ => ⟨fun hi => ?_, fun hi => ?_, fun hi => ?_⟩⟩
    · obtain ⟨bi, hbi⟩ := Option.isSome_iff_exists.mp (ginfo.trans hi)
      obtain ⟨hinfo, hinfoV⟩ := complete_ok_info (s := s) hbi
      obtain ⟨hinfo', hinfoV'⟩ := complete_ok_info (s := u) hbi
      exact ⟨hinfo.trans hinfo'.symm, hinfoV, hinfoV'⟩
    · obtain ⟨bs, hbs⟩ := Option.isSome_iff_exists.mp (gout.trans hi)
      obtain ⟨hlen, hbytes⟩ := complete_ok_out (s := s) hbs
      obtain ⟨hlen', hbytes'⟩ := complete_ok_out (s := u) hbs
      refine ⟨hlen.trans hlen'.symm, fun a ha => ?_⟩
      have hin : a < bs.length := Nat.lt_of_lt_of_le ha (by rw [hlen]; exact toNat_ofNat_le _)
      rw [hbytes a hin, hbytes' a hin]
    · obtain ⟨rs, hrs⟩ := Option.isSome_iff_exists.mp (gtoc.trans hi)
      obtain ⟨hcount, hbytes⟩ := complete_ok_toc (s := s) hrs
      obtain ⟨hcount', hbytes'⟩ := complete_ok_toc (s := u) hrs
      refine ⟨hcount.trans hcount'.symm, fun a ha => ?_⟩
      have hle : (s.complete (.ok r)).tocCount.toNat ≤ rs.length := by rw [hcount]; exact toNat_ofNat_le _
      have hin : a < rs.flatten.length := by rw [outcome_toc_length ho hrs]; omega
      rw [hbytes a hin, hbytes' a hin]

end Sys2Proof.Claims
end

section
/-! PROOFS. A command while it runs: what the host's accesses can change in it, that it completes after its internal
steps, and that its outcome is the one it had when it started (10_state.md R35, R55; 70_reset_and_hazards.md R361). -/

namespace Sys2Proof.Machine

open Sys2Proof.Claims

/-! ## What the host can change in a running block -/

/-- The state with everything that a host can change while BUSY = 1, short of a reset, set anew: `n` internal steps
left, WDROP, the count of free values, the host's list and what it has read. -/
def State.midRun (s : State) (n : Nat) (wdrop : Bool) (draws : Nat) (host : List HostOp) (reads : List Word) : State :=
  { s with status := { s.status with wdrop := wdrop }, stepsLeft := n, draws := draws, host := host, reads := reads }

section
variable (s : State) (n m : Nat) (w w' : Bool) (d d' : Nat) (l l' : List HostOp) (r r' : List Word)

@[simp] theorem midRun_params : (s.midRun n w d l r).params = s.params := rfl
@[simp] theorem midRun_cmd : (s.midRun n w d l r).cmd = s.cmd := rfl
@[simp] theorem midRun_busy : (s.midRun n w d l r).status.busy = s.status.busy := rfl
@[simp] theorem midRun_done : (s.midRun n w d l r).status.done = s.status.done := rfl
@[simp] theorem midRun_stepsLeft : (s.midRun n w d l r).stepsLeft = n := rfl
@[simp] theorem midRun_host : (s.midRun n w d l r).host = l := rfl

@[simp] theorem midRun_midRun : (s.midRun n w d l r).midRun m w' d' l' r' = s.midRun m w' d' l' r' := rfl

theorem midRun_self (h : s.stepsLeft = n) : s = s.midRun n s.status.wdrop s.draws s.host s.reads := by
  subst h
  rfl

theorem sameBlock_midRun : SameBlock (s.midRun n w d l r) s :=
  ⟨rfl, rfl, rfl, rfl, rfl, rfl, rfl, rfl, rfl, rfl, rfl, rfl, rfl, rfl, rfl, rfl, rfl⟩

theorem sameInputs_midRun : SameInputs (s.midRun n w d l r) s :=
  ⟨rfl, rfl, rfl, rfl, rfl, fun _ _ => rfl, fun _ _ => rfl⟩

/-- No rule of a command reads what the host can change meanwhile (R361). -/
theorem wordOutcome_midRun (v : Word) : wordOutcome v (s.midRun n w d l r) = wordOutcome v s :=
  wordOutcome_congr (sameInputs_midRun s n w d l r) v

/-- The completion step neither reads nor changes it. -/
theorem complete_midRun (o : Except CmdError Results) :
    (s.midRun n w d l r).complete o = (s.complete o).midRun n w d l r := by
  cases o with
  | error e => rfl
  | ok x =>
    obtain ⟨info, out, toc⟩ := x
    cases info <;> cases out <;> cases toc <;> rfl

end

/-- A host access to a running block, short of a reset, changes nothing else; and what the host has left to do it had to
do before. -/
theorem hostAccess_busy {op : HostOp} {s t : State} (hb : s.status.busy = true) (hop : op ≠ .reset)
    (h : hostAccess op s = .next t) :
    ∃ w d l r, t = s.midRun s.stepsLeft w d l r ∧ l ⊆ op :: s.host := by
  have hsub : s.host ⊆ op :: s.host := List.subset_cons_self _ _
  rcases hostAccess_cases h with ⟨o, v, -, -, -, rfl⟩ | ⟨o, -, -, -, rfl⟩ | ⟨sp, a, b, -, -, rfl⟩ | ⟨sp, a, -, -, rfl⟩ |
    ⟨rfl, -, rfl⟩ | ⟨-, hidle, -⟩ | ⟨rfl, -⟩
  · exact ⟨_, _, _, _, hostWriteReg_busy hb o v, hsub⟩
  · unfold State.hostReadReg
    split
    · exact ⟨_, _, _, _, rfl, hsub⟩
    · exact ⟨_, _, _, _, rfl, hsub⟩
  · unfold State.hostWriteByte
    rw [if_pos hb]
    split
    · exact ⟨_, _, _, _, rfl, hsub⟩
    · exact ⟨_, _, _, _, rfl, hsub⟩
  · unfold State.hostReadByte
    split
    · exact ⟨_, _, _, _, rfl, hsub⟩
    · exact ⟨_, _, _, _, rfl, hsub⟩
  · exact ⟨_, _, _, _, rfl, List.Subset.refl _⟩
  · simp [hb] at hidle
  · exact absurd rfl hop

/-- An internal step, unless the host resets the block in it, changes nothing but what one host access can change. -/
theorem internalStep_next {s t : State} {n : Nat} (hb : s.status.busy = true) (hn : s.stepsLeft = n + 1)
    (hr : s.host.head? ≠ some .reset) (h : step s = .next t) :
    ∃ w d l r, t = s.midRun n w d l r ∧ l ⊆ s.host := by
  rw [step_internal hb hn] at h
  rcases hostStep_cases h with ⟨-, rfl⟩ | ⟨op, rest, hh, ha⟩
  · exact ⟨_, _, _, _, rfl, List.Subset.refl _⟩
  · have hop : op ≠ .reset := fun hc => hr (by simpa [hc] using congrArg List.head? hh)
    obtain ⟨w, d, l, r, rfl, hl⟩ := hostAccess_busy (s := { s with stepsLeft := n, host := rest }) hb hop ha
    have hhost : s.host = op :: rest := hh
    exact ⟨w, d, l, r, rfl, hhost ▸ hl⟩

theorem head_ne_reset {l : List HostOp} (h : HostOp.reset ∉ l) : l.head? ≠ some .reset :=
  fun hc => h (List.mem_of_head? hc)

/-! ## Runs -/

/-- A run of one step more begins with a step that has a next state. -/
theorem coreRun_succ_next {M : Host.Core} {s t : M.State} {n : Nat} (h : M.run (n + 1) s = .next t) :
    ∃ s', M.step s = .next s' ∧ M.run n s' = .next t := by
  simp only [Host.Core.run] at h
  split at h
  · rename_i s' hs
    exact ⟨s', hs, h⟩
  · cases h
  · cases h

theorem run_succ_next {s t : State} {n : Nat} (h : Host.Core.run Sys2Proof.core (n + 1) s = .next t) :
    ∃ s', step s = .next s' ∧ Host.Core.run Sys2Proof.core n s' = .next t := coreRun_succ_next h

/-- A running command that reaches the end of its internal steps has the outcome that its rule has now. -/
theorem run_busy {n : Nat} {s t : State} (hb : s.status.busy = true) (hn : s.stepsLeft = n) (hr : HostOp.reset ∉ s.host)
    (h : Host.Core.run Sys2Proof.core (n + 1) s = .next t) :
    ∃ w d l r, t = (s.complete (wordOutcome s.cmd s)).midRun 0 w d l r := by
  induction n generalizing s with
  | zero =>
    obtain ⟨s', hs, ht⟩ := run_succ_next h
    rw [step_completion hb hn, completionStep_eq] at hs
    cases hs
    cases ht
    exact ⟨_, _, _, _, midRun_self _ _ (by simpa using hn)⟩
  | succ n ih =>
    obtain ⟨s', hs, ht⟩ := run_succ_next h
    obtain ⟨w, d, l, r, rfl, hl⟩ := internalStep_next hb hn (head_ne_reset hr) hs
    obtain ⟨w', d', l', r', rfl⟩ := ih (s := s.midRun n w d l r) hb rfl (fun hm => hr (hl hm)) ht
    exact ⟨w', d', l', r', by rw [midRun_cmd, wordOutcome_midRun, complete_midRun, midRun_midRun]⟩

/-! ## Accesses that have a meaning -/

/-- An access that has a meaning has a next state (20_memory.md R85). -/
theorem hostAccess_next_of_valid {op : HostOp} {s : State} (h : validAccess s.params op) :
    ∃ t, hostAccess op s = .next t := by
  cases op with
  | writeReg w o v =>
    obtain ⟨rfl, h4, hlt⟩ := h
    exact ⟨_, hostAccess_writeReg s v h4 hlt⟩
  | readReg w o =>
    obtain ⟨rfl, h4, hlt⟩ := h
    exact ⟨_, hostAccess_readReg s h4 hlt⟩
  | writeByte sp a b => exact ⟨_, if_pos h⟩
  | readByte sp a => exact ⟨_, if_pos h⟩
  | wait => by_cases hb : s.status.busy = true <;> simp [hostAccess, hb]
  | reset => exact ⟨_, rfl⟩

theorem hostStep_next_of_valid {s : State} (h : s.hostValid) : ∃ t, hostStep s = .next t := by
  unfold hostStep
  split
  · exact ⟨s, rfl⟩
  · rename_i op rest hh
    exact hostAccess_next_of_valid (h op (by simp [hh]))

/-- A running command whose host makes only accesses that have a meaning is never stopped. -/
theorem run_busy_exists {n : Nat} {s : State} (hb : s.status.busy = true) (hn : s.stepsLeft = n) (hv : s.hostValid)
    (hr : HostOp.reset ∉ s.host) : ∃ t, Host.Core.run Sys2Proof.core (n + 1) s = .next t := by
  induction n generalizing s with
  | zero => exact ⟨_, run_of_step ((step_completion hb hn).trans (completionStep_eq s))⟩
  | succ n ih =>
    obtain ⟨s', hs⟩ := hostStep_next_of_valid (s := { s with stepsLeft := n }) hv
    rw [← step_internal hb hn] at hs
    obtain ⟨w, d, l, r, rfl, hl⟩ := internalStep_next hb hn (head_ne_reset hr) hs
    rw [run_of_step hs]
    exact ih (s := s.midRun n w d l r) hb rfl (fun op ho => hv op (hl ho)) (fun hm => hr (hl hm))

/-! ## The start of a command -/

theorem hostWriteByte_keeps_busy (s : State) (sp : Space) (a : Nat) (b : Byte) :
    (s.hostWriteByte sp a b).status.busy = s.status.busy := by
  unfold State.hostWriteByte
  split
  · split <;> rfl
  · cases sp <;> rfl

theorem hostReadReg_keeps_status (s : State) (o : Nat) : (s.hostReadReg o).status = s.status := by
  unfold State.hostReadReg
  split <;> rfl

theorem hostReadByte_keeps_status (s : State) (sp : Space) (a : Nat) : (s.hostReadByte sp a).status = s.status := by
  unfold State.hostReadByte
  split <;> rfl

/-- The one host access that sets BUSY is the write of CMD to an idle block (R33, R35). -/
theorem hostAccess_sets_busy {op : HostOp} {s t : State} (hb : s.status.busy = false) (h : hostAccess op s = .next t)
    (ht : t.status.busy = true) : ∃ v, op = .writeReg 32 0x000 v ∧ t = s.accept v := by
  have idle {u : State} (hu : u.status.busy = s.status.busy) (ht' : u.status.busy = true) : False := by
    simp [hu, hb] at ht'
  rcases hostAccess_cases h with ⟨o, v, hop, -, -, rfl⟩ | ⟨o, -, -, -, rfl⟩ | ⟨sp, a, b, -, -, rfl⟩ |
    ⟨sp, a, -, -, rfl⟩ | ⟨-, hbusy, -⟩ | ⟨-, -, rfl⟩ | ⟨-, rfl⟩
  · rw [hostWriteReg_idle hb] at ht ⊢
    rcases setReg_cases s o v with ⟨rfl, hs⟩ | ⟨-, hs⟩ | ⟨-, hs⟩ | ⟨-, hs⟩ | ⟨-, hs⟩ | hs
    · exact ⟨v, hop, hs⟩
    all_goals exact (idle (by rw [hs]) ht).elim
  · exact (idle (congrArg _ (hostReadReg_keeps_status s o)) ht).elim
  · exact (idle (hostWriteByte_keeps_busy s sp a b) ht).elim
  · exact (idle (congrArg _ (hostReadByte_keeps_status s sp a)) ht).elim
  · simp [hb] at hbusy
  · exact (idle rfl ht).elim
  · cases ht

end Sys2Proof.Machine

namespace Sys2Proof.Claims

open Sys2Proof.Machine

/-- Settles O13: no step of the run stops, and its last step is the completion step. -/
theorem runningCommandCompletes : Obligations.RunningCommandCompletes := by
  intro n s hb hn hv hr
  obtain ⟨t, ht⟩ := run_busy_exists hb hn hv hr
  obtain ⟨w, d, l, r, rfl⟩ := run_busy hb hn hr ht
  exact ⟨_, ht, by simp, by simp⟩

/-- Settles O14: the run ends in the outcome of the state it starts from. -/
theorem hostAccessesNeverChangeARunningCommand : Obligations.HostAccessesNeverChangeARunningCommand := by
  intro n s t u hb hn hr ht hu
  obtain ⟨w, d, l, r, rfl⟩ := run_busy hb hn hr ht
  rw [completionStep_eq] at hu
  cases hu
  exact sameBlock_midRun _ _ _ _ _ _

/-- Settles O16: an idle block's step is its host's, and only the write of CMD sets BUSY. -/
theorem onlyACommandWriteSetsBusy : Obligations.OnlyACommandWriteSetsBusy := by
  intro s t h hb ht
  rw [step_idle hb] at h
  rcases hostStep_cases h with ⟨-, rfl⟩ | ⟨op, rest, hh, ha⟩
  · simp [hb] at ht
  · obtain ⟨v, rfl, rfl⟩ := hostAccess_sets_busy (s := { s with host := rest }) hb ha ht
    exact ⟨v, rest, hh, rfl, rfl⟩

/-- Settles O17: the completion step keeps the inputs, and so do an internal step and a reset in one. -/
theorem inputsAreFrozenWhileBusy : Obligations.InputsAreFrozenWhileBusy := by
  intro s t h hb
  rcases step_cases h with ⟨-, -, rfl⟩ | ⟨n, -, hn, hh⟩ | ⟨hidle, -⟩
  · simp
  · by_cases hr : s.host.head? = some .reset
    · obtain ⟨rest, hrest⟩ := List.head?_eq_some_iff.mp hr
      have ht : hostAccess .reset { s with stepsLeft := n, host := rest } = .next t := by
        simpa [hostStep, hrest] using hh
      cases ht
      exact ⟨rfl, rfl, rfl, fun hne => absurd hr hne⟩
    · obtain ⟨w, d, l, r, rfl, -⟩ := internalStep_next hb hn hr h
      exact ⟨rfl, rfl, rfl, fun _ => ⟨rfl, rfl, rfl, rfl, rfl⟩⟩
  · simp [hb] at hidle

end Sys2Proof.Claims
end

section
/-! PROOFS. The invariant of the block is kept by every step: by the host's accesses and the reset input, by the accept
step, and by the completion step, whose results are written one group after the other (10_state.md R34 to R65,
60_exceptions.md R310). -/

namespace Sys2Proof.Machine

/-! ## The host's accesses -/

/-- While a command runs, the number of its internal steps left is bound by nothing. -/
theorem Inv.internal {s : State} (h : Inv s) (hb : s.status.busy = true) (n : Nat) : Inv { s with stepsLeft := n } :=
  { h with idle := fun hidle => by simp [hb] at hidle }

/-- A dropped write sets WDROP, of which the invariant says nothing. -/
theorem Inv.dropped {s : State} (h : Inv s) : Inv { s with status := s.status.dropped } := { h with }

/-- The accept step clears the error report and invalidates the groups of the write set (R54). -/
theorem Inv.accept {s : State} (h : Inv s) (v : Word) : Inv (s.accept v) where
  params := h.params
  inmem := h.inmem
  srcdesc := h.srcdesc
  running _ := ⟨rfl, rfl⟩
  idle hb := by simp at hb
  quiet _ := ⟨rfl, rfl, rfl, rfl, rfl⟩
  report he := by simp at he
  info := by cases hc : clears v .info <;> simp +contextual [hc, h.info]
  outmem := by cases hc : clears v .out <;> simp [hc, h.outmem]
  outLen := by cases hc : clears v .out <;> simp [hc, h.outLen]
  outValid := by cases hc : clears v .out <;> simp +contextual [hc, h.outValid]
  tocram := by cases hc : clears v .toc <;> simp [hc, h.tocram]
  tocCount := by cases hc : clears v .toc <;> simp [hc, h.tocCount]
  tocValid := by cases hc : clears v .toc <;> simp +contextual [hc, h.tocValid]
  tocTail := by cases hc : clears v .toc <;> simp +contextual [hc, h.tocTail]
  infoCleared _ hc := by simp [show clears v .info = true from hc]
  outCleared _ hc := by simp [show clears v .out = true from hc, Memory.unspecified]
  tocCleared _ hc := by simp [show clears v .toc = true from hc, Memory.unspecified]

/-- The reset input leaves the reset values, and memories that still have their canonical form (R342). -/
theorem Inv.resetEvent {s : State} (h : Inv s) : Inv s.resetEvent := by
  constructor
  case params => exact h.params
  case inmem => exact h.inmem
  case outmem => exact h.outmem
  case srcdesc => exact h.srcdesc
  case tocram => exact h.tocram
  all_goals simp [Status.reset]

theorem Inv.setReg {s : State} (h : Inv s) (o : Nat) (v : Word) : Inv (s.setReg o v) := by
  rcases setReg_cases s o v with ⟨-, hs⟩ | ⟨-, hs⟩ | ⟨-, hs⟩ | ⟨-, hs⟩ | ⟨-, hs⟩ | hs <;> rw [hs]
  · exact h.accept v
  · exact { h with }
  · exact { h with }
  · exact { h with }
  · exact { h with }
  · exact h

theorem Inv.hostWriteReg {s : State} (h : Inv s) (o : Nat) (v : Word) : Inv (s.hostWriteReg o v) := by
  unfold State.hostWriteReg
  split
  · exact h.dropped
  · exact h.setReg o v

/-- A byte stored inside its memory keeps the canonical form (20_memory.md R102). -/
theorem Inv.setByte {s : State} (h : Inv s) {sp : Space} {a : Nat} (b : Byte) (ha : a < memSize s.params sp) :
    Inv (s.setByte sp a b) := by
  cases sp with
  | inmem => exact { h with inmem := write_wf s.inmem _ a [b] h.inmem ha }
  | srcdesc => exact { h with srcdesc := write_wf s.srcdesc _ a [b] h.srcdesc ha }
  | outmem => exact h
  | tocram => exact h

theorem Inv.hostWriteByte {s : State} (h : Inv s) {sp : Space} {a : Nat} (b : Byte) (ha : a < memSize s.params sp) :
    Inv (s.hostWriteByte sp a b) := by
  unfold State.hostWriteByte
  split
  · split
    · exact h
    · exact h.dropped
  · exact h.setByte b ha

/-- A read records a word and may draw a free value, of which the invariant says nothing. -/
theorem Inv.hostReadReg {s : State} (h : Inv s) (o : Nat) : Inv (s.hostReadReg o) := by
  unfold State.hostReadReg
  split <;> exact { h with }

theorem Inv.hostReadByte {s : State} (h : Inv s) (sp : Space) (a : Nat) : Inv (s.hostReadByte sp a) := by
  unfold State.hostReadByte
  split <;> exact { h with }

theorem Inv.hostAccess {s t : State} {op : HostOp} (h : Inv s) (ht : hostAccess op s = .next t) : Inv t := by
  rcases hostAccess_cases ht with ⟨o, v, -, -, -, rfl⟩ | ⟨o, -, -, -, rfl⟩ | ⟨sp, a, b, -, ha, rfl⟩ |
    ⟨sp, a, -, -, rfl⟩ | ⟨-, -, rfl⟩ | ⟨-, -, rfl⟩ | ⟨-, rfl⟩
  · exact h.hostWriteReg o v
  · exact h.hostReadReg o
  · exact h.hostWriteByte b ha
  · exact h.hostReadByte sp a
  · exact { h with }
  · exact { h with }
  · exact h.resetEvent

theorem Inv.hostStep {s t : State} (h : Inv s) (ht : hostStep s = .next t) : Inv t := by
  rcases hostStep_cases ht with ⟨-, rfl⟩ | ⟨op, rest, -, ha⟩
  · exact h
  · exact Inv.hostAccess (s := { s with host := rest }) { h with } ha

/-! ## The completion step -/

/-- Clearing BUSY and setting DONE ends the time in which the write set's groups are invalid (R55). -/
theorem Inv.finish {s : State} (h : Inv s) (hn : s.stepsLeft = 0) : Inv s.finish :=
  { h with
    running := fun hb => by simp at hb
    idle := fun _ => hn
    infoCleared := fun hb => by simp at hb
    outCleared := fun hb => by simp at hb
    tocCleared := fun hb => by simp at hb }

/-- The error entry leaves a report that a command can leave, and the results as they are (60_exceptions.md R310). -/
theorem Inv.enterError {s : State} (h : Inv s) (hn : s.stepsLeft = 0) {e : CmdError} (he : legalError e) :
    Inv (s.enterError e) :=
  { h.finish hn with
    running := fun hb => by simp at hb
    quiet := fun hq => by simp at hq
    report := fun _ => ⟨e, he.1, he.2, rfl, rfl, rfl⟩ }

/-- INFO holds a verified header when INFO_V is set (R38). -/
theorem Inv.putInfo {s : State} (h : Inv s) (hb : s.status.busy = false) {o : Option BmpInfo}
    (ho : ∀ bi, o = some bi → bi.headerSz = 40#32 ∧ bi.compression = 0#32 ∧ bi.palSz ≠ 0#32) : Inv (s.putInfo o) := by
  cases o with
  | none => exact h
  | some bi =>
    exact { h with
      info := fun _ => ⟨bi, rfl, ho bi rfl⟩
      infoCleared := fun hbusy => by simp [hb] at hbusy }

/-- The bytes of OUT are definite and OUT_LEN counts them (R48, R62). -/
theorem Inv.putOut {s : State} (h : Inv s) (hb : s.status.busy = false) {o : Option (List Byte)}
    (ho : ∀ bs, o = some bs → bs.length ≤ s.params.outCap) : Inv (s.putOut o) := by
  cases o with
  | none => exact h
  | some bs =>
    have hle : (BitVec.ofNat 32 bs.length).toNat ≤ bs.length := toNat_ofNat_le _
    have hcap : bs.length ≤ s.params.outCap := ho bs rfl
    exact { h with
      outmem := write_wf s.outmem _ 0 bs h.outmem (by simpa [memSize] using hcap)
      outLen := Nat.le_trans hle hcap
      outValid := fun a ha => by
        have hin : a < bs.length := Nat.lt_of_lt_of_le ha hle
        simp [lookupCell_write, hin]
      outCleared := fun hbusy => by simp [hb] at hbusy }

/-- The records that a command hands to TOC have 64 bytes each (30_encoding.md R141). -/
theorem ResultsFit.record_length {p : Params} {r : Results} {rs : List (List Byte)} (h : ResultsFit p r)
    (hr : r.toc = some rs) : ∀ l ∈ rs, l.length = 64 := by
  intro l hl
  obtain ⟨k, hk, rfl⟩ := List.getElem_of_mem hl
  obtain ⟨entry, header, hentry, hheader, heq⟩ := h.tocRecord rs hr k hk
  rw [heq, tocRecord_length entry header k hentry hheader]

/-- Byte `i` of record `k` among records of 64 bytes. -/
theorem flatten_record_getElem? {rs : List (List Byte)} (h : ∀ l ∈ rs, l.length = 64) {k i : Nat} (hk : k < rs.length)
    (hi : i < 64) : rs.flatten[64 * k + i]? = rs[k][i]? := by
  rw [← sliceList_flatten_const 64 rs h k hk, sliceList, List.getElem?_take_of_lt hi, List.getElem?_drop]

/-- A record ends in PATCH_POS and four zeros (30_encoding.md R141). -/
theorem tocRecord_tail {entry header : List Byte} (k j : Nat) (he : entry.length = 16) (hh : header.length = 40) :
    (tocRecord entry header k)[56 + j]? = (le32 (patchPos k) ++ le32 0)[j]? := by
  rw [tocRecord, List.append_assoc, List.getElem?_append_right (by simp [he, hh])]
  simp [he, hh]

/-- The records of TOC are definite, TOC_COUNT counts them, and each ends as R141 says (R49, R64, R65). -/
theorem Inv.putToc {s : State} (h : Inv s) (hb : s.status.busy = false) {r : Results} (hr : ResultsFit s.params r) :
    Inv (s.putToc r.toc) := by
  cases ho : r.toc with
  | none => exact h
  | some rs =>
    have hle : (BitVec.ofNat 32 rs.length).toNat ≤ rs.length := toNat_ofNat_le _
    have hmax : rs.length ≤ s.params.tocMax := hr.tocCount rs ho
    have h64 : ∀ l ∈ rs, l.length = 64 := hr.record_length ho
    have hlen : rs.flatten.length = 64 * rs.length := flatten_length_const 64 rs h64
    have listed {a : Nat} (ha : a < 64 * rs.length) :
        lookupCell (s.tocram.write 0 rs.flatten).cells a = rs.flatten[a]? := by
      rw [lookupCell_write, if_pos ⟨Nat.zero_le a, by omega⟩, Nat.sub_zero]
    exact { h with
      tocram := write_wf s.tocram (64 * s.params.tocMax) 0 rs.flatten h.tocram (by omega)
      tocCount := Nat.le_trans hle hmax
      tocValid := fun a ha => by
        have hcount : a < 64 * (BitVec.ofNat 32 rs.length).toNat := ha
        have hin : a < 64 * rs.length := by omega
        rw [putToc_some_tocram, listed hin, List.getElem?_eq_getElem (by omega)]
        rfl
      tocTail := fun k hk j hj => by
        have hk' : k < rs.length := Nat.lt_of_lt_of_le hk hle
        obtain ⟨entry, header, hentry, hheader, heq⟩ := hr.tocRecord rs ho k hk'
        rw [putToc_some_tocram, listed (by omega), Nat.add_assoc, flatten_record_getElem? h64 hk' (by omega), heq,
          tocRecord_tail k j hentry hheader]
      tocCleared := fun hbusy => by simp [hb] at hbusy }

theorem putInfo_busy (s : State) (o : Option BmpInfo) : (s.putInfo o).status.busy = s.status.busy := by
  cases o <;> rfl

/-- The results can be written after BUSY is cleared: no group's registers but STATUS.INFO_V lie in STATUS. -/
theorem complete_ok_finish_first (s : State) (r : Results) :
    s.complete (.ok r) = ((s.finish.putInfo r.info).putOut r.out).putToc r.toc := by
  obtain ⟨info, out, toc⟩ := r
  cases info <;> cases out <;> cases toc <;> rfl

theorem Inv.complete_ok {s : State} (h : Inv s) (hn : s.stepsLeft = 0) {r : Results} (hr : ResultsFit s.params r) :
    Inv (s.complete (.ok r)) := by
  have hidle : s.finish.status.busy = false := rfl
  rw [complete_ok_finish_first]
  refine Inv.putToc (Inv.putOut ((h.finish hn).putInfo hidle hr.info) ?_ ?_) ?_ ?_
  · rw [putInfo_busy, hidle]
  · simpa using hr.out
  · rw [putOut_status, putInfo_busy, hidle]
  · simpa using hr

theorem Inv.complete {s : State} (h : Inv s) (hn : s.stepsLeft = 0) (v : Word) :
    Inv (s.complete (wordOutcome v s)) := by
  cases ho : wordOutcome v s with
  | error e => exact h.enterError hn (wordOutcome_error ho)
  | ok r =>
    obtain ⟨i, -, hi⟩ := wordOutcome_ok ho
    exact h.complete_ok hn (outcome_fits hi)

theorem Inv.step {s t : State} (h : Inv s) (ht : step s = .next t) : Inv t := by
  rcases step_cases ht with ⟨-, hn, rfl⟩ | ⟨n, hb, -, hh⟩ | ⟨-, hh⟩
  · exact h.complete hn s.cmd
  · exact (h.internal hb n).hostStep hh
  · exact h.hostStep hh

end Sys2Proof.Machine

namespace Sys2Proof.Claims

open Sys2Proof.Machine

/-- Settles O19: the completion step keeps the invariant, and so does every host access, in an internal step or alone. -/
theorem stepKeepsTheInvariant : Obligations.StepKeepsTheInvariant := fun _ _ h ht => h.step ht

end Sys2Proof.Claims
end

section
/-! PROOFS. The host's view of the block: which accesses are faults, what reads and writes do while BUSY is 0 or 1, and
the input views that a command reads (20_memory.md R85 to R102). -/

namespace Sys2Proof.Machine

/-! ## Register accesses -/

/-- A register access that is a fault answers it, whether it reads or writes (R85). -/
theorem hostAccess_register_fault {w o : Nat} {f : Fault} (h : registerFault w o = some f) (s : State) (v : Word) :
    hostAccess (.readReg w o) s = .fault f ∧ hostAccess (.writeReg w o v) s = .fault f := by
  simp [hostAccess, h]

theorem registerFault_not_word {w o : Nat} (h : w ≠ 32 ∨ o % 4 ≠ 0) :
    registerFault w o = some .hostRegisterNotAlignedWord := if_pos h

theorem registerFault_outside {o : Nat} (h4 : o % 4 = 0) (h : 4096 ≤ o) :
    registerFault 32 o = some .hostRegisterOutsideSpace := by simp [registerFault, h4, h]

/-- While BUSY = 0 a word write inside the register space follows its register's rule (R102). -/
theorem hostAccess_writeReg_idle {s : State} {o : Nat} (v : Word) (hb : s.status.busy = false) (h4 : o % 4 = 0)
    (hlt : o < 4096) : hostAccess (.writeReg 32 o v) s = .next (s.setReg o v) := by
  rw [hostAccess_writeReg s v h4 hlt, hostWriteReg_idle hb]

/-- No register but CMD and the four input registers stores a write (R33, R44, R46, R47, R52). -/
theorem setReg_ignored (s : State) {r : Reg} (v : Word) (hcmd : r ≠ .cmd) (htransp : r ≠ .transp) (hnsrc : r ≠ .nsrc)
    (hbase : r ≠ .inBase) (hlen : r ≠ .inLen) : s.setReg (regOffset r) v = s := by
  rw [State.setReg, regAt_regOffset]
  cases r with
  | cmd => exact absurd rfl hcmd
  | transp => exact absurd rfl htransp
  | nsrc => exact absurd rfl hnsrc
  | inBase => exact absurd rfl hbase
  | inLen => exact absurd rfl hlen
  | _ => rfl

theorem infoOffsetRead_info (f : InfoField) : infoOffsetRead (infoOffset f) = true := by
  have h : regAt (infoOffset f) = some (.info f) := regAt_regOffset (.info f)
  simp [infoOffsetRead, h]

theorem infoOffsetRead_stored {r : Reg} (h : ∀ f, r ≠ .info f) : infoOffsetRead (regOffset r) = false := by
  rw [infoOffsetRead, regAt_regOffset]
  cases r with
  | info f => exact absurd rfl (h f)
  | _ => rfl

/-- While BUSY = 1 a read of an INFO register answers a free value (R101). -/
theorem hostAccess_readInfo_busy {s : State} (hb : s.status.busy = true) (f : InfoField) :
    hostAccess (.readReg 32 (infoOffset f)) s =
      .next { s with reads := Config.freeRead s.draws :: s.reads, draws := s.draws + 1 } := by
  obtain ⟨h4, hlt⟩ : infoOffset f % 4 = 0 ∧ infoOffset f < 4096 := regOffset_aligned (.info f)
  rw [hostAccess_readReg s h4 hlt, State.hostReadReg, if_pos ⟨hb, infoOffsetRead_info f⟩]
  rfl

/-! ## Memory accesses -/

/-- A memory access outside its space is a fault (R85). -/
theorem hostAccess_memory_fault {s : State} {sp : Space} {a : Nat} (h : memSize s.params sp ≤ a) (b : Byte) :
    hostAccess (.readByte sp a) s = .fault .hostMemoryOutsideSpace ∧
      hostAccess (.writeByte sp a b) s = .fault .hostMemoryOutsideSpace :=
  ⟨if_neg (Nat.not_lt.mpr h), if_neg (Nat.not_lt.mpr h)⟩

/-- A byte read that answers the stored byte: every read of an idle block, and of a busy one those of INMEM and SRCDESC
(R101, R102). -/
theorem hostAccess_readByte_stored {s : State} {sp : Space} {a : Nat} (ha : a < memSize s.params sp)
    (h : s.status.busy = false ∨ coreOwned sp = false) :
    hostAccess (.readByte sp a) s = .next { s with reads := ((s.mem sp).byte sp a).setWidth 32 :: s.reads } := by
  rw [hostAccess, if_pos ha, State.hostReadByte, if_neg]
  · rfl
  · rcases h with h | h <;> simp [h]

/-- While BUSY = 1 a byte read of OUTMEM or TOCRAM answers a free value (R101). -/
theorem hostAccess_readByte_busy {s : State} {sp : Space} {a : Nat} (ha : a < memSize s.params sp)
    (hb : s.status.busy = true) (hc : coreOwned sp = true) :
    hostAccess (.readByte sp a) s =
      .next { s with reads := ((Config.freeRead s.draws).setWidth 8).setWidth 32 :: s.reads, draws := s.draws + 1 } := by
  rw [hostAccess, if_pos ha, State.hostReadByte, if_pos ⟨hb, hc⟩]
  rfl

theorem hostAccess_writeByte_idle {s : State} {sp : Space} {a : Nat} (b : Byte) (ha : a < memSize s.params sp)
    (hb : s.status.busy = false) : hostAccess (.writeByte sp a b) s = .next (s.setByte sp a b) := by
  simp [hostAccess, ha, State.hostWriteByte, hb]

/-- A byte write stores its byte and leaves every other (R102). -/
theorem byte_write_one (m : Memory) (sp : Space) (a : Nat) (b : Byte) :
    (m.write a [b]).byte sp a = b ∧ ∀ x, x ≠ a → (m.write a [b]).byte sp x = m.byte sp x :=
  ⟨byte_write_inside m sp a [b] 0 Nat.one_pos, fun x hx => byte_write_outside m sp a [b] x (by simp; omega)⟩

/-! ## The inputs of a command -/

/-- No byte of an input lies outside its memory (R88, R89). -/
theorem base_add_lt_of_lt_avail {size base len i : Nat} (h : i < avail size base len) : base + i < size := by
  unfold avail at h
  split at h <;> omega

/-! ## The stores of the completion step -/

/-- A length register holds a length that fits 32 bits. -/
theorem toNat_ofNat_of_le {n : Nat} (h : n ≤ 4294967295) : (BitVec.ofNat 32 n).toNat = n := by
  rw [BitVec.toNat_ofNat, Nat.mod_eq_of_lt (by omega)]

/-- The completion step stores in OUTMEM only below the OUT_LEN it reports, which OUTMEM holds (R91). -/
theorem complete_outmem_below {i : Instr} {s : State} (hp : s.params.Valid) (hs : s.outLen.toNat ≤ s.params.outCap) :
    (s.complete (outcomeOf i s)).outLen.toNat ≤ s.params.outCap ∧
      ∀ a, (s.complete (outcomeOf i s)).outLen.toNat ≤ a →
        (s.complete (outcomeOf i s)).outmem.byte .outmem a = s.outmem.byte .outmem a := by
  cases ho : outcomeOf i s with
  | error e => exact ⟨hs, fun _ _ => rfl⟩
  | ok r =>
    cases hr : r.out with
    | none =>
      obtain ⟨hlen, hmem⟩ := complete_keeps_out (s := s) (o := .ok r) fun _ h => Except.ok.inj h ▸ hr
      exact ⟨hlen ▸ hs, fun a _ => by rw [hmem]⟩
    | some bs =>
      obtain ⟨-, ⟨-, hcap⟩, -⟩ := hp
      have hfit : bs.length ≤ s.params.outCap := (outcome_fits ho).out bs hr
      have hlen : (s.complete (.ok r)).outLen.toNat = bs.length := by
        rw [(complete_ok_out hr).1, toNat_ofNat_of_le (Nat.le_trans hfit hcap)]
      have hmem : (s.complete (.ok r)).outmem = s.outmem.write 0 bs := by simp [complete_ok, hr]
      exact ⟨hlen ▸ hfit, fun a ha => by rw [hmem, byte_write_outside _ _ _ _ _ (.inr (by omega))]⟩

/-- The completion step stores in TOCRAM only records below the TOC_COUNT it reports, which TOCRAM holds (R91). -/
theorem complete_tocram_below {i : Instr} {s : State} (hp : s.params.Valid) (hs : s.tocCount.toNat ≤ s.params.tocMax) :
    (s.complete (outcomeOf i s)).tocCount.toNat ≤ s.params.tocMax ∧
      ∀ a, 64 * (s.complete (outcomeOf i s)).tocCount.toNat ≤ a →
        (s.complete (outcomeOf i s)).tocram.byte .tocram a = s.tocram.byte .tocram a := by
  cases ho : outcomeOf i s with
  | error e => exact ⟨hs, fun _ _ => rfl⟩
  | ok r =>
    cases hr : r.toc with
    | none =>
      obtain ⟨hcount, hmem⟩ := complete_keeps_toc (s := s) (o := .ok r) fun _ h => Except.ok.inj h ▸ hr
      exact ⟨hcount ▸ hs, fun a _ => by rw [hmem]⟩
    | some rs =>
      obtain ⟨-, -, -, -, hmax⟩ := hp
      have hfit : rs.length ≤ s.params.tocMax := (outcome_fits ho).tocCount rs hr
      have hcount : (s.complete (.ok r)).tocCount.toNat = rs.length := by
        rw [(complete_ok_toc hr).1, toNat_ofNat_of_le (by omega)]
      have hlen : rs.flatten.length = 64 * rs.length := outcome_toc_length ho hr
      have hmem : (s.complete (.ok r)).tocram = s.tocram.write 0 rs.flatten := by simp [complete_ok, hr]
      exact ⟨hcount ▸ hfit, fun a ha => by rw [hmem, byte_write_outside _ _ _ _ _ (.inr (by omega))]⟩

end Sys2Proof.Machine

namespace Sys2Proof.Claims

open Sys2Proof.Machine

/-- Settles O9, group by group of the results; a command has no other store. -/
theorem storesStayBelowTheReportedLength : Obligations.StoresStayBelowTheReportedLength := by
  intro i s t hp ht hout htoc
  rw [exec_eq] at ht
  cases ht
  obtain ⟨houtLen, houtmem⟩ := complete_outmem_below (i := i) hp hout
  obtain ⟨htocCount, htocram⟩ := complete_tocram_below (i := i) hp htoc
  exact ⟨houtLen, htocCount, houtmem, htocram, fun a => by simp, fun a => by simp⟩

/-- Settles O28: an idle block's reads answer what is stored, and each write is its register's or its memory's rule. -/
theorem idleHostAccesses : Obligations.IdleHostAccesses := by
  refine ⟨fun s r hb => hostAccess_readReg_stored r (.inl hb),
    fun s sp a hb ha => hostAccess_readByte_stored ha (.inl hb), fun s v hb => ?_, fun s a b hb ha => ?_,
    fun s a b hb ha => ?_, fun s a b hb => ?_⟩
  · have write (r : Reg) : hostAccess (.writeReg 32 (regOffset r) v) s = .next (s.setReg (regOffset r) v) :=
      hostAccess_writeReg_idle v hb (regOffset_aligned r).1 (regOffset_aligned r).2
    exact ⟨⟨s.accept v, hostAccess_writeCmd hb v, rfl⟩, write .transp, write .nsrc, write .inBase, write .inLen,
      fun r hcmd htransp hnsrc hbase hlen => (write r).trans
        (congrArg _ (setReg_ignored s v hcmd htransp hnsrc hbase hlen))⟩
  · exact ⟨_, hostAccess_writeByte_idle b ha hb, rfl, byte_write_one s.inmem .inmem a b⟩
  · exact ⟨_, hostAccess_writeByte_idle b ha hb, rfl, byte_write_one s.srcdesc .srcdesc a b⟩
  · exact ⟨fun ha => hostAccess_writeByte_idle b ha hb, fun ha => hostAccess_writeByte_idle b ha hb⟩

/-- Settles O29: a busy block answers a free value for what a command may be writing, and else what is stored. -/
theorem readsWhileBusy : Obligations.ReadsWhileBusy := by
  intro s hb
  refine ⟨hostAccess_readInfo_busy hb, fun r hr => hostAccess_readReg_stored r (.inr (infoOffsetRead_stored hr)),
    fun sp a hsp ha => hostAccess_readByte_busy ha hb ?_, fun sp a hsp ha => hostAccess_readByte_stored ha (.inr ?_)⟩
  · rcases hsp with rfl | rfl <;> rfl
  · rcases hsp with rfl | rfl <;> rfl

/-- Settles O30: the three kinds of fault, and that a valid access has a next state. -/
theorem hostFaults : Obligations.HostFaults :=
  ⟨fun s _ _ v h => hostAccess_register_fault (registerFault_not_word h) s v,
    fun s _ v h4 h => hostAccess_register_fault (registerFault_outside h4 h) s v,
    fun _ _ _ b h => hostAccess_memory_fault h b,
    fun _ _ _ h4 hlt => ⟨hostAccess_next_of_valid ⟨rfl, h4, hlt⟩, hostAccess_next_of_valid ⟨rfl, h4, hlt⟩⟩,
    fun _ _ _ _ ha => ⟨hostAccess_next_of_valid ha, hostAccess_next_of_valid ha⟩⟩

/-- Settles O31: the descriptor's two words read as little-endian numbers, and the view of INMEM they give. -/
theorem sourceView : Obligations.SourceView := by
  intro s k base len hbase hlen
  obtain rfl : base = (s.srcBase k).toNat := hbase.trans (rd32_toNat s.descView (8 * k)).symm
  obtain rfl : len = (s.srcLen k).toNat := hlen.trans (rd32_toNat s.descView (8 * k + 4)).symm
  exact ⟨rfl, fun i hi => ⟨base_add_lt_of_lt_avail hi, rfl⟩⟩

/-- Settles O32: the ICO input is the view of INMEM at IN_BASE. -/
theorem icoInputView : Obligations.IcoInputView := fun _ => ⟨rfl, fun _ hi => ⟨base_add_lt_of_lt_avail hi, rfl⟩⟩

end Sys2Proof.Claims
end

section
/-! PROOFS. The encoding of commands (30_encoding.md R110 to R118): a word that decodes to a command is that command's
word, and the legal words are told by their fields. -/

namespace Sys2Proof

/-! ## The fields of a word -/

/-- The reserved bits `v[15:10]` (R110). -/
def reservedOf (v : Word) : BitVec 6 := v.extractLsb' 10 6

/-- BPP and DIM as one field, `v[9:8]` (R112). -/
def flagsOf (v : Word) : BitVec 2 := v.extractLsb' 8 2

theorem ofBool_getLsbD {n : Nat} (v : BitVec n) (j : Nat) : BitVec.ofBool (v.getLsbD j) = v.extractLsb' j 1 := by
  apply BitVec.eq_of_getLsbD_eq
  intro i hi
  obtain rfl : i = 0 := by omega
  simp

/-- DIM lies above BPP in the flags' field. -/
theorem flagsOf_eq (v : Word) : flagsOf v = BitVec.ofBool (dimOf v) ++ BitVec.ofBool (bppOf v) := by
  rw [dimOf, bppOf, ofBool_getLsbD, ofBool_getLsbD]
  exact (BitVec.extractLsb'_append_extractLsb'_eq_extractLsb' (start₁ := 8) (len₁ := 1) rfl).symm

theorem flagsOf_eq_zero_iff (v : Word) : flagsOf v = 0#2 ↔ dimOf v = false ∧ bppOf v = false := by
  rw [flagsOf_eq]
  cases dimOf v <;> cases bppOf v <;> decide

theorem idxOf_eq_zero_iff (v : Word) : idxOf v = 0 ↔ v.extractLsb' 16 16 = 0#16 :=
  (BitVec.toNat_eq (y := 0#16)).symm

theorem idxFits_idxOf (v : Word) : idxFits (idxOf v) = true :=
  decide_eq_true (Nat.le_of_lt_succ (v.extractLsb' 16 16).isLt)

/-- A word whose reserved bits are 0 is the command word of its own fields. -/
theorem commandWord_fields {v : Word} (h : reservedOf v = 0#6) :
    commandWord (idxOf v) (dimOf v) (bppOf v) (opByte v) = v := by
  have join {p n m : Nat} (q : Nat) (hq : q = p + n) :
      v.extractLsb' q m ++ v.extractLsb' p n = v.extractLsb' p (m + n) :=
    BitVec.extractLsb'_append_extractLsb'_eq_extractLsb' hq
  have hidx : BitVec.ofNat 16 (idxOf v) = v.extractLsb' 16 16 := by rw [idxOf, BitVec.ofNat_toNat, BitVec.setWidth_eq]
  rw [commandWord, hidx, dimOf, bppOf, ofBool_getLsbD, ofBool_getLsbD, ← h, reservedOf, opByte, join 8 rfl, join 9 rfl,
    join 10 rfl, join 16 rfl]
  exact BitVec.extractLsb'_eq_self

theorem opByte_commandWord (k : Nat) (d b : Bool) (op : BitVec 8) : opByte (commandWord k d b op) = op := by
  rw [opByte, commandWord, BitVec.extractLsb'_append_eq_of_add_le (by decide),
    BitVec.extractLsb'_append_eq_of_add_le (by decide), BitVec.extractLsb'_append_eq_of_add_le (by decide),
    BitVec.extractLsb'_append_eq_of_add_le (by decide), BitVec.extractLsb'_eq_self]

theorem reservedOf_commandWord (k : Nat) (d b : Bool) (op : BitVec 8) : reservedOf (commandWord k d b op) = 0#6 := by
  rw [reservedOf, commandWord, BitVec.extractLsb'_append_eq_of_add_le (by decide)]
  exact BitVec.extractLsb'_append_eq_left

/-! ## A word that fits a row -/

/-- A word that fits a row agrees with the row's match on every field that the mask keeps. -/
theorem field_of_fits {r : OpRow} {v : Word} (h : r.fits v = true) {p n : Nat}
    (hm : r.mask.extractLsb' p n = BitVec.allOnes n) : v.extractLsb' p n = r.fixed.extractLsb' p n := by
  have hv : v &&& r.mask = r.fixed := beq_iff_eq.mp h
  rw [← hv, BitVec.extractLsb'_and, hm, BitVec.and_allOnes]

/-- A row whose mask keeps every bit has one word. -/
theorem eq_of_fits {r : OpRow} {u v : Word} (hm : r.mask = BitVec.allOnes 32) (hu : r.fits u = true)
    (hv : r.fits v = true) : u = v := by
  have eq_fixed {x : Word} (hx : r.fits x = true) : x = r.fixed := by
    have hmasked : x &&& r.mask = r.fixed := beq_iff_eq.mp hx
    rwa [hm, BitVec.and_allOnes] at hmasked
  rw [eq_fixed hu, eq_fixed hv]

/-- Every row of the map keeps the reserved bits and wants them 0 (R113). -/
theorem opcodeMap_reserved : ∀ r ∈ opcodeMap, r.mask.extractLsb' 10 6 = BitVec.allOnes 6 ∧ reservedOf r.fixed = 0#6 := by
  decide

/-- A word of a row is the command word of the row's OP and the word's own operands. -/
theorem commandWord_of_fits {r : OpRow} {v : Word} {op : BitVec 8} (hr : r ∈ opcodeMap) (hop : opByte r.fixed = op)
    (h : r.fits v = true) : commandWord (idxOf v) (dimOf v) (bppOf v) op = v := by
  obtain ⟨hmask, hfixed⟩ := opcodeMap_reserved r hr
  rw [← hop, ← opByte_of_fits hr h]
  exact commandWord_fields ((field_of_fits h hmask).trans hfixed)

/-- A word of a row with an index and no flags is the command word of the row's OP and the word's index. -/
theorem indexWord_of_fits {r : OpRow} {v : Word} {op : BitVec 8} (hr : r ∈ opcodeMap) (hop : opByte r.fixed = op)
    (hmask : r.mask.extractLsb' 8 2 = BitVec.allOnes 2) (hfixed : flagsOf r.fixed = 0#2) (h : r.fits v = true) :
    commandWord (idxOf v) false false op = v := by
  obtain ⟨hdim, hbpp⟩ := (flagsOf_eq_zero_iff v).mp ((field_of_fits h hmask).trans hfixed)
  simpa only [hdim, hbpp] using commandWord_of_fits hr hop h

/-! ## Decoding, then encoding -/

/-- Row by row: the mask keeps every field that the row's command has no operand for. -/
theorem encode_of_decode {v : Word} {i : Instr} (h : decode v = some i) : i.wellFormed = true ∧ encode i = v := by
  have hindex := idxFits_idxOf v
  unfold decode at h
  split at h
  case isTrue hnop => cases h; exact ⟨rfl, eq_of_fits (by decide) (row_fits_encode .nop) hnop⟩
  split at h
  case isTrue hverify =>
    cases h; exact ⟨hindex, commandWord_of_fits (r := rowVerify) (by decide) (by decide) hverify⟩
  split at h
  case isTrue hencode =>
    cases h
    exact ⟨hindex, indexWord_of_fits (r := rowEncode) (by decide) (by decide) (by decide) (by decide) hencode⟩
  split at h
  case isTrue hassemble => cases h; exact ⟨rfl, eq_of_fits (by decide) (row_fits_encode .assemble) hassemble⟩
  split at h
  case isTrue hparse => cases h; exact ⟨rfl, eq_of_fits (by decide) (row_fits_encode .parse) hparse⟩
  split at h
  case isTrue hdecode =>
    cases h
    exact ⟨hindex, indexWord_of_fits (r := rowDecode) (by decide) (by decide) (by decide) (by decide) hdecode⟩
  cases h

/-! ## The legal words by their fields (R117) -/

/-- The fields of a legal word: an OP of the map, reserved bits 0, flags for VERIFY only, and an index for VERIFY, ENCODE
and DECODE only. -/
structure LegalFields (v : Word) : Prop where
  op : (opByte v).toNat < 6
  reserved : reservedOf v = 0#6
  flags : (opByte v).toNat ≠ 1 → flagsOf v = 0#2
  idx : (opByte v).toNat = 0 ∨ (opByte v).toNat = 3 ∨ (opByte v).toNat = 4 → idxOf v = 0

theorem legalFields_commandWord {k : Nat} {d b : Bool} {op : BitVec 8} (hop : op.toNat < 6)
    (hflags : op.toNat ≠ 1 → d = false ∧ b = false) (hidx : op.toNat = 0 ∨ op.toNat = 3 ∨ op.toNat = 4 → k = 0) :
    LegalFields (commandWord k d b op) where
  op := by rwa [opByte_commandWord]
  reserved := reservedOf_commandWord k d b op
  flags := by rwa [opByte_commandWord, flagsOf_eq_zero_iff, dimOf_commandWord, bppOf_commandWord]
  idx h := by rw [idxOf_commandWord, hidx (opByte_commandWord k d b op ▸ h)]

theorem legalFields_encode (i : Instr) : LegalFields (encode i) := by
  cases i with
  | verify k bpp dim => exact legalFields_commandWord (by decide) (by simp) (by simp)
  | nop | assemble | parse => exact legalFields_commandWord (by decide) (fun _ => ⟨rfl, rfl⟩) (fun _ => rfl)
  | encode k | decode k => exact legalFields_commandWord (by decide) (fun _ => ⟨rfl, rfl⟩) (by simp)

theorem exists_encode_eq {v : Word} (h : LegalFields v) : ∃ i : Instr, i.wellFormed = true ∧ encode i = v := by
  have hword := commandWord_fields h.reserved
  have plain (hop : (opByte v).toNat ≠ 1) : commandWord (idxOf v) false false (opByte v) = v := by
    obtain ⟨hdim, hbpp⟩ := (flagsOf_eq_zero_iff v).mp (h.flags hop)
    rwa [hdim, hbpp] at hword
  have bare (hop : (opByte v).toNat = 0 ∨ (opByte v).toNat = 3 ∨ (opByte v).toNat = 4) :
      commandWord 0 false false (opByte v) = v := by
    rw [← h.idx hop]
    exact plain (by omega)
  have hlt := h.op
  have hcases : opByte v = 0#8 ∨ opByte v = 1#8 ∨ opByte v = 2#8 ∨ opByte v = 3#8 ∨ opByte v = 4#8 ∨ opByte v = 5#8 := by
    bv_omega
  rcases hcases with hop | hop | hop | hop | hop | hop <;> rw [hop] at hword plain bare
  · exact ⟨.nop, rfl, bare (by decide)⟩
  · exact ⟨.verify (idxOf v) (bppOf v) (dimOf v), idxFits_idxOf v, hword⟩
  · exact ⟨.encode (idxOf v), idxFits_idxOf v, plain (by decide)⟩
  · exact ⟨.assemble, rfl, bare (by decide)⟩
  · exact ⟨.parse, rfl, bare (by decide)⟩
  · exact ⟨.decode (idxOf v), idxFits_idxOf v, plain (by decide)⟩

theorem decode_eq_none_iff (v : Word) : decode v = none ↔ ¬ LegalFields v := by
  constructor
  · intro hnone hlegal
    obtain ⟨i, hwf, rfl⟩ := exists_encode_eq hlegal
    simp [decode_encode hwf] at hnone
  · intro hillegal
    cases hi : decode v with
    | none => rfl
    | some i => exact absurd ((encode_of_decode hi).2 ▸ legalFields_encode i) hillegal

end Sys2Proof

namespace Sys2Proof.Claims

/-- Settles O1: the word fits the command's row alone, and its fields give the operands back. -/
theorem decodeOfEncode : Obligations.DecodeOfEncode := fun _ => decode_encode

/-- Settles O2, from the fields that each row's mask keeps. -/
theorem encodeOfDecode : Obligations.EncodeOfDecode := fun _ _ => encode_of_decode

/-- Settles O3: the words that decode are the commands' words, so they are told by the fields that the encoder writes. -/
theorem illegalWordsByField : Obligations.IllegalWordsByField := by
  intro v
  rw [decode_eq_none_iff]
  constructor
  · intro hillegal
    refine Decidable.byContradiction fun hn => hillegal ?_
    obtain ⟨hop, hn⟩ := not_or.mp hn
    obtain ⟨hreserved, hn⟩ := not_or.mp hn
    obtain ⟨hflags, hidx⟩ := not_or.mp hn
    exact
      { op := Nat.lt_of_not_le hop
        reserved := Decidable.not_not.mp hreserved
        flags := fun h => Decidable.byContradiction fun hf => hflags ⟨h, hf⟩
        idx := fun h => (idxOf_eq_zero_iff v).mpr (Decidable.byContradiction fun hi => hidx ⟨h, hi⟩) }
  · rintro (hop | hreserved | ⟨hop, hflags⟩ | ⟨hop, hidx⟩) hlegal
    · exact absurd hlegal.op (Nat.not_lt_of_ge hop)
    · exact hreserved hlegal.reserved
    · exact hflags (hlegal.flags hop)
    · exact hidx ((idxOf_eq_zero_iff v).mp (hlegal.idx hop))

/-- Settles O4: every mask keeps OP, and the rows have distinct OPs. -/
theorem opcodeRowsNeverOverlap : Obligations.OpcodeRowsNeverOverlap := fun _ _ _ hr hq => opcodeMap_row_unique hr hq

/-- Settles O5: the decoder run on each word. -/
theorem writtenOutWordsDecode : Obligations.WrittenOutWordsDecode := by
  unfold Obligations.WrittenOutWordsDecode
  decide

end Sys2Proof.Claims
end

section
/-! PROOFS. Decoding a mask pair (42_mask_codec.md R230 to R232): the bits of a decoded byte. -/

namespace Sys2Proof.Machine

/-- The 4-bit field that the XOR mask holds for pixel `i` (R231). -/
def xorNibble (xor : Bytes) (i : Nat) : BitVec 4 :=
  if i % 2 = 0 then (xor.byte (i / 2)).extractLsb' 4 4 else (xor.byte (i / 2)).extractLsb' 0 4

/-- The bit that the AND mask holds for the pixel at row `r`, column `c` (R232). -/
def andBit (and : Bytes) (r c : Nat) : Bool := (and.byte (4 * r + c / 8)).getLsbD (7 - c % 8)

/-- A byte is its high nibble, then its low one. -/
theorem byte_eq_nibbles (x : Byte) : x = x.extractLsb' 4 4 ++ x.extractLsb' 0 4 := by
  rw [BitVec.extractLsb'_append_extractLsb'_eq_extractLsb' (start₁ := 0) (len₁ := 4) rfl]
  exact BitVec.extractLsb'_eq_self.symm

theorem shiftRight_four (x : Byte) : x >>> 4 = 0#4 ++ x.extractLsb' 4 4 := by
  apply BitVec.eq_of_getLsbD_eq
  intro j hj
  rw [BitVec.getLsbD_ushiftRight, BitVec.getLsbD_append]
  split
  · simp [*]
  · rw [BitVec.getLsbD_of_ge _ _ (by omega)]
    simp

theorem and_low_nibble (x : Byte) : x &&& 0x0F#8 = 0#4 ++ x.extractLsb' 0 4 := by
  calc x &&& 0x0F#8
      = (x.extractLsb' 4 4 ++ x.extractLsb' 0 4) &&& (0#4 ++ BitVec.allOnes 4) := congrArg (· &&& 0x0F#8) (byte_eq_nibbles x)
    _ = 0#4 ++ x.extractLsb' 0 4 := by rw [BitVec.and_append, BitVec.and_zero, BitVec.and_allOnes]

theorem decNibble_eq (xor : Bytes) (i : Nat) : decNibble xor i = 0#4 ++ xorNibble xor i := by
  unfold decNibble xorNibble
  split
  · exact shiftRight_four _
  · exact and_low_nibble _

theorem decBit_shiftLeft_four (and : Bytes) (r c : Nat) :
    decBit and r c <<< 4 = (0#3 ++ BitVec.ofBool (andBit and r c)) ++ 0#4 := by
  have hbit : decBit and r c = (BitVec.ofBool (andBit and r c)).setWidth 8 := by
    rw [decBit, BitVec.and_one_eq_setWidth_ofBool_getLsbD, BitVec.getLsbD_ushiftRight, Nat.add_zero, andBit]
  rw [hbit]
  cases andBit and r c <;> decide

/-- The fields of the decoded byte (30_encoding.md R143): three zero bits, the AND bit and the XOR nibble. -/
theorem decPixel_eq (xor and : Bytes) (w i : Nat) :
    decPixel xor and w i = (0#3 ++ BitVec.ofBool (andBit and (i / w) (i % w))) ++ xorNibble xor i := by
  rw [decPixel, decNibble_eq, decBit_shiftLeft_four, BitVec.or_append]
  simp

end Sys2Proof.Machine

namespace Sys2Proof.Claims

open Sys2Proof.Machine

/-- Settles O44, from the fields of the decoded byte. -/
theorem decodedPixelByte : Obligations.DecodedPixelByte := by
  intro xor and w h i hi
  have hlen : i < (decodeMasks xor and w h).length := by simpa using hi
  refine ⟨decPixel xor and w i, ?_, ?_, ?_, ?_⟩
  · rw [List.getElem?_eq_getElem hlen, decodeMasks_getElem]
  · rw [decPixel_eq, BitVec.extractLsb'_append_eq_of_add_le (by decide), BitVec.extractLsb'_eq_self, xorNibble]
  · rw [decPixel_eq, BitVec.getLsbD_append, BitVec.getLsbD_append]
    simp [andBit]
  · rw [decPixel_eq, BitVec.extractLsb'_append_eq_of_le (by decide)]
    exact BitVec.extractLsb'_append_eq_left

end Sys2Proof.Claims
end

section
/-! PROOFS. VERIFY (40_verifier.md R170 to R181): the operand checks that it shares with ENCODE, the verifier's
equation for each check that fails first, and the completion. -/

namespace Sys2Proof.Machine

open Sys2Proof.Claims

/-- A rule that answers an error enters that error (60_exceptions.md R310). -/
theorem failsWith_of_outcome {i : Instr} {s : State} {e : CmdError} (h : outcomeOf i s = .error e) : FailsWith i s e := by
  rw [FailsWith, exec_eq, h]
  rfl

/-! ## The operand checks of VERIFY and ENCODE -/

theorem checkSource_nsrc {s : State} (k : Nat) (h : s.params.srcMax < s.nsrc.toNat) :
    checkSource s k = .error (usageError .nsrc s.nsrc.toNat 0) := if_pos h

theorem checkSource_index {s : State} {k : Nat} (hn : s.nsrc.toNat ≤ s.params.srcMax) (hk : s.nsrc.toNat ≤ k) :
    checkSource s k = .error (usageError .cmdIdx k k) := by
  rw [checkSource, if_neg (Nat.not_lt.mpr hn), if_pos hk]

/-- VERIFY and ENCODE check their operands first (R180, 42_mask_codec.md R235). -/
theorem outcomeOf_of_checkSource_error {i : Instr} {s : State} {k : Nat} {e : CmdError}
    (hi : (∃ bpp dim, i = .verify k bpp dim) ∨ i = .encode k) (h : checkSource s k = .error e) :
    outcomeOf i s = .error e := by
  rcases hi with ⟨bpp, dim, rfl⟩ | rfl
  · simp only [outcomeOf, runVerify, h]
  · simp only [outcomeOf, runEncode, h]

/-- Once the operand checks pass, VERIFY answers what the verifier answers of the source. -/
theorem outcomeOf_verify {s : State} {k : Nat} (hop : OperandsOk s k) (bpp dim : Bool) :
    outcomeOf (.verify k bpp dim) s =
      (verifyHeader (s.src k) bpp dim k).map fun bi => { info := some bi, out := none, toc := none } := by
  obtain ⟨hn, hk⟩ := hop
  simp only [outcomeOf, runVerify, checkSource_of_ok hn hk]
  cases verifyHeader (s.src k) bpp dim k <;> rfl

theorem verify_failsWith {s : State} {k : Nat} {bpp dim : Bool} {e : CmdError} (hop : OperandsOk s k)
    (h : verifyHeader (s.src k) bpp dim k = .error e) : FailsWith (.verify k bpp dim) s e :=
  failsWith_of_outcome (by rw [outcomeOf_verify hop, h]; rfl)

/-! ## The first failing check of the verifier -/

/-- The statements' condition on a header is what the verifier checks. -/
theorem headerChecked_of_passes {b : Bytes} {bpp dim : Bool} (h : HeaderPasses b bpp dim) :
    HeaderChecked b bpp dim (bmpInfoOf b) := by
  obtain ⟨hlen, hsz, hbpp, hdim, hcomp, hpal⟩ := h
  refine ⟨rfl, hlen, hsz, hbpp, fun hd => ?_, hcomp, hpal⟩
  obtain ⟨hw, -, heq⟩ := hdim hd
  exact ⟨hw, heq.symm⟩

section
variable {b : Bytes} {bpp dim : Bool} (k : Nat)

/-- A bpp check that passes is as good as one that is off (R173). -/
theorem verifyHeader_of_bpp (h : bpp = true → b.rd16 14 = 8#16) :
    verifyHeader b bpp dim k = verifyHeader b false dim k := by
  cases bpp with
  | false => rfl
  | true => simp [verifyHeader, bmpInfoOf, h rfl]

/-- Dimension checks that pass are as good as checks that are off (R174). -/
theorem verifyHeader_of_dim (h : dim = true → (b.rd32 4 = 16#32 ∨ b.rd32 4 = 32#32) ∧ b.rd32 8 = b.rd32 4) :
    verifyHeader b bpp dim k = verifyHeader b bpp false k := by
  cases dim with
  | false => rfl
  | true =>
    obtain ⟨hw, heq⟩ := h rfl
    simp [verifyHeader, bmpInfoOf, heq, (isSide_iff _).mpr hw]

theorem verifyHeader_short (h : b.len < 40) : verifyHeader b bpp dim k = .error (readShort 40 k) := if_pos h

variable (hlen : 40 ≤ b.len)
include hlen

theorem verifyHeader_headerSz (h : b.rd32 0 ≠ 40#32) :
    verifyHeader b bpp dim k = .error (verifyFailure .invalidHeader .hdrSz (b.rd32 0).toNat k) := by
  simp [verifyHeader, bmpInfoOf, Nat.not_lt.mpr hlen, h]

variable (hsz : b.rd32 0 = 40#32)
include hsz

theorem verifyHeader_bpp (h : b.rd16 14 ≠ 8#16) :
    verifyHeader b true dim k = .error (verifyFailure .unsupportedBpp .bpp (b.rd16 14).toNat k) := by
  simp [verifyHeader, bmpInfoOf, Nat.not_lt.mpr hlen, hsz, h]

theorem verifyHeader_width (h16 : b.rd32 4 ≠ 16#32) (h32 : b.rd32 4 ≠ 32#32) :
    verifyHeader b false true k = .error (verifyFailure .unsupportedDimensions .width (b.rd32 4).toNat k) := by
  simp [verifyHeader, bmpInfoOf, Nat.not_lt.mpr hlen, hsz, isSide, h16, h32]

/-- The height is named when it is no side, and when it is a side other than the width (R174). -/
theorem verifyHeader_height (hw : b.rd32 4 = 16#32 ∨ b.rd32 4 = 32#32)
    (h : (b.rd32 8 ≠ 16#32 ∧ b.rd32 8 ≠ 32#32) ∨ b.rd32 8 ≠ b.rd32 4) :
    verifyHeader b false true k = .error (verifyFailure .unsupportedDimensions .height (b.rd32 8).toNat k) := by
  have hside : isSide (b.rd32 4) = true := (isSide_iff _).mpr hw
  by_cases hh : isSide (b.rd32 8) = true
  · have hne : b.rd32 4 ≠ b.rd32 8 := by
      rcases h with ⟨h16, h32⟩ | hne
      · exact absurd ((isSide_iff _).mp hh) (not_or.mpr ⟨h16, h32⟩)
      · exact hne.symm
    simp [verifyHeader, bmpInfoOf, Nat.not_lt.mpr hlen, hsz, hside, hh, hne]
  · simp [verifyHeader, bmpInfoOf, Nat.not_lt.mpr hlen, hsz, hside, hh]

theorem verifyHeader_compression (h : b.rd32 16 ≠ 0#32) :
    verifyHeader b false false k = .error (verifyFailure .unsupportedCompression .compression (b.rd32 16).toNat k) := by
  simp [verifyHeader, bmpInfoOf, Nat.not_lt.mpr hlen, hsz, h]

theorem verifyHeader_palSz (hcomp : b.rd32 16 = 0#32) (h : b.rd32 32 = 0#32) :
    verifyHeader b false false k = .error (verifyFailure .invalidPalette .palSz 0 k) := by
  simp [verifyHeader, bmpInfoOf, Nat.not_lt.mpr hlen, hsz, hcomp, h]

end

end Sys2Proof.Machine

namespace Sys2Proof.Claims

open Sys2Proof.Machine

/-- Settles O35: the verifier accepts the header, and its BmpInfo is the only result. -/
theorem verifyCompletes : Obligations.VerifyCompletes := by
  intro s k bpp dim hop hpass
  rw [exec_eq, outcomeOf_verify hop, verifyHeader_of_checked k (headerChecked_of_passes hpass)]
  rfl

/-- Settles O36, check by check: the flags of the checks that have passed are as good as off. -/
theorem verifyReportsTheFirstFailingCheck : Obligations.VerifyReportsTheFirstFailingCheck := by
  intro s k bpp dim b hop hb
  subst hb
  refine ⟨fun h => verify_failsWith hop (verifyHeader_short k h),
    fun hlen h => verify_failsWith hop (verifyHeader_headerSz k hlen h), fun hlen hsz => ⟨?_, fun hbpp => ?_⟩⟩
  · rintro rfl h
    exact verify_failsWith hop (verifyHeader_bpp k hlen hsz h)
  have hflag := verifyHeader_of_bpp (dim := dim) k hbpp
  refine ⟨?_, ?_, fun hdim => ?_⟩
  · rintro rfl h16 h32
    exact verify_failsWith hop (hflag.trans (verifyHeader_width k hlen hsz h16 h32))
  · rintro rfl hw h
    exact verify_failsWith hop (hflag.trans (verifyHeader_height k hlen hsz hw h))
  have hflags := hflag.trans (verifyHeader_of_dim k hdim)
  exact ⟨fun h => verify_failsWith hop (hflags.trans (verifyHeader_compression k hlen hsz h)),
    fun hcomp h => verify_failsWith hop (hflags.trans (verifyHeader_palSz k hlen hsz hcomp h))⟩

/-- Settles O37: the operand checks come first in both commands. -/
theorem sourceCommandsCheckTheirOperands : Obligations.SourceCommandsCheckTheirOperands := fun _ k _ hi =>
  ⟨fun hn => failsWith_of_outcome (outcomeOf_of_checkSource_error hi (checkSource_nsrc k hn)),
    fun hn hk => failsWith_of_outcome (outcomeOf_of_checkSource_error hi (checkSource_index hn hk))⟩

/-- Settles O38, from the reads of the header's decoding. -/
theorem verifierReadsOnlyTheHeader : Obligations.VerifierReadsOnlyTheHeader :=
  fun _ _ chkBpp chkDim idx hlen hbytes => verifyHeader_congr chkBpp chkDim idx hlen hbytes

end Sys2Proof.Claims
end

section
/-! PROOFS. The bytes of an assembled file (41_assembler.md R190 to R199): where each entry and each block lies, and what
the little-endian reads answer there. -/

namespace Sys2Proof.Machine

open Sys2Proof.Claims

/-! ## Bytes at a place -/

/-- The bytes `bs` lie from the place `o` on, in a byte string or a memory given by its accessor. -/
def BytesAt (f : Nat → Byte) (o : Nat) (bs : List Byte) : Prop := ∀ j, (hj : j < bs.length) → f (o + j) = bs[j]

theorem bytesAt_zero_iff {f : Nat → Byte} {bs : List Byte} :
    BytesAt f 0 bs ↔ ∀ j, (hj : j < bs.length) → f j = bs[j] := by simp [BytesAt]

theorem bytesAt_ofList (l : List Byte) : BytesAt (Bytes.ofList l).byte 0 l := by
  simp +contextual [BytesAt]

theorem bytesAt_append_iff {f : Nat → Byte} {o : Nat} {xs ys : List Byte} :
    BytesAt f o (xs ++ ys) ↔ BytesAt f o xs ∧ BytesAt f (o + xs.length) ys := by
  refine ⟨fun h => ⟨fun j hj => ?_, fun j hj => ?_⟩, fun ⟨hx, hy⟩ j hj => ?_⟩
  · rw [h j (by rw [List.length_append]; omega), List.getElem_append_left hj]
  · rw [Nat.add_assoc, h (xs.length + j) (by rw [List.length_append]; omega), List.getElem_append_right (by omega)]
    simp
  · rw [List.length_append] at hj
    by_cases hlt : j < xs.length
    · rw [List.getElem_append_left hlt, hx j hlt]
    · obtain ⟨i, rfl⟩ : ∃ i, j = xs.length + i := ⟨j - xs.length, by omega⟩
      rw [List.getElem_append_right (by omega), ← Nat.add_assoc, hy i (by omega)]
      simp

/-- What is cut from a list that lies at 0 lies at the place of the cut. -/
theorem BytesAt.of_sliceList {f : Nat → Byte} {l bs : List Byte} {o n : Nat} (h : BytesAt f 0 l)
    (hs : sliceList l o n = bs) : BytesAt f o bs := by
  subst hs
  intro j hj
  rw [sliceList_length] at hj
  have hbyte := h (o + j) (by omega)
  rw [Nat.zero_add] at hbyte
  simp [hbyte, sliceList]

theorem BytesAt.le8 {f : Nat → Byte} {o v : Nat} (h : BytesAt f o (le8 v)) : f o = BitVec.ofNat 8 v := h 0 Nat.one_pos

theorem BytesAt.rd16 {b : Bytes} {o v : Nat} (h : BytesAt b.byte o (le16 v)) : b.rd16 o = BitVec.ofNat 16 v :=
  rd16_of_le16 b o v h

theorem BytesAt.rd32 {b : Bytes} {o v : Nat} (h : BytesAt b.byte o (le32 v)) : b.rd32 o = BitVec.ofNat 32 v :=
  rd32_of_le32 b o v h

/-! ## Entries and embedded headers read back -/

/-- The TOC entry of a source whose block starts at `off` (R196). -/
def writtenEntry (bi : BmpInfo) (off : Nat) : TocEntry :=
  { w := BitVec.ofNat 8 bi.width.toNat, h := BitVec.ofNat 8 bi.height.toNat, palSz := BitVec.ofNat 8 bi.palSz.toNat,
    reserved := 0, planes := 1, bpp := 4, size := BitVec.ofNat 32 (blockSize bi), offset := BitVec.ofNat 32 off }

/-- The embedded header of a source (30_encoding.md R136). -/
def writtenInfo (bi : BmpInfo) : BmpInfo :=
  { headerSz := 40, width := bi.width, height := BitVec.ofNat 32 (2 * bi.height.toNat), planes := 1, bpp := 4,
    compression := 0, imageSize := BitVec.ofNat 32 (xsOf bi + asOf bi), xres := 0, yres := 0, palSz := bi.palSz,
    important := 0 }

theorem tocEntryOf_of_bytesAt {b : Bytes} {o off : Nat} {bi : BmpInfo} (h : BytesAt b.byte o (tocEntryBytes bi off)) :
    tocEntryOf b o = writtenEntry bi off := by
  simp only [tocEntryBytes, bytesAt_append_iff, List.length_append, le8_length, le16_length, le32_length] at h
  obtain ⟨⟨⟨⟨⟨⟨⟨hw, hh⟩, hpal⟩, hres⟩, hplanes⟩, hbpp⟩, hsize⟩, hoff⟩ := h
  simp [tocEntryOf, writtenEntry, hw.le8, hh.le8, hpal.le8, hres.le8, hplanes.rd16, hbpp.rd16, hsize.rd32, hoff.rd32]

theorem bmpInfoOf_of_bytesAt {b : Bytes} {o : Nat} {bi : BmpInfo} (h : BytesAt b.byte o (blockHeader bi)) :
    bmpInfoOf (headerAt b o) = writtenInfo bi := by
  simp only [blockHeader, bytesAt_append_iff, List.length_append, le16_length, le32_length] at h
  obtain ⟨⟨⟨⟨⟨⟨⟨⟨⟨⟨hsz, hw⟩, hh⟩, hplanes⟩, hbpp⟩, hcomp⟩, himage⟩, hx⟩, hy⟩, hpal⟩, himp⟩ := h
  simp [bmpInfoOf, headerAt, writtenInfo, hsz.rd32, hw.rd32, hh.rd32, hplanes.rd16, hbpp.rd16, hcomp.rd32, himage.rd32,
    hx.rd32, hy.rd32, hpal.rd32, himp.rd32]

/-- The parts of a block, one after the other (R197). -/
theorem bytesAt_blockBytes_iff {f : Nat → Byte} {o : Nat} {t : Byte} {src : Bytes} {bi : BmpInfo} :
    BytesAt f o (blockBytes t src bi) ↔
      ((BytesAt f o (blockHeader bi) ∧ BytesAt f (o + 40) (colourTable src bi)) ∧
        BytesAt f (o + 40 + 4 * bi.palSz.toNat) (xorMask (pixelsOf src bi) bi.width.toNat bi.height.toNat t)) ∧
        BytesAt f (o + 40 + 4 * bi.palSz.toNat + xsOf bi) (andMask (pixelsOf src bi) bi.width.toNat bi.height.toNat t) := by
  simp only [blockBytes, encodeMasks, bytesAt_append_iff, List.length_append, blockHeader_length, colourTable_length,
    xorMask_length, xsOf, Nat.add_assoc]

/-! ## Where the parts of the file lie -/

theorem offsets_getElem_eq_offAt (bis : List BmpInfo) (k : Nat) (h : k < (offsets bis).length) :
    (offsets bis)[k] = offAt bis k := offsets_getElem bis k h

theorem offAt_succ (bis : List BmpInfo) (k : Nat) (hk : k < bis.length) :
    offAt bis (k + 1) = offAt bis k + blockSize bis[k] := by
  simp only [offAt, List.map_take]
  rw [List.take_add_one, List.getElem?_eq_getElem (by simpa using hk)]
  simp [Nat.add_assoc]

theorem offAt_length (bis : List BmpInfo) : offAt bis bis.length = fileLength bis := by
  simp [offAt, fileLength, firstBlock]

/-- Every block ends inside the file (R193). -/
theorem offAt_add_blockSize_le (bis : List BmpInfo) (k : Nat) (hk : k < bis.length) :
    offAt bis k + blockSize bis[k] ≤ fileLength bis := by
  have hsum := sum_take_add_le bis k hk
  simp only [offAt, fileLength, firstBlock]
  omega

/-- Every offset of a file that fits 32 bits fits its offset field. -/
theorem toNat_ofNat_offAt {bis : List BmpInfo} (hfit : fileLength bis ≤ 4294967295) {k : Nat} (hk : k < bis.length) :
    (BitVec.ofNat 32 (offAt bis k)).toNat = offAt bis k := by
  have hend := offAt_add_blockSize_le bis k hk
  exact toNat_ofNat_of_le (by omega)

theorem infosOf_getElem (cs : List Checked) (k : Nat) (hk : k < cs.length) :
    (infosOf cs)[k]'(by simpa using hk) = cs[k].bi := by simp [infosOf]

theorem asmImage_entry_offAt (t : Byte) (cs : List Checked) (k : Nat) (hk : k < cs.length) :
    sliceList (asmImage t cs) (entryPos k) 16 = tocEntryBytes cs[k].bi (offAt (infosOf cs) k) := by
  rw [asmImage_entry t cs k hk, offsets_getElem_eq_offAt]

theorem asmImage_block_offAt (t : Byte) (cs : List Checked) (k : Nat) (hk : k < cs.length) :
    sliceList (asmImage t cs) (offAt (infosOf cs) k) (blockSize cs[k].bi) = blockBytes t cs[k].src cs[k].bi := by
  rw [← asmImage_block t cs k hk, offsets_getElem_eq_offAt]

section
variable {f : Nat → Byte} {t : Byte} {cs : List Checked} (h : BytesAt f 0 (asmImage t cs))
include h

theorem BytesAt.entry {k : Nat} (hk : k < cs.length) :
    BytesAt f (entryPos k) (tocEntryBytes cs[k].bi (offAt (infosOf cs) k)) :=
  h.of_sliceList (asmImage_entry_offAt t cs k hk)

theorem BytesAt.block {k : Nat} (hk : k < cs.length) :
    BytesAt f (offAt (infosOf cs) k) (blockBytes t cs[k].src cs[k].bi) :=
  h.of_sliceList (asmImage_block_offAt t cs k hk)

end

theorem fileHeader_of_bytesAt {b : Bytes} {t : Byte} {cs : List Checked} (h : BytesAt b.byte 0 (asmImage t cs)) :
    b.rd16 0 = 0#16 ∧ b.rd16 2 = 1#16 ∧ b.rd16 4 = BitVec.ofNat 16 cs.length := by
  simp only [asmImage, fileHeader, bytesAt_append_iff, List.length_append, le16_length] at h
  obtain ⟨⟨⟨⟨hres, htype⟩, hcount⟩, -⟩, -⟩ := h
  exact ⟨hres.rd16, htype.rd16, hcount.rd16⟩

theorem countField_of_bytesAt {b : Bytes} {t : Byte} {cs : List Checked} (h : BytesAt b.byte 0 (asmImage t cs))
    (hn : cs.length ≤ 65535) : countField b = cs.length := by
  obtain ⟨-, -, hcount⟩ := fileHeader_of_bytesAt h
  rw [countField, hcount, BitVec.toNat_ofNat, Nat.mod_eq_of_lt (by omega)]

end Sys2Proof.Machine

namespace Sys2Proof.Claims

open Sys2Proof.Machine

/-- Settles O51: the entry and the block of each source lie where the layout says. -/
theorem assembledFileIsSelfConsistent : Obligations.AssembledFileIsSelfConsistent := by
  intro t cs bis img hbis hfit himg
  subst hbis himg
  have hlen := asmImage_length t cs
  have hlast : offAt (infosOf cs) cs.length = fileLength (infosOf cs) := by simpa using offAt_length (infosOf cs)
  refine ⟨hlen, by simp [offAt], hlast.trans hlen.symm, fun k hk => ?_⟩
  have hk' : k < (infosOf cs).length := by simpa using hk
  have hbi : (infosOf cs)[k] = cs[k].bi := infosOf_getElem cs k hk
  have hentry := tocEntryOf_of_bytesAt ((bytesAt_ofList (asmImage t cs)).entry hk)
  have hoff := congrArg TocEntry.offset hentry
  have hsize := congrArg TocEntry.size hentry
  have hend := offAt_add_blockSize_le (infosOf cs) k hk'
  rw [hbi] at hend
  exact ⟨(congrArg BitVec.toNat hoff).trans (toNat_ofNat_offAt hfit hk'),
    (congrArg BitVec.toNat hsize).trans (toNat_ofNat_of_le (by omega)), asmImage_block_offAt t cs k hk,
    hbi ▸ offAt_succ (infosOf cs) k hk'⟩

/-- Settles O52: the image holds the entry and the block of each source, and each is read back field by field. -/
theorem assembledFileBytes : Obligations.AssembledFileBytes := by
  intro t cs b hready hcount hb
  subst hb
  have himg := bytesAt_ofList (asmImage t cs)
  obtain ⟨hres, htype, -⟩ := fileHeader_of_bytesAt himg
  refine ⟨asmImage_length t cs, hres, htype, countField_of_bytesAt himg hcount, ?_⟩
  intro k hk e o w h p src he ho hsrc hw hh hp
  obtain ⟨-, hbi⟩ := hready cs[k] (List.getElem_mem hk)
  have hentry := himg.entry hk
  have hblock := himg.block hk
  rw [hbi, ← hsrc, ← ho] at hentry hblock
  subst hw hh hp
  obtain ⟨⟨⟨hheader, hpal⟩, hxor⟩, hand⟩ := bytesAt_blockBytes_iff.mp hblock
  have hentry := tocEntryOf_of_bytesAt hentry
  have hheader := bmpInfoOf_of_bytesAt hheader
  simp only [tocEntryOf, writtenEntry, TocEntry.mk.injEq] at hentry
  simp only [bmpInfoOf, headerAt, slice_rd16, slice_rd32, writtenInfo, BmpInfo.mk.injEq] at hheader
  obtain ⟨ew, eh, epal, eres, eplanes, ebpp, esize, eoff⟩ := hentry
  obtain ⟨hsz, hwidth, hheight, hplanes, hbpp, hcomp, himage, hx, hy, hpalSz, himp⟩ := hheader
  subst he
  refine ⟨ew, eh, epal, eres, eplanes, ebpp, esize, eoff, hsz, hwidth, hheight, hplanes, hbpp, hcomp, himage, hx, hy,
    hpalSz, himp, fun j hj => ?_, hxor, hand⟩
  have hbyte := hpal j ((colourTable_length _ _).symm ▸ hj)
  simpa [colourTable] using hbyte

end Sys2Proof.Claims
end

section
/-! PROOFS. The source's seekable writer (10_state.md R56, 41_assembler.md R198): each backpatch turns one placeholder entry
into the entry of the two-pass image, and the last one the placeholder count into the count. -/

namespace Sys2Proof.Machine

/-- Overwriting a piece of a file with bytes of its length replaces that piece. -/
theorem overwriteAt_append (xs old bs zs : List Byte) (p : Nat) (hp : p = xs.length) (h : old.length = bs.length) :
    overwriteAt (xs ++ old ++ zs) p bs = xs ++ bs ++ zs := by
  subst hp
  rw [overwriteAt, ← h, ← List.length_append, List.drop_left, List.append_assoc xs old zs, List.take_left]

/-- The TOC as the writer leaves it first: entries with offset 0. -/
def placeholderToc (bis : List BmpInfo) : List Byte := (bis.map fun bi => tocEntryBytes bi 0).flatten

@[simp] theorem placeholderToc_cons (bi : BmpInfo) (bis : List BmpInfo) :
    placeholderToc (bi :: bis) = tocEntryBytes bi 0 ++ placeholderToc bis := rfl

@[simp] theorem placeholderToc_length (bis : List BmpInfo) : (placeholderToc bis).length = 16 * bis.length := by
  rw [placeholderToc, flatten_length_const 16 _ (by simp)]
  simp

/-- The entries of sources whose blocks lie one after the other from `o` on. -/
def tocFrom (o : Nat) (bis : List BmpInfo) : List Byte := (List.zipWith tocEntryBytes bis (blockOffsets o bis)).flatten

@[simp] theorem tocFrom_cons (o : Nat) (bi : BmpInfo) (bis : List BmpInfo) :
    tocFrom o (bi :: bis) = tocEntryBytes bi o ++ tocFrom (o + blockSize bi) bis := rfl

/-- The blocks of the sources, in order. -/
def blocksOf (t : Byte) (cs : List Checked) : List Byte := (cs.map fun c => blockBytes t c.src c.bi).flatten

@[simp] theorem blocksOf_cons (t : Byte) (c : Checked) (cs : List Checked) :
    blocksOf t (c :: cs) = blockBytes t c.src c.bi ++ blocksOf t cs := rfl

/-- Patching the offset field of a placeholder entry gives the entry (R196, R198). -/
theorem overwriteAt_patchPos (xs zs : List Byte) (bi : BmpInfo) (k off : Nat) (hk : xs.length = entryPos k) :
    overwriteAt (xs ++ tocEntryBytes bi 0 ++ zs) (patchPos k) (le32 off) = xs ++ tocEntryBytes bi off ++ zs := by
  have entry (o : Nat) : xs ++ tocEntryBytes bi o = xs ++ (tocEntryBytes bi 0).take 12 ++ le32 o := by
    rw [List.append_assoc]
    rfl
  rw [entry 0, entry off, overwriteAt_append]
  · simp [patchPos, hk]
  · rfl

/-- The patching loop with source `k` next: `done` holds the file up to entry `k`, `out` the blocks written so far. -/
theorem patchBlocks_eq (t : Byte) (k o : Nat) (cs : List Checked) (done out : List Byte) (hk : done.length = entryPos k)
    (ho : o = entryPos k + 16 * cs.length + out.length) :
    patchBlocks t k cs (done ++ placeholderToc (infosOf cs) ++ out) =
      done ++ tocFrom o (infosOf cs) ++ (out ++ blocksOf t cs) := by
  induction cs generalizing k o done out with
  | nil => simp [patchBlocks, placeholderToc, tocFrom, blocksOf, infosOf, blockOffsets]
  | cons c cs ih =>
    have hpos : (done ++ placeholderToc (infosOf (c :: cs)) ++ out).length = o := by
      simp only [List.length_append, placeholderToc_length, infosOf_length]
      omega
    have hfile : done ++ placeholderToc (infosOf (c :: cs)) ++ out =
        done ++ tocEntryBytes c.bi 0 ++ (placeholderToc (infosOf cs) ++ out) := by simp
    rw [patchBlocks, hpos, hfile, overwriteAt_patchPos _ _ _ _ _ hk]
    have hnext := ih (k + 1) (o + blockSize c.bi) (done ++ tocEntryBytes c.bi o) (out ++ blockBytes t c.src c.bi)
      (by simp [hk, entryPos, Nat.mul_succ, Nat.add_assoc]) (by simp [ho, entryPos]; omega)
    simpa using hnext

end Sys2Proof.Machine

namespace Sys2Proof.Claims

open Sys2Proof.Machine

/-- Settles O53: the patching loop fills in the offsets, and the last patch the count. -/
theorem backpatchingWritesTheSameFile : Obligations.BackpatchingWritesTheSameFile := by
  intro t placeholder cs
  have hloop := patchBlocks_eq t 0 (firstBlock cs.length) cs (fileHeader placeholder) [] rfl rfl
  rw [List.append_nil, List.nil_append] at hloop
  calc seekableImage t placeholder cs
      = overwriteAt (le16 0 ++ le16 1 ++ le16 placeholder ++ (tocFrom (firstBlock cs.length) (infosOf cs) ++ blocksOf t cs))
          4 (le16 cs.length) := by
        rw [← List.append_assoc]
        exact congrArg (overwriteAt · 4 (le16 cs.length)) hloop
    _ = le16 0 ++ le16 1 ++ le16 cs.length ++ (tocFrom (firstBlock cs.length) (infosOf cs) ++ blocksOf t cs) :=
        overwriteAt_append _ _ _ _ _ rfl rfl
    _ = asmImage t cs := by simp [asmImage, fileHeader, tocBytes, tocFrom, offsets, blocksOf]

end Sys2Proof.Claims
end

section
/-! PROOFS. ASSEMBLE (41_assembler.md R200 to R202): its rule once NSRC is in range, the first source that is not ready, and
the records it leaves in TOCRAM. -/

namespace Sys2Proof.Machine

open Sys2Proof.Claims

/-! ## The records -/

/-- The TOCRAM records that R202 names for the sources, one for each. -/
def recordList (bis : List BmpInfo) : List (List Byte) := bis.zipIdx.map fun p => writtenRecord bis p.2 p.1

@[simp] theorem recordList_length (bis : List BmpInfo) : (recordList bis).length = bis.length := by simp [recordList]

theorem recordList_getElem (bis : List BmpInfo) (k : Nat) (hk : k < bis.length) :
    (recordList bis)[k]'(by simpa using hk) = writtenRecord bis k bis[k] := by simp [recordList]

theorem length_of_mem_recordList (bis : List BmpInfo) : ∀ r ∈ recordList bis, r.length = 64 := by
  intro r hr
  obtain ⟨p, -, rfl⟩ := List.mem_map.mp hr
  simp [writtenRecord]

theorem writtenRecords_length (bis : List BmpInfo) : (writtenRecords bis).length = 64 * bis.length :=
  (flatten_length_const 64 _ (length_of_mem_recordList bis)).trans (congrArg _ (recordList_length bis))

/-- Record `k` of the records that lie one after the other from 0 on (R65). -/
theorem BytesAt.record {f : Nat → Byte} {bis : List BmpInfo} (h : BytesAt f 0 (writtenRecords bis)) {k : Nat}
    (hk : k < bis.length) : BytesAt f (64 * k) (writtenRecord bis k bis[k]) := by
  have hslot := sliceList_flatten_const 64 (recordList bis) (length_of_mem_recordList bis) k (by simpa using hk)
  exact h.of_sliceList (hslot.trans (recordList_getElem bis k hk))

/-- The entry and the header of a record are those of the file, byte for byte (R202). -/
theorem record_eq_file {f g : Nat → Byte} {t : Byte} {cs : List Checked} {k : Nat} (hk : k < cs.length)
    (hf : BytesAt f 0 (writtenRecords (infosOf cs))) (hg : BytesAt g 0 (asmImage t cs)) :
    (∀ j < 16, f (64 * k + j) = g (entryPos k + j)) ∧
      ∀ j < 40, f (64 * k + 16 + j) = g (offAt (infosOf cs) k + j) := by
  have hrecord := hf.record (k := k) (by simpa using hk)
  rw [infosOf_getElem cs k hk] at hrecord
  simp only [writtenRecord, bytesAt_append_iff, tocEntryBytes_length] at hrecord
  obtain ⟨⟨⟨hentry, hheader⟩, -⟩, -⟩ := hrecord
  obtain ⟨⟨⟨hheader', -⟩, -⟩, -⟩ := bytesAt_blockBytes_iff.mp (hg.block hk)
  exact ⟨fun j hj => (hentry j hj).trans (hg.entry hk j hj).symm, fun j hj => (hheader j hj).trans (hheader' j hj).symm⟩

/-- The first 40 bytes of block `k` are its embedded header (R197). -/
theorem asmImage_header (t : Byte) (cs : List Checked) (k : Nat) (hk : k < cs.length) :
    sliceList (asmImage t cs) (offAt (infosOf cs) k) 40 = blockHeader cs[k].bi := by
  have hsize : 40 ≤ blockSize cs[k].bi := by unfold blockSize; omega
  have hblock := congrArg (List.take 40) (asmImage_block_offAt t cs k hk)
  rw [sliceList, List.take_take, Nat.min_eq_left hsize] at hblock
  rw [sliceList, hblock, blockBytes, List.append_assoc, List.append_assoc]
  exact List.take_left' (blockHeader_length _)

/-- The records that ASSEMBLE cuts from the file are those that R202 names. -/
theorem assembledRecords_eq (t : Byte) (cs : List Checked) :
    assembledRecords (asmImage t cs) (offsets (infosOf cs)) = recordList (infosOf cs) := by
  refine List.ext_getElem (by simp [assembledRecords]) fun k hk _ => ?_
  have hk' : k < cs.length := by simpa [assembledRecords] using hk
  rw [recordList_getElem (infosOf cs) k (by simpa using hk'), infosOf_getElem cs k hk']
  simp only [assembledRecords, List.getElem_map, List.getElem_zipIdx, Nat.zero_add, asmImage_entry_offAt t cs k hk',
    offsets_getElem_eq_offAt, asmImage_header t cs k hk']
  rfl

/-! ## The checks -/

theorem outcomeOf_assemble_nsrc {s : State} (h : s.nsrc.toNat = 0 ∨ s.params.srcMax < s.nsrc.toNat) :
    outcomeOf .assemble s = .error (usageError .nsrc s.nsrc.toNat 0) := if_pos h

section
variable {s : State} (h1 : 1 ≤ s.nsrc.toNat) (hsrc : s.nsrc.toNat ≤ s.params.srcMax)
include h1 hsrc

theorem outcomeOf_assemble_tocMax (h : s.params.tocMax < s.nsrc.toNat) :
    outcomeOf .assemble s = .error (allocationFailure .nsrc s.nsrc.toNat 0) := by
  have hrange : ¬ (s.nsrc.toNat = 0 ∨ s.nsrc.toNat > s.params.srcMax) := by omega
  simp only [outcomeOf, runAssemble, if_neg hrange, if_pos h]

variable (htoc : s.nsrc.toNat ≤ s.params.tocMax)
include htoc

/-- With NSRC in range ASSEMBLE checks its sources, then the file length, and then has its results (R201). -/
theorem outcomeOf_assemble : outcomeOf .assemble s = (checkSources s (List.range s.nsrc.toNat)).bind fun cs =>
    if fileLength (infosOf cs) > s.params.outCap then
      .error (allocationFailure .outCap (sat32 (fileLength (infosOf cs))) 0)
    else .ok { info := none, out := some (asmImage s.transp cs), toc := some (recordList (infosOf cs)) } := by
  have hrange : ¬ (s.nsrc.toNat = 0 ∨ s.nsrc.toNat > s.params.srcMax) := by omega
  simp only [outcomeOf, runAssemble, if_neg hrange, if_neg (Nat.not_lt.mpr htoc), assembledRecords_eq]
  cases checkSources s (List.range s.nsrc.toNat) <;> rfl

end

/-- The strict check accepts a ready source (R201). -/
theorem checkStrict_of_ready {b : Bytes} (k : Nat) (h : SourceReady b) : checkStrict b k = .ok (bmpInfoOf b) :=
  checkStrict_of_checked k (headerChecked_of_passes h.1) h.2

theorem checkStrict_header {b : Bytes} {k : Nat} {e : CmdError} (h : verifyHeader b true true k = .error e) :
    checkStrict b k = .error e := by rw [checkStrict, h]

theorem checkStrict_short {b : Bytes} (k : Nat) (h : HeaderPasses b true true)
    (hlen : b.len < 40 + 4 * paletteOf b + widthOf b * heightOf b) :
    checkStrict b k = .error (readShort (sat32 (40 + 4 * paletteOf b + widthOf b * heightOf b)) k) := by
  rw [checkStrict, verifyHeader_of_checked k (headerChecked_of_passes h)]
  exact if_pos hlen

theorem checkSources_of_ready {s : State} {ks : List Nat} (h : ∀ k ∈ ks, SourceReady (s.src k)) :
    checkSources s ks = .ok (ks.map fun k => { src := s.src k, bi := bmpInfoOf (s.src k) }) := by
  induction ks with
  | nil => rfl
  | cons k ks ih => simp [checkSources, checkStrict_of_ready k (h k (by simp)), ih fun j hj => h j (by simp [hj])]

theorem checkSources_sources {s : State} (h : ∀ k < s.nsrc.toNat, SourceReady (s.src k)) :
    checkSources s (List.range s.nsrc.toNat) = .ok (sources s) :=
  checkSources_of_ready fun k hk => h k (List.mem_range.mp hk)

/-- The first source that is not ready decides (R201). -/
theorem checkSources_first_error {s : State} {js ks : List Nat} {k : Nat} {e : CmdError}
    (h : ∀ j ∈ js, SourceReady (s.src j)) (hk : checkStrict (s.src k) k = .error e) :
    checkSources s (js ++ k :: ks) = .error e := by
  induction js with
  | nil => simp [checkSources, hk]
  | cons j js ih => simp [checkSources, checkStrict_of_ready j (h j (by simp)), ih fun i hi => h i (by simp [hi])]

theorem range_split {k n : Nat} (h : k < n) : ∃ ks, List.range n = List.range k ++ k :: ks := by
  obtain ⟨m, rfl⟩ := Nat.exists_eq_add_of_lt h
  exact ⟨_, by rw [Nat.add_assoc, List.range_add, List.range_succ_eq_map]; rfl⟩

/-- A command whose rule answers every error of the strict verifier fails as VERIFY with both flags does. -/
theorem failsWith_of_verify {i : Instr} {s : State} {k : Nat} {e : CmdError} (herr : s.status.err = false)
    (hop : OperandsOk s k) (hi : ∀ e', verifyHeader (s.src k) true true k = .error e' → outcomeOf i s = .error e')
    (h : FailsWith (.verify k true true) s e) : FailsWith i s e := by
  rw [FailsWith, exec_eq, outcomeOf_verify hop] at h
  rw [FailsWith, exec_eq]
  cases hv : verifyHeader (s.src k) true true k with
  | error e' =>
    rw [hv] at h
    rw [hi e' hv]
    exact h
  | ok bi =>
    rw [hv] at h
    injection h with h
    have hst := congrArg (fun u : State => u.status.err) h
    simp [Except.map, herr] at hst

/-- The error report saturates the value at 32 bits (60_exceptions.md R310), so a value saturated before is as good. -/
theorem failsWith_of_sat32 {i : Instr} {s : State} {kind : ErrKind} {reason : ErrReason} {field : ErrField} {v k : Nat}
    (h : FailsWith i s ⟨kind, reason, field, sat32 v, k⟩) : FailsWith i s ⟨kind, reason, field, v, k⟩ := by
  have hsat : min (sat32 v) 4294967295 = min v 4294967295 := sat32_sat32 v
  simpa only [FailsWith, hsat] using h

/-! ## The completion -/

/-- The completion step of a command with results for OUT and TOC only (10_state.md R55). -/
theorem complete_out_toc (s : State) (bs : List Byte) (rs : List (List Byte)) :
    s.complete (.ok { info := none, out := some bs, toc := some rs }) =
      { s with status := okStatus s.status s.status.infoV, outLen := BitVec.ofNat 32 bs.length,
               outmem := s.outmem.write 0 bs, tocCount := BitVec.ofNat 32 rs.length,
               tocram := s.tocram.write 0 rs.flatten } := rfl

theorem bytesAt_write_zero (m : Memory) (sp : Space) (bs : List Byte) : BytesAt ((m.write 0 bs).byte sp) 0 bs :=
  byte_write_inside m sp 0 bs

end Sys2Proof.Machine

namespace Sys2Proof.Claims

open Sys2Proof.Machine

/-- Settles O50: the checks in their order; the first source that is not ready is the one that decides. -/
theorem assembleErrorsInOrder : Obligations.AssembleErrorsInOrder := by
  intro s n herr hn
  subst hn
  refine ⟨fun h => failsWith_of_outcome (outcomeOf_assemble_nsrc h),
    fun h1 hsrc htoc => failsWith_of_outcome (outcomeOf_assemble_tocMax h1 hsrc htoc), fun h1 hsrc htoc => ?_⟩
  have hrule := outcomeOf_assemble h1 hsrc htoc
  refine ⟨fun k hk hbefore => ?_, fun hready hcap => ?_⟩
  · obtain ⟨ks, hks⟩ := range_split hk
    have first {e : CmdError} (he : checkStrict (s.src k) k = .error e) : outcomeOf .assemble s = .error e := by
      rw [hrule, hks, checkSources_first_error (fun j hj => hbefore j (List.mem_range.mp hj)) he]
      rfl
    exact ⟨fun e => failsWith_of_verify herr ⟨hsrc, hk⟩ fun e' he' => first (checkStrict_header he'),
      fun hpass hlen => failsWith_of_sat32 (failsWith_of_outcome (first (checkStrict_short k hpass hlen)))⟩
  · rw [checkSources_sources hready] at hrule
    exact failsWith_of_sat32 (failsWith_of_outcome (hrule.trans (if_pos hcap)))

/-- Settles O49: the results are the file image and its records, which agree with it. -/
theorem assembleCompletes : Obligations.AssembleCompletes := by
  intro s n img recs hn h1 hsrc htoc hready hcap himg hrecs
  subst hn himg hrecs
  have hcount : (infosOf (sources s)).length = s.nsrc.toNat := by simp [sources]
  have hlen := asmImage_length s.transp (sources s)
  have hrecs := writtenRecords_length (infosOf (sources s))
  have hrule := outcomeOf_assemble h1 hsrc htoc
  rw [checkSources_sources hready] at hrule
  have ht : s.complete (outcomeOf .assemble s) =
      { s with status := okStatus s.status s.status.infoV,
               outLen := BitVec.ofNat 32 (fileLength (infosOf (sources s))),
               outmem := s.outmem.write 0 (asmImage s.transp (sources s)),
               tocCount := BitVec.ofNat 32 s.nsrc.toNat,
               tocram := s.tocram.write 0 (writtenRecords (infosOf (sources s))) } := by
    rw [hrule.trans (if_neg (Nat.not_lt.mpr hcap)), complete_out_toc, hlen, recordList_length, hcount]
    rfl
  have hout := bytesAt_write_zero s.outmem .outmem (asmImage s.transp (sources s))
  have htoc := bytesAt_write_zero s.tocram .tocram (writtenRecords (infosOf (sources s)))
  refine ⟨_, (exec_eq .assemble s).trans (congrArg _ ht), rfl, hlen, hcount ▸ hrecs, bytesAt_zero_iff.mp hout,
    fun a ha => byte_write_outside _ _ _ _ _ (.inr (by omega)), bytesAt_zero_iff.mp htoc,
    fun a ha => byte_write_outside _ _ _ _ _ (.inr (by omega)), fun k hk => record_eq_file ?_ htoc hout⟩
  simpa [sources] using hk

end Sys2Proof.Claims
end

section
/-! PROOFS. What ASSEMBLE wrote, read back by PARSE's reader and by DECODE: the masks give every pixel's nibble and
transparency bit (42_mask_codec.md R233), and the reader accepts the file (43_reader.md R268). -/

namespace Sys2Proof.Machine

open Sys2Proof.Claims

/-! ## The masks read back -/

/-- Byte `j` of the XOR mask holds pixel `2j` high and pixel `2j + 1` low (R223, R231). -/
theorem xorNibble_of_bytesAt {xor px : Bytes} {w h i : Nat} {t : Byte} (hx : BytesAt xor.byte 0 (xorMask px w h t))
    (hw : w % 2 = 0) (hi : i < w * h) : xorNibble xor i = nib (px.byte i) t := by
  have hsize := mul_eq_two_mul_half hw h
  have hj : i / 2 < (xorMask px w h t).length := by rw [xorMask_length, xorLen]; omega
  have hbyte : xor.byte (i / 2) = xorByte px t (i / 2) := by
    rw [bytesAt_zero_iff.mp hx _ hj, xorMask_getElem]
  rw [xorNibble, hbyte, xorByte]
  split
  · rw [BitVec.extractLsb'_append_eq_left, show 2 * (i / 2) = i by omega]
  · rw [BitVec.extractLsb'_append_eq_right, show 2 * (i / 2) + 1 = i by omega]

theorem getLsbD_bitAt (b : Bool) (n j : Nat) : (bitAt b n).getLsbD j = (b && (decide (n < 8) && decide (j = n))) := by
  cases b with
  | false => simp [bitAt]
  | true =>
    by_cases h : j = n
    · simp [bitAt, h]
    · have hshift : j < n ∨ j - n ≠ 0 := by omega
      rcases hshift with hlt | hne <;> simp [bitAt, *]

/-- Bit `7 - m` of an AND data byte is the transparency of its pixel `m` (R224). -/
theorem getLsbD_andDataByte (px : Bytes) (t : Byte) (i : Nat) {m : Nat} (hm : m < 8) :
    (andDataByte px t i).getLsbD (7 - m) = tbit (px.byte (i + m)) t := by
  simp only [andDataByte_eq, BitVec.getLsbD_or, getLsbD_bitAt]
  have hcases : m = 0 ∨ m = 1 ∨ m = 2 ∨ m = 3 ∨ m = 4 ∨ m = 5 ∨ m = 6 ∨ m = 7 := by omega
  rcases hcases with rfl | rfl | rfl | rfl | rfl | rfl | rfl | rfl <;> simp

/-- The AND mask holds each pixel's transparency at its row and column (R224, R232). -/
theorem andBit_of_bytesAt {and px : Bytes} {w h i : Nat} {t : Byte} (ha : BytesAt and.byte 0 (andMask px w h t))
    (hw : w = 16 ∨ w = 32) (hi : i < w * h) : andBit and (i / w) (i % w) = tbit (px.byte i) t := by
  have hrow : i / w < h := Nat.div_lt_of_lt_mul hi
  have hcol : i % w < w := Nat.mod_lt i (by omega)
  have hi' : w * (i / w) + i % w = i := Nat.div_add_mod i w
  have hq : 4 * (i / w) + i % w / 8 < (andMask px w h t).length := by rw [andMask_length, andLen]; omega
  have hr : (4 * (i / w) + i % w / 8) / 4 = i / w := by omega
  have hc : (4 * (i / w) + i % w / 8) % 4 = i % w / 8 := by omega
  have hbyte : and.byte (4 * (i / w) + i % w / 8) = andDataByte px t (i / w * w + 8 * (i % w / 8)) := by
    rw [bytesAt_zero_iff.mp ha _ hq, andMask_getElem, andByte, hr, hc]
    exact if_pos (by omega)
  rw [andBit, hbyte, getLsbD_andDataByte px t _ (by omega), Nat.mul_comm,
    show w * (i / w) + 8 * (i % w / 8) + i % w % 8 = i by omega]

/-- The decoded byte of a pixel of index `p`: its transparency bit, then its nibble (30_encoding.md R143, R233). -/
def recoveredPixel (p t : Byte) : Byte := (0#3 ++ BitVec.ofBool (tbit p t)) ++ nib p t

theorem recoveredPixel_fields (p t : Byte) :
    (recoveredPixel p t).extractLsb' 0 4 = nib p t ∧ (recoveredPixel p t).getLsbD 4 = tbit p t := by
  refine ⟨BitVec.extractLsb'_append_eq_right, ?_⟩
  rw [recoveredPixel, BitVec.getLsbD_append, BitVec.getLsbD_append]
  simp

/-- The decoded bytes of a picture. -/
def recoveredPixels (px : Bytes) (t : Byte) : List Byte := (List.range px.len).map fun i => recoveredPixel (px.byte i) t

@[simp] theorem recoveredPixels_length (px : Bytes) (t : Byte) : (recoveredPixels px t).length = px.len := by
  simp [recoveredPixels]

theorem recoveredPixels_getElem (px : Bytes) (t : Byte) (i : Nat) (hi : i < (recoveredPixels px t).length) :
    (recoveredPixels px t)[i] = recoveredPixel (px.byte i) t := by simp [recoveredPixels]

/-- Decoding the masks of a picture gives every pixel's transparency bit and nibble (R233). -/
theorem decodeMasks_of_bytesAt {xor and px : Bytes} {w h : Nat} {t : Byte} (hw : w = 16 ∨ w = 32) (hlen : px.len = w * h)
    (hx : BytesAt xor.byte 0 (xorMask px w h t)) (ha : BytesAt and.byte 0 (andMask px w h t)) :
    decodeMasks xor and w h = recoveredPixels px t := by
  rw [decodeMasks, recoveredPixels, hlen]
  refine List.map_congr_left fun i hi => ?_
  have hi' : i < w * h := List.mem_range.mp hi
  rw [decPixel_eq, andBit_of_bytesAt ha hw hi', xorNibble_of_bytesAt hx (by omega) hi', recoveredPixel]

theorem bytesAt_slice_iff {b : Bytes} {o n : Nat} {bs : List Byte} :
    BytesAt (b.slice o n).byte 0 bs ↔ BytesAt b.byte o bs := by simp [BytesAt]

/-! ## The reader accepts the file -/

theorem bytesAt_of_holds {b : Bytes} {file : List Byte} (h : Holds b file) : BytesAt b.byte 0 file :=
  bytesAt_zero_iff.mpr h.2

/-- The entries and embedded headers of an assembled file, as the reader answers them. -/
def writtenToc (bis : List BmpInfo) : List (TocEntry × BmpInfo) :=
  List.zipWith (fun bi off => (writtenEntry bi off, writtenInfo bi)) bis (offsets bis)

@[simp] theorem writtenToc_length (bis : List BmpInfo) : (writtenToc bis).length = bis.length := by simp [writtenToc]

theorem writtenToc_getElem (cs : List Checked) (k : Nat) (hk : k < cs.length) :
    (writtenToc (infosOf cs))[k]'(by simpa using hk) =
      (writtenEntry cs[k].bi (offAt (infosOf cs) k), writtenInfo cs[k].bi) := by
  simp [writtenToc, offsets_getElem_eq_offAt, infosOf]

/-- A ready source has passed the strict verifier. -/
theorem headerChecked_of_allReady {cs : List Checked} (h : AllReady cs) {k : Nat} (hk : k < cs.length) :
    HeaderChecked cs[k].src true true cs[k].bi := by
  obtain ⟨hready, hbi⟩ := h cs[k] (List.getElem_mem hk)
  exact hbi ▸ headerChecked_of_passes hready.1

section
variable {b : Bytes} {t : Byte} {cs : List Checked} (h : Holds b (asmImage t cs)) (hready : AllReady cs)
  (hpal : ∀ c ∈ cs, c.bi.palSz.toNat ≤ 255) (hfit : fileLength (infosOf cs) ≤ 4294967295)
include h

theorem block_inside_of_holds {k : Nat} (hk : k < cs.length) :
    offAt (infosOf cs) k + blockSize cs[k].bi ≤ b.len := by
  have hlen := h.1
  rw [asmImage_length] at hlen
  exact Nat.le_trans (infosOf_getElem cs k hk ▸ offAt_add_blockSize_le (infosOf cs) k (by simpa using hk)) hlen

theorem entryAt_of_holds {k : Nat} (hk : k < cs.length) :
    entryAt b k = writtenEntry cs[k].bi (offAt (infosOf cs) k) :=
  tocEntryOf_of_bytesAt ((bytesAt_of_holds h).entry hk)

include hfit

/-- The offset field of an entry holds its block's offset, which fits it. -/
theorem offset_of_holds {k : Nat} (hk : k < cs.length) : (entryAt b k).offset.toNat = offAt (infosOf cs) k := by
  rw [entryAt_of_holds h hk]
  exact toNat_ofNat_offAt hfit (by simpa using hk)

theorem embeddedInfo_of_holds {k : Nat} (hk : k < cs.length) :
    bmpInfoOf (headerAt b (entryAt b k).offset.toNat) = writtenInfo cs[k].bi := by
  obtain ⟨⟨⟨hheader, -⟩, -⟩, -⟩ := bytesAt_blockBytes_iff.mp ((bytesAt_of_holds h).block hk)
  rw [offset_of_holds h hfit hk]
  exact bmpInfoOf_of_bytesAt hheader

include hready hpal

theorem entryChecked_of_holds {k : Nat} (hk : k < cs.length) : EntryChecked b k (writtenInfo cs[k].bi) where
  len := by
    have hend := block_inside_of_holds h hk
    have hsize : 40 ≤ blockSize cs[k].bi := by unfold blockSize; omega
    rw [offset_of_holds h hfit hk]
    omega
  header := ⟨(embeddedInfo_of_holds h hfit hk).symm, Nat.le_refl 40, rfl, nofun, nofun, rfl,
    (headerChecked_of_allReady hready hk).palSz⟩
  bpp := by rw [entryAt_of_holds h hk]; rfl
  palSz := by
    have hbyte := hpal cs[k] (List.getElem_mem hk)
    rw [entryAt_of_holds h hk]
    apply BitVec.eq_of_toNat_eq
    simp only [writtenEntry, writtenInfo, BitVec.toNat_setWidth, BitVec.toNat_ofNat]
    omega

/-- The reader accepts a file that ASSEMBLE wrote, and answers what the writer put there (R268). -/
theorem parseIco_of_holds {tocMax : Nat} (hn : cs.length ≤ tocMax) (hmax : tocMax ≤ 65535) :
    parseIco tocMax b = .ok (writtenToc (infosOf cs)) := by
  have hlen := h.1
  rw [asmImage_length, fileLength, firstBlock, infosOf_length] at hlen
  obtain ⟨hres, htype, -⟩ := fileHeader_of_bytesAt (bytesAt_of_holds h)
  have hcount : icoCount b = cs.length := countField_of_bytesAt (bytesAt_of_holds h) (by omega)
  have hes := parseEntries_of_checked (inp := b) (ks := List.range cs.length) fun k hk => by
    rw [embeddedInfo_of_holds h hfit (List.mem_range.mp hk)]
    exact entryChecked_of_holds h hready hpal hfit (List.mem_range.mp hk)
  rw [parseIco_of_checked ⟨by omega, hres, htype, by omega, by omega⟩, hcount, hes]
  refine congrArg _ (List.ext_getElem (by simp) fun k hk _ => ?_)
  have hk' : k < cs.length := by simpa using hk
  rw [List.getElem_map, List.getElem_range, writtenToc_getElem cs k hk', embeddedInfo_of_holds h hfit hk',
    entryAt_of_holds h hk']

end

/-! ## DECODE -/

/-- An entry that passes DECODE's own checks is decoded from its masks (R264 to R267). -/
theorem decodeEntry_of_checked {inp : Bytes} {cap k : Nat} {e : TocEntry} {bi : BmpInfo} {w h : Nat}
    (hbpp : e.bpp = 4#16) (hw : dim8 e.w = w) (hh : dim8 e.h = h) (hside : w = 16 ∨ w = 32)
    (hin : xorStart e bi + xorLen w h + andLen h ≤ inp.len) (hcap : w * h ≤ cap) :
    decodeEntry inp cap k e bi =
      .ok (decodeMasks (inp.slice (xorStart e bi) (xorLen w h)) (inp.slice (xorStart e bi + xorLen w h) (andLen h)) w h) := by
  have hdim : ¬ (w ≠ 16 ∧ w ≠ 32) := by omega
  simp only [decodeEntry, hw, hh, hbpp, ne_eq, not_true_eq_false, if_false, if_neg hdim, if_neg (Nat.not_lt.mpr hin),
    if_neg (Nat.not_lt.mpr hcap)]

/-- A side of a source, 16 or 32, is read back from its byte of the TOC entry (30_encoding.md R133). -/
theorem dim8_ofNat {v : Nat} (hpos : 0 < v) (hlt : v < 256) : dim8 (BitVec.ofNat 8 v) = v := by
  have hv : (BitVec.ofNat 8 v).toNat = v := by rw [BitVec.toNat_ofNat, Nat.mod_eq_of_lt hlt]
  have hne : BitVec.ofNat 8 v ≠ 0 := fun h => by simp [h] at hv; omega
  rw [dim8, if_neg hne, hv]

/-- DECODE's entry step on an entry of a file that ASSEMBLE wrote gives the pixels of its source. -/
theorem decodeEntry_of_holds {b : Bytes} {t : Byte} {cs : List Checked} (h : Holds b (asmImage t cs))
    (hfit : fileLength (infosOf cs) ≤ 4294967295) {k : Nat} (hk : k < cs.length)
    (hc : HeaderChecked cs[k].src true true cs[k].bi) {cap : Nat}
    (hcap : cs[k].bi.width.toNat * cs[k].bi.height.toNat ≤ cap) :
    decodeEntry b cap k (writtenEntry cs[k].bi (offAt (infosOf cs) k)) (writtenInfo cs[k].bi) =
      .ok (recoveredPixels (pixelsOf cs[k].src cs[k].bi) t) := by
  obtain ⟨⟨-, hxor⟩, hand⟩ := bytesAt_blockBytes_iff.mp ((bytesAt_of_holds h).block hk)
  have hw : cs[k].bi.width.toNat = 16 ∨ cs[k].bi.width.toNat = 32 := by
    rcases (hc.dim rfl).1 with hw | hw <;> simp [hw]
  have hh : cs[k].bi.height.toNat = cs[k].bi.width.toNat := congrArg BitVec.toNat (hc.dim rfl).2
  have hstart : xorStart (writtenEntry cs[k].bi (offAt (infosOf cs) k)) (writtenInfo cs[k].bi) =
      offAt (infosOf cs) k + 40 + 4 * cs[k].bi.palSz.toNat :=
    congrArg (· + 40 + 4 * cs[k].bi.palSz.toNat) (toNat_ofNat_offAt hfit (by simpa using hk))
  have hin : xorStart (writtenEntry cs[k].bi (offAt (infosOf cs) k)) (writtenInfo cs[k].bi) +
      xorLen cs[k].bi.width.toNat cs[k].bi.height.toNat + andLen cs[k].bi.height.toNat ≤ b.len := by
    have hend := block_inside_of_holds h hk
    simp only [blockSize, xsOf, asOf] at hend
    omega
  rw [decodeEntry_of_checked rfl (dim8_ofNat (by omega) (by omega)) (dim8_ofNat (by omega) (by omega)) hw hin hcap, hstart]
  exact congrArg _ (decodeMasks_of_bytesAt hw rfl (bytesAt_slice_iff.mpr hxor) (bytesAt_slice_iff.mpr hand))

theorem outcomeOf_decode {s : State} {k : Nat} {es : List (TocEntry × BmpInfo)} {e : TocEntry × BmpInfo} {d : List Byte}
    (hes : parseIco s.params.tocMax s.icoInput = .ok es) (he : es[k]? = some e)
    (hd : decodeEntry s.icoInput s.params.outCap k e.1 e.2 = .ok d) :
    outcomeOf (.decode k) s = .ok { info := none, out := some d, toc := some (parsedRecords s.icoInput es) } := by
  simp only [outcomeOf, runDecode, hes, he, hd]

end Sys2Proof.Machine

namespace Sys2Proof.Claims

open Sys2Proof.Machine

/-- Settles O55: the reader accepts the file, the masks of entry `k` are those of source `k`, and decoding them gives its
pixels. -/
theorem assembleThenDecodeRecoversEveryPixel : Obligations.AssembleThenDecodeRecoversEveryPixel := by
  intro t cs s k hk hp hready hpal hn hfit hholds hcap
  obtain ⟨-, ⟨-, hout⟩, -, -, hmax⟩ := hp
  have hes := parseIco_of_holds hholds hready hpal hfit hn hmax
  have hentry := List.getElem?_eq_some_iff.mpr ⟨by simpa using hk, writtenToc_getElem cs k hk⟩
  have hc := headerChecked_of_allReady hready hk
  have hpx : pixels cs[k].src = pixelsOf cs[k].src cs[k].bi := by
    rw [hc.eq]
    rfl
  have hsize : widthOf cs[k].src * heightOf cs[k].src = (pixelsOf cs[k].src cs[k].bi).len := congrArg Bytes.len hpx
  rw [hsize] at hcap ⊢
  rw [exec_eq, outcomeOf_decode hes hentry (decodeEntry_of_holds hholds hfit hk hc hcap), complete_out_toc, hpx]
  refine ⟨_, rfl, ?_, ?_, fun i hi => ?_⟩
  · rw [recoveredPixels_length, toNat_ofNat_of_le (Nat.le_trans hcap hout)]
  · rw [(parsedRecords_length _ _).1, writtenToc_length, infosOf_length, toNat_ofNat_of_le (by omega)]
  · have hi' : i < (recoveredPixels (pixelsOf cs[k].src cs[k].bi) t).length := by simpa using hi
    rw [bytesAt_zero_iff.mp (bytesAt_write_zero s.outmem .outmem _) i hi', recoveredPixels_getElem]
    exact recoveredPixel_fields _ t

end Sys2Proof.Claims
end

section
/-! PROOFS. The masks of a picture by index (42_mask_codec.md R220 to R228) and what decoding them
gives (R233, R234). -/

namespace Sys2Proof.Machine

theorem encodeMasks_eq (px : Bytes) (w h : Nat) (t : Byte) :
    encodeMasks px w h t = (xorMask px w h t, andMask px w h t) := rfl

/-- Pixel `c` of row `r` of a picture: its index lies below `w * h` and gives back its row and column (R220). -/
theorem pixelIndex_spec {w h r c : Nat} (hr : r < h) (hc : c < w) :
    r * w + c < w * h ∧ (r * w + c) / w = r ∧ (r * w + c) % w = c := by
  have hrows : (r + 1) * w ≤ h * w := Nat.mul_le_mul_right w hr
  rw [Nat.succ_mul] at hrows
  refine ⟨by rw [Nat.mul_comm w h]; omega, ?_, ?_⟩
  · rw [Nat.add_comm, Nat.add_mul_div_right c r (Nat.zero_lt_of_lt hc), Nat.div_eq_of_lt hc, Nat.zero_add]
  · rw [Nat.add_comm, Nat.add_mul_mod_self_right, Nat.mod_eq_of_lt hc]

/-- A byte past the data bytes of its row is 0 (R225). -/
theorem andByte_pad (px : Bytes) (t : Byte) {w r b : Nat} (hpad : w / 8 ≤ b) (hb : b < 4) :
    andByte px w t (4 * r + b) = 0#8 := by
  have hcol : (4 * r + b) % 4 = b := by omega
  rw [andByte, hcol]
  exact if_neg (Nat.not_lt.mpr hpad)

/-- A byte among the data bytes of its row holds eight pixels of that row (R224). -/
theorem andByte_data (px : Bytes) (t : Byte) {w r b : Nat} (hdata : b < w / 8) (hb : b < 4) :
    andByte px w t (4 * r + b) = andDataByte px t (r * w + 8 * b) := by
  have hrow : (4 * r + b) / 4 = r := by omega
  have hcol : (4 * r + b) % 4 = b := by omega
  rw [andByte, hrow, hcol]
  exact if_pos hdata

/-- Decoding the masks of a picture gives at every pixel its transparency bit and nibble (R233). -/
theorem decPixel_encodeMasks {px : Bytes} {w h i : Nat} {t : Byte} (hw : w = 16 ∨ w = 32) (hi : i < w * h) :
    decPixel (Bytes.ofList (xorMask px w h t)) (Bytes.ofList (andMask px w h t)) w i = recoveredPixel (px.byte i) t := by
  rw [decPixel_eq, andBit_of_bytesAt (bytesAt_ofList _) hw hi, xorNibble_of_bytesAt (bytesAt_ofList _) (by omega) hi,
    recoveredPixel]

/-- A pixel of index 0 to 15 that is not transparent comes back exactly (R233). -/
theorem recoveredPixel_eq_self {p t : Byte} (hp : p.toNat ≤ 15) (ht : p ≠ t) : recoveredPixel p t = p := by
  have hhigh : p.extractLsb' 4 4 = 0#4 := by
    apply BitVec.eq_of_toNat_eq
    simp [Nat.shiftRight_eq_div_pow, Nat.div_eq_of_lt (Nat.lt_succ_of_le hp)]
  have hopaque : tbit p t = false := by simpa [tbit] using ht
  have hp' : p = 0#4 ++ p.extractLsb' 0 4 := hhigh ▸ byte_eq_nibbles p
  rw [recoveredPixel, hopaque, nib, if_neg ht]
  exact hp'.symm

/-- For `w = 16` the AND bits of a row lie in its first two bytes (R234). -/
theorem andBit_congr_16 {a b : Bytes} {r c : Nat} (hc : c < 16) (h0 : a.byte (4 * r) = b.byte (4 * r))
    (h1 : a.byte (4 * r + 1) = b.byte (4 * r + 1)) : andBit a r c = andBit b r c := by
  have hbyte : c / 8 = 0 ∨ c / 8 = 1 := by omega
  rw [andBit, andBit]
  rcases hbyte with h | h
  · rw [h, Nat.add_zero, h0]
  · rw [h, h1]

end Sys2Proof.Machine

namespace Sys2Proof.Claims

open Sys2Proof.Machine

/-- Settles O39, from the lengths of the two masks. -/
theorem maskLengths : Obligations.MaskLengths := by
  intro px w h t
  simp [encodeMasks_eq, xorMask_length, andMask_length, xorLen, andLen]

/-- Settles O42: the two per-pixel functions compare whole bytes. -/
theorem transparencyAndTruncation : Obligations.TransparencyAndTruncation :=
  fun _ _ => ⟨beq_iff_eq, fun h => if_pos h, fun h => if_neg h⟩

/-- Settles O40: byte `i / 2` of the XOR mask holds the nibble of pixel `i`. -/
theorem xorPacking : Obligations.XorPacking := by
  intro px w h t i hw hi
  have hsize := mul_eq_two_mul_half (by omega : w % 2 = 0) h
  have hj : i / 2 < (xorMask px w h t).length := by rw [xorMask_length, xorLen]; omega
  have hnib := xorNibble_of_bytesAt (bytesAt_ofList (xorMask px w h t)) (by omega) hi
  rw [xorNibble, bytesAt_zero_iff.mp (bytesAt_ofList _) _ hj] at hnib
  exact ⟨_, List.getElem?_eq_getElem hj, hnib.symm⟩

/-- Settles O41: the data bytes by the AND bit of their pixel, the pad bytes by their column. -/
theorem andPackingAndPadding : Obligations.AndPackingAndPadding := by
  intro px w h t r hw hr
  have hlen : ∀ b < 4, 4 * r + b < (andMask px w h t).length := fun b hb => by rw [andMask_length, andLen]; omega
  refine ⟨fun c hc => ?_, fun b hpad hb => ?_⟩
  · obtain ⟨hi, hrow, hcol⟩ := pixelIndex_spec hr hc
    have hq := hlen (c / 8) (by omega)
    have hbit := andBit_of_bytesAt (bytesAt_ofList (andMask px w h t)) hw hi
    rw [hrow, hcol, andBit, bytesAt_zero_iff.mp (bytesAt_ofList _) _ hq] at hbit
    exact ⟨_, List.getElem?_eq_getElem hq, hbit⟩
  · refine (List.getElem?_eq_getElem (hlen b hb)).trans (congrArg some ?_)
    exact (andMask_getElem px w h t _ (hlen b hb)).trans (andByte_pad px t hpad hb)

/-- Settles O45, from the fields of the recovered pixel. -/
theorem codecRoundTrip : Obligations.CodecRoundTrip := by
  intro px w h t i hw hi
  have hlen : i < (decodeMasks (Bytes.ofList (xorMask px w h t)) (Bytes.ofList (andMask px w h t)) w h).length := by
    simpa using hi
  obtain ⟨hnib, hbit⟩ := recoveredPixel_fields (px.byte i) t
  refine ⟨recoveredPixel (px.byte i) t, ?_, hnib, hbit, recoveredPixel_eq_self⟩
  rw [encodeMasks_eq, List.getElem?_eq_getElem hlen, decodeMasks_getElem, decPixel_encodeMasks hw hi]

/-- Settles O46: a column below 16 has its AND bit in the first two bytes of its row. -/
theorem decodeSkipsThePadding : Obligations.DecodeSkipsThePadding := by
  intro xor and and' h hdata
  refine List.map_congr_left fun i hi => ?_
  obtain ⟨h0, h1⟩ := hdata (i / 16) (Nat.div_lt_of_lt_mul (List.mem_range.mp hi))
  rw [decPixel_eq, decPixel_eq, andBit_congr_16 (Nat.mod_lt i (by decide)) h0 h1]

end Sys2Proof.Claims
end

section
/-! PROOFS. The source's loop form of the mask writer (42_mask_codec.md R229): what each loop has written after two,
after eight and after a row of pixels. -/

namespace Sys2Proof.Machine

/-! ## The XOR loop -/

/-- Two nibbles ORed into a zeroed byte, the first one shifted up (R223). -/
theorem or_nibbles (hi lo : BitVec 4) : 0#8 ||| hi.setWidth 8 <<< 4 ||| lo.setWidth 8 = hi ++ lo := by
  rw [BitVec.zero_or, ← BitVec.setWidth_append_eq_shiftLeft_setWidth_or, BitVec.setWidth_eq]

theorem modify_append_cons (xs ys : List Byte) (x : Byte) (f : Byte → Byte) :
    (xs ++ x :: ys).modify xs.length f = xs ++ f x :: ys := by
  induction xs with
  | nil => rfl
  | cons y xs ih => exact congrArg (y :: ·) ih

/-- Two pixels of the XOR loop, the first of them even, fill the zeroed byte at their place. -/
theorem xorLoop_pair (px : Bytes) (t : Byte) (n : Nat) (done rest : List Byte) :
    xorLoop px t (n + 2) (2 * done.length) (done ++ 0#8 :: rest) =
      xorLoop px t n (2 * (done.length + 1)) (done ++ xorByte px t done.length :: rest) := by
  have heven : 2 * done.length % 2 = 0 := by omega
  have hodd : ¬ (2 * done.length + 1) % 2 = 0 := by omega
  have hbyte : 2 * done.length / 2 = done.length := by omega
  have hbyte' : (2 * done.length + 1) / 2 = done.length := by omega
  simp only [xorLoop, if_pos heven, if_neg hodd, hbyte, hbyte', modify_append_cons, or_nibbles]
  rfl

/-- The XOR loop over the pixels that are left writes the bytes that are left (R223). -/
theorem xorLoop_eq (px : Bytes) (t : Byte) (m : Nat) (done : List Byte) :
    xorLoop px t (2 * m) (2 * done.length) (done ++ List.replicate m 0#8) =
      done ++ (List.range' done.length m).map (xorByte px t) := by
  induction m generalizing done with
  | zero => simp [xorLoop]
  | succ m ih =>
    have hnext := ih (done ++ [xorByte px t done.length])
    rw [List.length_append, List.append_assoc, List.append_assoc] at hnext
    rw [Nat.mul_succ, List.replicate_succ, xorLoop_pair, List.range'_succ]
    exact hnext

/-! ## The AND loop -/

/-- A bit at its place, shifted left by one place. -/
theorem bitAt_shiftLeft_one (b : Bool) (n : Nat) : bitAt b n <<< 1 = bitAt b (n + 1) := by
  cases b with
  | false => rfl
  | true => exact (BitVec.shiftLeft_add 1#8 n 1).symm

/-- Eight pixels of the AND loop, the first at a multiple of 8, write one data byte and advance the cursor, past the pad
bytes when a row of 16 pixels ends: after eight shifts the first pixel's bit is bit 7 (R229). -/
theorem andLoop_eight (px : Bytes) (w : Nat) (t : Byte) (n i cursor : Nat) (mask : List Byte) (hi : i % 8 = 0) :
    andLoop px w t (n + 8) i 0#8 cursor mask =
      andLoop px w t n (i + 8) 0#8 (if w = 16 ∧ (i + 8) % w = 0 then cursor + 3 else cursor + 1)
        (mask.set cursor (andDataByte px t i)) := by
  have hmod : ∀ m < 8, (i + m) % 8 = m := fun m hm => by omega
  have hend : (i + 7 + 1) % 8 = 0 := by omega
  simp [andLoop, Nat.add_assoc, hmod, hend, andDataByte_eq, BitVec.shiftLeft_or_distrib, bitAt_shiftLeft_one]

/-- The four AND bytes of row `r` (R224, R225). -/
def andRow (px : Bytes) (w : Nat) (t : Byte) (r : Nat) : List Byte := (List.range' (4 * r) 4).map (andByte px w t)

theorem andRow_eq (px : Bytes) (w : Nat) (t : Byte) (r : Nat) : andRow px w t r =
    [andByte px w t (4 * r + 0), andByte px w t (4 * r + 1), andByte px w t (4 * r + 2), andByte px w t (4 * r + 3)] := rfl

/-- A row of 16 pixels has two data bytes, then two pad bytes (R225). -/
theorem andRow_16 (px : Bytes) (t : Byte) (r : Nat) :
    andRow px 16 t r = [andDataByte px t (16 * r), andDataByte px t (16 * r + 8), 0#8, 0#8] := by
  have hdata {b : Nat} (hb : b < 2) := andByte_data px t (w := 16) (r := r) (b := b) (by omega) (by omega)
  have hpad {b : Nat} (hlo : 2 ≤ b) := andByte_pad px t (w := 16) (r := r) (b := b) (by omega)
  rw [andRow_eq, hdata (by decide), hdata (by decide), hpad (by decide) (by decide), hpad (by decide) (by decide),
    Nat.mul_comm r 16]
  rfl

/-- A row of 32 pixels has four data bytes (R225). -/
theorem andRow_32 (px : Bytes) (t : Byte) (r : Nat) : andRow px 32 t r =
    [andDataByte px t (32 * r), andDataByte px t (32 * r + 8), andDataByte px t (32 * r + 16),
      andDataByte px t (32 * r + 24)] := by
  have hdata {b : Nat} (hb : b < 4) := andByte_data px t (w := 32) (r := r) (b := b) (by omega) hb
  rw [andRow_eq, hdata (by decide), hdata (by decide), hdata (by decide), hdata (by decide), Nat.mul_comm r 32]
  rfl

/-- A row of pixels in the AND loop writes the four bytes of the row, pad bytes left 0, and takes the cursor to the next
row (R229). -/
theorem andLoop_row {px : Bytes} {w : Nat} {t : Byte} (hw : w = 16 ∨ w = 32) (n : Nat) {r : Nat} {done : List Byte}
    (hr : done.length = 4 * r) (rest : List Byte) :
    andLoop px w t (n + w) (w * r) 0#8 (4 * r) (done ++ 0#8 :: 0#8 :: 0#8 :: 0#8 :: rest) =
      andLoop px w t n (w * (r + 1)) 0#8 (4 * (r + 1)) (done ++ andRow px w t r ++ rest) := by
  have hset (j : Nat) (x : Byte) (l : List Byte) : (done ++ l).set (4 * r + j) x = done ++ l.set j x := by
    rw [← hr, List.set_append_right _ _ (by omega), Nat.add_sub_cancel_left]
  have hset_first : ∀ x l, (done ++ l).set (4 * r) x = done ++ l.set 0 x := hset 0
  rcases hw with rfl | rfl
  · rw [andLoop_eight px 16 t (n + 8) (16 * r) _ _ (by omega), if_neg (by omega),
      andLoop_eight px 16 t n (16 * r + 8) _ _ (by omega), if_pos (by omega), andRow_16]
    simp only [hset_first, hset, Nat.add_assoc, Nat.reduceAdd, Nat.mul_succ, List.append_assoc]
    rfl
  · rw [andLoop_eight px 32 t (n + 24) (32 * r) _ _ (by omega), if_neg (by omega),
      andLoop_eight px 32 t (n + 16) (32 * r + 8) _ _ (by omega), if_neg (by omega),
      andLoop_eight px 32 t (n + 8) (32 * r + 16) _ _ (by omega), if_neg (by omega),
      andLoop_eight px 32 t n (32 * r + 24) _ _ (by omega), if_neg (by omega), andRow_32]
    simp only [hset_first, hset, Nat.add_assoc, Nat.reduceAdd, Nat.mul_succ, List.append_assoc]
    rfl

/-- The AND loop over the rows that are left writes the bytes that are left. -/
theorem andLoop_eq {px : Bytes} {w : Nat} {t : Byte} (hw : w = 16 ∨ w = 32) (h r : Nat) (done : List Byte)
    (hr : done.length = 4 * r) :
    andLoop px w t (w * h) (w * r) 0#8 (4 * r) (done ++ List.replicate (4 * h) 0#8) =
      done ++ (List.range' (4 * r) (4 * h)).map (andByte px w t) := by
  induction h generalizing r done with
  | zero => simp [andLoop]
  | succ h ih =>
    have hnext := ih (r + 1) (done ++ andRow px w t r) (by simp [andRow, hr, Nat.mul_succ])
    have hrange : List.range' (4 * r) (4 * (h + 1)) = List.range' (4 * r) 4 ++ List.range' (4 * (r + 1)) (4 * h) := by
      rw [Nat.mul_succ, Nat.mul_succ, Nat.add_comm (4 * h) 4, ← List.range'_append_1]
    rw [Nat.mul_succ, hrange, Nat.mul_succ 4 h, List.map_append, ← List.append_assoc]
    exact (andLoop_row hw _ hr _).trans hnext

end Sys2Proof.Machine

namespace Sys2Proof.Claims

open Sys2Proof.Machine

/-- Settles O43: each loop over all pixels, from an empty list of bytes done. -/
theorem loopFormWritesTheSameMasks : Obligations.LoopFormWritesTheSameMasks := by
  intro px w h t hw
  have hxor := xorLoop_eq px t (xorLen w h) []
  have hand := andLoop_eq (px := px) (t := t) hw h 0 [] rfl
  rw [xorLen, ← mul_eq_two_mul_half (by omega)] at hxor
  rw [encodeMasksLoop, encodeMasks_eq, xorMask, andMask, List.range_eq_range', List.range_eq_range']
  exact Prod.ext hxor hand

end Sys2Proof.Claims
end

section
/-! PROOFS. ENCODE (42_mask_codec.md R235): its rule once the operand checks pass, and what it leaves in OUTMEM
and INFO. -/

namespace Sys2Proof.Machine

open Sys2Proof.Claims

/-- Once the operand checks pass, ENCODE checks its source, then the length of the masks, and then has its results. -/
theorem outcomeOf_encode {s : State} {k : Nat} (hop : OperandsOk s k) :
    outcomeOf (.encode k) s = (checkStrict (s.src k) k).bind fun bi =>
      if xorLen bi.width.toNat bi.height.toNat + andLen bi.height.toNat > s.params.outCap then
        .error (allocationFailure .outCap (xorLen bi.width.toNat bi.height.toNat + andLen bi.height.toNat) k)
      else
        .ok { info := some bi, toc := none,
              out := some (xorMask (pixelsOf (s.src k) bi) bi.width.toNat bi.height.toNat s.transp ++
                andMask (pixelsOf (s.src k) bi) bi.width.toNat bi.height.toNat s.transp) } := by
  obtain ⟨hn, hk⟩ := hop
  simp only [outcomeOf, runEncode, checkSource_of_ok hn hk]
  cases checkStrict (s.src k) k <;> rfl

/-- The completion step of a command with results for INFO and OUT only (10_state.md R55). -/
theorem complete_info_out (s : State) (bi : BmpInfo) (bs : List Byte) :
    s.complete (.ok { info := some bi, out := some bs, toc := none }) =
      { s with status := okStatus s.status true, info := .held bi, outLen := BitVec.ofNat 32 bs.length,
               outmem := s.outmem.write 0 bs } := rfl

end Sys2Proof.Machine

namespace Sys2Proof.Claims

open Sys2Proof.Machine

/-- Settles O48: the checks in their order after the operand checks. -/
theorem encodeErrorsInOrder : Obligations.EncodeErrorsInOrder := by
  intro s k need n herr hop hneed hn
  subst hneed hn
  have hrule := outcomeOf_encode hop
  have strict {e : CmdError} (he : checkStrict (s.src k) k = .error e) : outcomeOf (.encode k) s = .error e := by
    rw [hrule, he]
    rfl
  refine ⟨fun e => failsWith_of_verify herr hop fun e' he' => strict (checkStrict_header he'),
    fun hpass hlen => failsWith_of_sat32 (failsWith_of_outcome (strict (checkStrict_short k hpass hlen))),
    fun hready hcap => failsWith_of_outcome ?_⟩
  rw [checkStrict_of_ready k hready] at hrule
  exact hrule.trans (if_pos hcap)

/-- Settles O47: the results are the header and the two masks. -/
theorem encodeCompletes : Obligations.EncodeCompletes := by
  intro s k w h n px out hop hready hw hh hn hcap hpx hout
  have hlen : out.length = n := by
    rw [hout, hn, List.length_append, encodeMasks_eq, xorMask_length, andMask_length, xorLen, andLen]
  have hrule := outcomeOf_encode hop
  rw [checkStrict_of_ready k hready] at hrule
  have hok : outcomeOf (.encode k) s = .ok { info := some (bmpInfoOf (s.src k)), out := some out, toc := none } := by
    subst hw hh hn hpx hout
    exact hrule.trans (if_neg (Nat.not_lt.mpr hcap))
  have ht : s.complete (outcomeOf (.encode k) s) =
      { s with status := okStatus s.status true, info := .held (bmpInfoOf (s.src k)),
               outLen := BitVec.ofNat 32 n, outmem := s.outmem.write 0 out } := by
    rw [hok, complete_info_out, hlen]
  exact ⟨_, (exec_eq _ s).trans (congrArg _ ht), rfl, hlen,
    bytesAt_zero_iff.mp (bytesAt_write_zero s.outmem .outmem out),
    fun a ha => byte_write_outside _ _ _ _ _ (.inr (by omega))⟩

end Sys2Proof.Claims
end

section
/-! PROOFS. The reader (43_reader.md R250 to R261): the statements' conditions on a file are what it checks, the error of
each check that fails first, and that it looks at its checked fields only. -/

namespace Sys2Proof.Machine

open Sys2Proof.Claims

/-! ## A file that passes -/

/-- TOC entry `k` and the BmpInfo of its embedded header, as the reader reads them. -/
def readEntry (b : Bytes) (k : Nat) : TocEntry × BmpInfo := (entryAt b k, bmpInfoOf (headerAt b (offsetField b k)))

theorem entryAt_offset (b : Bytes) (k : Nat) : (entryAt b k).offset.toNat = offsetField b k := rfl

theorem xorStart_readEntry (b : Bytes) (k : Nat) :
    xorStart (readEntry b k).1 (readEntry b k).2 = offsetField b k + 40 + 4 * (b.rd32 (offsetField b k + 32)).toNat := rfl

/-- The statements' condition on a file header is what the reader checks (R251 to R255). -/
theorem icoHeaderChecked_of_passes {tocMax : Nat} {b : Bytes} (h : IcoHeaderPasses tocMax b) :
    IcoHeaderChecked tocMax b := by
  obtain ⟨hlen, hres, htype, hcount, htoc⟩ := h
  exact ⟨hlen, hres, htype, hcount, htoc⟩

/-- The palette byte, widened, is the embedded header's word exactly when both are one number (R260). -/
theorem setWidth_eq_iff_toNat_eq (p : Byte) (v : Word) : p.setWidth 32 = v ↔ p.toNat = v.toNat := by
  have hp := p.isLt
  rw [← BitVec.toNat_inj, BitVec.toNat_setWidth, Nat.mod_eq_of_lt (by omega)]

/-- The statements' condition on an entry is what the reader checks (R257 to R260). -/
theorem entryChecked_of_passes {b : Bytes} {k : Nat} (h : EntryPasses b k) : EntryChecked b k (readEntry b k).2 := by
  obtain ⟨hlen, hheader, hbpp, hpal⟩ := h
  exact ⟨hlen, headerChecked_of_passes hheader, hbpp, (setWidth_eq_iff_toNat_eq _ _).mpr hpal⟩

/-- The reader accepts a file whose header and entries all pass. -/
theorem parseIco_of_passes {tocMax : Nat} {b : Bytes} (hico : IcoHeaderPasses tocMax b)
    (hall : ∀ k < countField b, EntryPasses b k) :
    parseIco tocMax b = .ok ((List.range (countField b)).map (readEntry b)) := by
  rw [parseIco_of_checked (icoHeaderChecked_of_passes hico)]
  exact parseEntries_of_checked fun k hk => entryChecked_of_passes (hall k (List.mem_range.mp hk))

/-! ## The file header's errors (R251 to R255) -/

section
variable {tocMax : Nat} {b : Bytes}

theorem parseIco_short (h : b.len < 6) : parseIco tocMax b = .error (readShort 6 0) := if_pos h

variable (hlen : 6 ≤ b.len)
include hlen

theorem parseIco_reserved (h : b.rd16 0 ≠ 0#16) :
    parseIco tocMax b = .error (verifyFailure .invalidIcoFile .icoReserved (b.rd16 0).toNat 0) := by
  rw [parseIco, if_neg (Nat.not_lt.mpr hlen), if_pos h]

variable (hres : b.rd16 0 = 0#16)
include hres

theorem parseIco_type (h : b.rd16 2 ≠ 1#16) :
    parseIco tocMax b = .error (verifyFailure .invalidIcoFile .icoType (b.rd16 2).toNat 0) := by
  rw [parseIco, if_neg (Nat.not_lt.mpr hlen), if_neg (not_not_intro hres), if_pos h]

variable (htype : b.rd16 2 = 1#16)
include htype

theorem parseIco_count (h : tocMax < countField b) :
    parseIco tocMax b = .error (allocationFailure .icoCount (countField b) 0) := by
  rw [parseIco, if_neg (Nat.not_lt.mpr hlen), if_neg (not_not_intro hres), if_neg (not_not_intro htype)]
  exact if_pos h

theorem parseIco_toc (hcount : countField b ≤ tocMax) (h : b.len < 6 + 16 * countField b) :
    parseIco tocMax b = .error (readShort (6 + 16 * countField b) 0) := by
  rw [parseIco, if_neg (Nat.not_lt.mpr hlen), if_neg (not_not_intro hres), if_neg (not_not_intro htype)]
  exact (if_neg (Nat.not_lt.mpr hcount)).trans (if_pos h)

end

/-! ## An entry's errors (R257 to R260) -/

section
variable {b : Bytes} {k : Nat}

theorem parseEntry_short (h : b.len < offsetField b k + 40) :
    parseEntry b k = .error (readShort (sat32 (offsetField b k + 40)) k) := if_pos h

variable (hlen : offsetField b k + 40 ≤ b.len)
include hlen

/-- With its embedded header inside the input, an entry is checked by the relaxed verifier, then for its bpp, then for its
palette size. -/
theorem parseEntry_of_inside :
    parseEntry b k = (verifyHeader (headerAt b (offsetField b k)) false false k).bind fun bi =>
      if (entryAt b k).bpp ≠ bi.bpp then .error (fieldMismatch .entryBpp (entryAt b k).bpp.toNat k)
      else if (entryAt b k).palSz.setWidth 32 ≠ bi.palSz then
        .error (fieldMismatch .entryPalSz (entryAt b k).palSz.toNat k)
      else .ok bi := by
  rw [← entryAt_offset] at hlen ⊢
  rw [parseEntry, if_neg (Nat.not_lt.mpr hlen)]
  cases verifyHeader (headerAt b (entryAt b k).offset.toNat) false false k <;> rfl

theorem parseEntry_header {e : CmdError} (h : verifyHeader (headerAt b (offsetField b k)) false false k = .error e) :
    parseEntry b k = .error e := by
  rw [parseEntry_of_inside hlen, h]
  rfl

variable (hpass : HeaderPasses (headerAt b (offsetField b k)) false false)
include hpass

theorem parseEntry_bpp (h : b.rd16 (6 + 16 * k + 6) ≠ b.rd16 (offsetField b k + 14)) :
    parseEntry b k = .error (fieldMismatch .entryBpp (b.rd16 (6 + 16 * k + 6)).toNat k) := by
  rw [parseEntry_of_inside hlen, verifyHeader_of_checked k (headerChecked_of_passes hpass)]
  exact if_pos h

theorem parseEntry_palSz (hbpp : b.rd16 (6 + 16 * k + 6) = b.rd16 (offsetField b k + 14))
    (h : (b.byte (6 + 16 * k + 2)).toNat ≠ (b.rd32 (offsetField b k + 32)).toNat) :
    parseEntry b k = .error (fieldMismatch .entryPalSz (b.byte (6 + 16 * k + 2)).toNat k) := by
  rw [parseEntry_of_inside hlen, verifyHeader_of_checked k (headerChecked_of_passes hpass)]
  exact (if_neg (not_not_intro hbpp)).trans (if_pos (mt (setWidth_eq_iff_toNat_eq _ _).mp h))

end

/-- The entry loop checks its first entry, then the rest (R250). -/
theorem parseEntries_cons (b : Bytes) (k : Nat) (ks : List Nat) :
    parseEntries b (k :: ks) =
      (parseEntry b k).bind fun bi => (parseEntries b ks).bind fun rest => .ok ((entryAt b k, bi) :: rest) := by
  simp only [parseEntries]
  cases parseEntry b k <;> cases parseEntries b ks <;> rfl

/-- The first entry that does not pass decides (R250). -/
theorem parseEntries_first_error {b : Bytes} {js ks : List Nat} {k : Nat} {e : CmdError}
    (h : ∀ j ∈ js, EntryPasses b j) (hk : parseEntry b k = .error e) : parseEntries b (js ++ k :: ks) = .error e := by
  induction js with
  | nil =>
    rw [List.nil_append, parseEntries_cons, hk]
    rfl
  | cons j js ih =>
    have hj := parseEntry_of_checked (entryChecked_of_passes (h j (by simp)))
    rw [List.cons_append, parseEntries_cons, hj, ih fun i hi => h i (by simp [hi])]
    rfl

theorem parseIco_first_error {tocMax : Nat} {b : Bytes} {k : Nat} {e : CmdError} (hico : IcoHeaderPasses tocMax b)
    (hk : k < countField b) (hbefore : ∀ j < k, EntryPasses b j) (he : parseEntry b k = .error e) :
    parseIco tocMax b = .error e := by
  obtain ⟨ks, hks⟩ := range_split hk
  rw [parseIco_of_checked (icoHeaderChecked_of_passes hico), show icoCount b = countField b from rfl, hks]
  exact parseEntries_first_error (fun j hj => hbefore j (List.mem_range.mp hj)) he

/-- PARSE and DECODE end with the reader's error (R262, R264). -/
theorem outcomeOf_of_parseIco_error {i : Instr} {s : State} {e : CmdError} (hi : i = .parse ∨ ∃ k, i = .decode k)
    (h : parseIco s.params.tocMax s.icoInput = .error e) : outcomeOf i s = .error e := by
  rcases hi with rfl | ⟨k, rfl⟩
  · simp only [outcomeOf, runParse, h]
  · simp only [outcomeOf, runDecode, h]

/-! ## The fields that the reader looks at (R261) -/

/-- Two inputs with the same checked fields in entry `k` and in its embedded header. -/
def SameChecked (b c : Bytes) (k : Nat) : Prop :=
  b.byte (6 + 16 * k + 2) = c.byte (6 + 16 * k + 2) ∧
    b.rd16 (6 + 16 * k + 6) = c.rd16 (6 + 16 * k + 6) ∧ b.rd32 (6 + 16 * k + 12) = c.rd32 (6 + 16 * k + 12) ∧
    b.rd32 (offsetField b k) = c.rd32 (offsetField b k) ∧ b.rd16 (offsetField b k + 14) = c.rd16 (offsetField b k + 14) ∧
    b.rd32 (offsetField b k + 16) = c.rd32 (offsetField b k + 16) ∧
    b.rd32 (offsetField b k + 32) = c.rd32 (offsetField b k + 32)

/-- Of a header of 40 bytes the relaxed verifier looks at the size, the compression and the palette size; the reader then
takes its bpp and palette size (R258 to R260). -/
theorem verifyHeader_relaxed_congr {b c : Bytes} (k : Nat) (hb : 40 ≤ b.len) (hc : 40 ≤ c.len)
    (hsz : b.rd32 0 = c.rd32 0) (hbpp : b.rd16 14 = c.rd16 14) (hcomp : b.rd32 16 = c.rd32 16)
    (hpal : b.rd32 32 = c.rd32 32) :
    (verifyHeader b false false k).map (fun bi => (bi.bpp, bi.palSz)) =
      (verifyHeader c false false k).map fun bi => (bi.bpp, bi.palSz) := by
  by_cases h40 : c.rd32 0 = 40#32
  · have h40' := hsz.trans h40
    by_cases h0 : c.rd32 16 = 0#32
    · have h0' := hcomp.trans h0
      by_cases hp : c.rd32 32 = 0#32
      · rw [verifyHeader_palSz k hb h40' h0' (hpal.trans hp), verifyHeader_palSz k hc h40 h0 hp]
      · have hpass : HeaderPasses b false false := ⟨hb, h40', by simp, by simp, h0', mt hpal.symm.trans hp⟩
        have hpass' : HeaderPasses c false false := ⟨hc, h40, by simp, by simp, h0, hp⟩
        rw [verifyHeader_of_checked k (headerChecked_of_passes hpass),
          verifyHeader_of_checked k (headerChecked_of_passes hpass')]
        exact congrArg Except.ok (Prod.ext hbpp hpal)
    · rw [verifyHeader_compression k hb h40' (mt hcomp.symm.trans h0), verifyHeader_compression k hc h40 h0, hcomp]
  · rw [verifyHeader_headerSz k hb (mt hsz.symm.trans h40), verifyHeader_headerSz k hc h40, hsz]

/-- Two computations that agree up to `p` go on alike when what follows agrees, up to `q`, on values that agree up to
`p`. -/
theorem bind_map_congr {ε α β γ δ : Type} {x y : Except ε α} {f g : α → Except ε γ} {p : α → β} {q : γ → δ}
    (h : x.map p = y.map p) (hfg : ∀ a a', p a = p a' → (f a).map q = (g a').map q) :
    (x.bind f).map q = (y.bind g).map q := by
  cases x with
  | error e => cases y with
    | error e' =>
      cases h
      rfl
    | ok a' => cases h
  | ok a => cases y with
    | error e' => cases h
    | ok a' => exact hfg a a' (Except.ok.inj h)

/-- Entries with the same checked fields both pass or fail with the same error. -/
theorem parseEntry_congr {b c : Bytes} {k : Nat} (hlen : b.len = c.len) (h : SameChecked b c k) :
    (parseEntry b k).map (fun _ => ()) = (parseEntry c k).map fun _ => () := by
  obtain ⟨hpal, hbpp, hoff, hsz, hbpp', hcomp, hpal'⟩ := h
  have hoff' : offsetField c k = offsetField b k := congrArg BitVec.toNat hoff.symm
  have hebpp : (entryAt c k).bpp = (entryAt b k).bpp := hbpp.symm
  have hepal : (entryAt c k).palSz = (entryAt b k).palSz := hpal.symm
  by_cases hshort : b.len < offsetField b k + 40
  · rw [parseEntry_short hshort, parseEntry_short (by omega), hoff']
  · rw [parseEntry_of_inside (by omega), parseEntry_of_inside (by omega), hoff', hebpp, hepal]
    have hverify := verifyHeader_relaxed_congr (b := headerAt b (offsetField b k)) (c := headerAt c (offsetField b k)) k
      (Nat.le_refl 40) (Nat.le_refl 40) hsz hbpp' hcomp hpal'
    refine bind_map_congr hverify fun bi bi' hbi => ?_
    obtain ⟨hbibpp, hbipal⟩ := Prod.mk.inj hbi
    simp only [hbibpp, hbipal, apply_ite (Except.map _)]
    rfl

theorem parseEntries_congr {b c : Bytes} {ks : List Nat} (hlen : b.len = c.len) (h : ∀ k ∈ ks, SameChecked b c k) :
    (parseEntries b ks).map List.length = (parseEntries c ks).map List.length := by
  induction ks with
  | nil => rfl
  | cons k ks ih =>
    rw [parseEntries_cons, parseEntries_cons]
    have hks := ih fun j hj => h j (by simp [hj])
    exact bind_map_congr (parseEntry_congr hlen (h k (by simp))) fun _ _ _ =>
      bind_map_congr hks fun _ _ hes => congrArg (fun n => Except.ok (n + 1)) hes

/-- The reader passes as many entries or fails with the same error when header and checked fields are the same. -/
theorem parseIco_congr {b c : Bytes} (tocMax : Nat) (hlen : b.len = c.len) (hheader : ∀ j < 6, b.byte j = c.byte j)
    (h : ∀ k < countField b, SameChecked b c k) :
    (parseIco tocMax b).map List.length = (parseIco tocMax c).map List.length := by
  have hfield (o : Nat) (ho : o ≤ 4) : b.rd16 o = c.rd16 o := rd16_congr b c o fun j hj => hheader _ (by omega)
  have hcount : icoCount c = icoCount b := congrArg BitVec.toNat (hfield 4 (by omega)).symm
  simp only [parseIco, ← hlen, ← hfield 0 (by omega), ← hfield 2 (by omega), hcount]
  split
  · rfl
  split
  · rfl
  split
  · rfl
  split
  · rfl
  split
  · rfl
  exact parseEntries_congr hlen fun k hk => h k (List.mem_range.mp hk)

end Sys2Proof.Machine

namespace Sys2Proof.Claims

open Sys2Proof.Machine

/-- Settles O54: the reader accepts the file and answers what the writer put there. -/
theorem assembledFileParses : Obligations.AssembledFileParses := by
  intro t cs tocMax b hready hpal hn hmax hfit hholds
  refine ⟨_, parseIco_of_holds hholds hready hpal hfit hn hmax, by simp, fun k hk => ?_⟩
  exact List.getElem?_eq_some_iff.mpr ⟨by simpa using hk, writtenToc_getElem cs k hk⟩

/-- Settles O57, check by check: the file header's, then those of the first entry that does not pass. -/
theorem readerReportsTheFirstFailingCheck : Obligations.ReaderReportsTheFirstFailingCheck := by
  intro s b i hb hi
  subst hb
  have fails {e : CmdError} (h : parseIco s.params.tocMax s.icoInput = .error e) : FailsWith i s e :=
    failsWith_of_outcome (outcomeOf_of_parseIco_error hi h)
  refine ⟨fun h => fails (parseIco_short h), fun hlen h => fails (parseIco_reserved hlen h),
    fun hlen hres h => fails (parseIco_type hlen hres h), fun hlen hres htype h => fails (parseIco_count hlen hres htype h),
    fun hlen hres htype hcount h => fails (parseIco_toc hlen hres htype hcount h), fun hico k hk hbefore o c ho hc => ?_⟩
  subst ho hc
  have first {e : CmdError} (h : parseEntry s.icoInput k = .error e) : FailsWith i s e :=
    fails (parseIco_first_error hico hk hbefore h)
  refine ⟨fun h => failsWith_of_sat32 (first (parseEntry_short h)), fun hlen => ⟨?_, ?_, ?_, fun hpass => ⟨?_, ?_⟩⟩⟩
  · exact fun h => first (parseEntry_header hlen (verifyHeader_headerSz k (Nat.le_refl 40) h))
  · exact fun hsz h => first (parseEntry_header hlen (verifyHeader_compression k (Nat.le_refl 40) hsz h))
  · exact fun hsz hcomp h => first (parseEntry_header hlen (verifyHeader_palSz k (Nat.le_refl 40) hsz hcomp h))
  · exact fun h => first (parseEntry_bpp hlen hpass h)
  · exact fun hbpp h => first (parseEntry_palSz hlen hpass hbpp h)

/-- Settles O58: the reader's answers on the two inputs are the same up to the entries' contents. -/
theorem readerMakesNoOtherCheck : Obligations.ReaderMakesNoOtherCheck := by
  intro b c tocMax hlen hheader h
  match parseIco tocMax b, parseIco tocMax c, parseIco_congr tocMax hlen hheader h with
  | .ok _, .ok _, hsame => exact Except.ok.inj hsame
  | .error _, .error _, hsame => exact Except.error.inj hsame
  | .ok _, .error _, hsame => cases hsame
  | .error _, .ok _, hsame => cases hsame

end Sys2Proof.Claims
end

section
/-! PROOFS. PARSE and DECODE of a file that passes (43_reader.md R262 to R267): the TOCRAM records, DECODE's own checks in
their order, and the completion. -/

namespace Sys2Proof.Machine

open Sys2Proof.Claims

/-! ## The records (R263) -/

/-- The TOCRAM records that R263 names for an input of `n` entries, one for each. -/
def inputRecordList (b : Bytes) (n : Nat) : List (List Byte) := (List.range n).map (inputRecord b)

@[simp] theorem inputRecordList_length (b : Bytes) (n : Nat) : (inputRecordList b n).length = n := by
  simp [inputRecordList]

theorem inputRecords_length (b : Bytes) : (inputRecords b).length = 64 * countField b := by
  refine (flatten_length_const 64 (inputRecordList b (countField b)) fun r hr => ?_).trans (by simp)
  obtain ⟨k, -, rfl⟩ := List.mem_map.mp hr
  simp [inputRecord]

/-- The records that the reader cuts from its input are those that R263 names. -/
theorem parsedRecords_eq (b : Bytes) (n : Nat) :
    parsedRecords b ((List.range n).map (readEntry b)) = inputRecordList b n := by
  refine List.ext_getElem (by simp [parsedRecords]) fun k hk _ => ?_
  simp only [parsedRecords, inputRecordList, List.getElem_map, List.getElem_zipIdx, List.getElem_range, Nat.zero_add]
  rfl

/-! ## DECODE's own checks (R264, R265) -/

section
variable {inp : Bytes} {cap k : Nat} {e : TocEntry} {bi : BmpInfo}

theorem decodeEntry_bpp (h : e.bpp ≠ 4#16) :
    decodeEntry inp cap k e bi = .error (verifyFailure .unsupportedBpp .entryBpp e.bpp.toNat k) := if_pos h

variable (hbpp : e.bpp = 4#16)
include hbpp

theorem decodeEntry_width (h : dim8 e.w ≠ 16 ∧ dim8 e.w ≠ 32) :
    decodeEntry inp cap k e bi = .error (verifyFailure .unsupportedDimensions .entryWidth (dim8 e.w) k) := by
  rw [decodeEntry, if_neg (not_not_intro hbpp), if_pos h]

variable (hside : dim8 e.w = 16 ∨ dim8 e.w = 32)
include hside

theorem decodeEntry_short (h : inp.len < xorStart e bi + xorLen (dim8 e.w) (dim8 e.h) + andLen (dim8 e.h)) :
    decodeEntry inp cap k e bi =
      .error (readShort (sat32 (xorStart e bi + xorLen (dim8 e.w) (dim8 e.h) + andLen (dim8 e.h))) k) := by
  have hdim : ¬ (dim8 e.w ≠ 16 ∧ dim8 e.w ≠ 32) := by omega
  rw [decodeEntry, if_neg (not_not_intro hbpp), if_neg hdim, if_pos h]

theorem decodeEntry_outCap (hlen : xorStart e bi + xorLen (dim8 e.w) (dim8 e.h) + andLen (dim8 e.h) ≤ inp.len)
    (h : cap < dim8 e.w * dim8 e.h) :
    decodeEntry inp cap k e bi = .error (allocationFailure .outCap (dim8 e.w * dim8 e.h) k) := by
  have hdim : ¬ (dim8 e.w ≠ 16 ∧ dim8 e.w ≠ 32) := by omega
  rw [decodeEntry, if_neg (not_not_intro hbpp), if_neg hdim, if_neg (Nat.not_lt.mpr hlen), if_pos h]

end

/-! ## The rules on a file that passes -/

section
variable {s : State} (hico : IcoHeaderPasses s.params.tocMax s.icoInput)
  (hall : ∀ j < countField s.icoInput, EntryPasses s.icoInput j)
include hico hall

theorem outcomeOf_parse_of_passes : outcomeOf .parse s =
    .ok { info := none, out := none, toc := some (inputRecordList s.icoInput (countField s.icoInput)) } := by
  simp only [outcomeOf, runParse, parseIco_of_passes hico hall, parsedRecords_eq]

theorem outcomeOf_decode_missing {k : Nat} (hk : countField s.icoInput ≤ k) :
    outcomeOf (.decode k) s = .error (usageError .cmdIdx k k) := by
  have hnone : ((List.range (countField s.icoInput)).map (readEntry s.icoInput))[k]? = none := by simpa using hk
  simp only [outcomeOf, runDecode, parseIco_of_passes hico hall, hnone]

/-- DECODE of a present entry answers what its entry step answers, with the records of the file (R264). -/
theorem outcomeOf_decode_of_passes {k : Nat} (hk : k < countField s.icoInput) : outcomeOf (.decode k) s =
    (decodeEntry s.icoInput s.params.outCap k (readEntry s.icoInput k).1 (readEntry s.icoInput k).2).map fun d =>
      { info := none, out := some d, toc := some (inputRecordList s.icoInput (countField s.icoInput)) } := by
  have hentry : ((List.range (countField s.icoInput)).map (readEntry s.icoInput))[k]? = some (readEntry s.icoInput k) := by
    simp [hk]
  simp only [outcomeOf, runDecode, parseIco_of_passes hico hall, hentry, parsedRecords_eq]
  cases decodeEntry s.icoInput s.params.outCap k (readEntry s.icoInput k).1 (readEntry s.icoInput k).2 <;> rfl

end

/-- The completion step of a command with results for TOC only (10_state.md R55). -/
theorem complete_toc (s : State) (rs : List (List Byte)) :
    s.complete (.ok { info := none, out := none, toc := some rs }) =
      { s with status := okStatus s.status s.status.infoV, tocCount := BitVec.ofNat 32 rs.length,
               tocram := s.tocram.write 0 rs.flatten } := rfl

end Sys2Proof.Machine

namespace Sys2Proof.Claims

open Sys2Proof.Machine

/-- Settles O56: the records are the only result. -/
theorem parseCompletes : Obligations.ParseCompletes := by
  intro s b recs hb hico hall hrecs
  subst hb hrecs
  have hlen := inputRecords_length s.icoInput
  have ht : s.complete (outcomeOf .parse s) =
      { s with status := okStatus s.status s.status.infoV, tocCount := BitVec.ofNat 32 (countField s.icoInput),
               tocram := s.tocram.write 0 (inputRecords s.icoInput) } := by
    rw [outcomeOf_parse_of_passes hico hall, complete_toc, inputRecordList_length]
    rfl
  exact ⟨_, (exec_eq .parse s).trans (congrArg _ ht), rfl, hlen,
    bytesAt_zero_iff.mp (bytesAt_write_zero s.tocram .tocram _),
    fun a ha => byte_write_outside _ _ _ _ _ (.inr (by omega))⟩

/-- Settles O60: the checks in their order once the file passes. -/
theorem decodeErrorsInOrder : Obligations.DecodeErrorsInOrder := by
  intro s b k w h fin hb hico hall hw hh hfin
  subst hb hw hh hfin
  refine ⟨fun hk => failsWith_of_outcome (outcomeOf_decode_missing hico hall hk), fun hk => ?_⟩
  have entry {e : CmdError} (he : decodeEntry s.icoInput s.params.outCap k (readEntry s.icoInput k).1
      (readEntry s.icoInput k).2 = .error e) : FailsWith (.decode k) s e :=
    failsWith_of_outcome (by rw [outcomeOf_decode_of_passes hico hall hk, he]; rfl)
  exact ⟨fun h => entry (decodeEntry_bpp h), fun hbpp => ⟨fun h16 h32 => entry (decodeEntry_width hbpp ⟨h16, h32⟩),
    fun hside => ⟨fun hlen => failsWith_of_sat32 (entry (decodeEntry_short hbpp hside hlen)),
      fun hlen hcap => entry (decodeEntry_outCap hbpp hside hlen hcap)⟩⟩⟩

/-- Settles O59: the results are the decoded pixels and the records. -/
theorem decodeCompletes : Obligations.DecodeCompletes := by
  intro s b k w h xb d recs hb hico hall hk hbpp hw hh hside hxb hin hcap hd hrecs
  have hlen : d.length = w * h := by rw [hd, decodeMasks_length]
  subst hb hrecs
  have hreclen := inputRecords_length s.icoInput
  have hdec : decodeEntry s.icoInput s.params.outCap k (readEntry s.icoInput k).1 (readEntry s.icoInput k).2 = .ok d := by
    subst hxb hd
    exact decodeEntry_of_checked hbpp hw.symm hh.symm hside hin hcap
  have ht : s.complete (outcomeOf (.decode k) s) =
      { s with status := okStatus s.status s.status.infoV, outLen := BitVec.ofNat 32 (w * h),
               outmem := s.outmem.write 0 d, tocCount := BitVec.ofNat 32 (countField s.icoInput),
               tocram := s.tocram.write 0 (inputRecords s.icoInput) } := by
    rw [outcomeOf_decode_of_passes hico hall hk, hdec, Except.map, complete_out_toc, hlen, inputRecordList_length]
    rfl
  exact ⟨_, (exec_eq _ s).trans (congrArg _ ht), rfl, hlen, hreclen,
    bytesAt_zero_iff.mp (bytesAt_write_zero s.outmem .outmem d),
    fun a ha => byte_write_outside _ _ _ _ _ (.inr (by omega)),
    bytesAt_zero_iff.mp (bytesAt_write_zero s.tocram .tocram _),
    fun a ha => byte_write_outside _ _ _ _ _ (.inr (by omega))⟩

end Sys2Proof.Claims
end

section
/-! PROOFS. NOP and the illegal word (44_system.md R280, R281): words with an empty write set, whose accept step leaves
every result in place. -/

namespace Sys2Proof.Machine

/-- Of a word with an empty write set the accept step keeps INFO_V and every result (10_state.md R54). -/
theorem accept_of_writeSet_nil {v : Word} (h : writeSet (decode v) = []) (s : State) :
    s.accept v =
      { s with
        cmd := v
        status := { busy := true, done := false, err := false, infoV := s.status.infoV, wdrop := false, kind := 0, reason := 0 }
        errField := 0
        errValue := 0
        errIndex := 0
        stepsLeft := Config.freeSteps s.draws
        draws := s.draws + 1 } := by
  have hkept (g : Group) : clears v g = false := by simp [clears, h]
  simp [State.accept, Status.accepted, hkept]

/-- NOP is only its completion (R280). -/
theorem exec_nop (s : State) : exec .nop s = .next { s with status := { s.status with busy := false, done := true } } := rfl

/-- ERR_VALUE reports a whole word as it is: no word saturates (R11, R281). -/
theorem ofNat_sat32_toNat (v : Word) : BitVec.ofNat 32 (sat32 v.toNat) = v := by
  rw [sat32, Nat.min_eq_left (Nat.le_of_lt_succ v.isLt), BitVec.ofNat_toNat, BitVec.setWidth_eq]

/-- The completion step of an illegal word writes the report of IllegalCommand and nothing else (R281). -/
theorem execIllegal_eq (v : Word) (s : State) : execIllegal v s = .next
    { s with
      status := { s.status with busy := false, done := true, err := true, kind := 7, reason := 0 }
      errField := 13
      errValue := v
      errIndex := 0 } := by
  rw [execIllegal, State.complete, State.enterError, show (illegalError v).value = v.toNat from rfl, ofNat_sat32_toNat]
  rfl

end Sys2Proof.Machine

namespace Sys2Proof.Claims

open Sys2Proof.Machine

/-- Settles O34: the word has no write set, and its completion step writes only the report. -/
theorem illegalWordCompletes : Obligations.IllegalWordCompletes := by
  intro s v hb hd
  refine ⟨s.accept v, _, hostAccess_writeCmd hb v, (completionStep_illegal hd).trans (execIllegal_eq v _), ?_⟩
  rw [accept_of_writeSet_nil (congrArg writeSet hd)]
  exact ⟨rfl, rfl, rfl, rfl, rfl, rfl, rfl, rfl, rfl, rfl, rfl, rfl⟩

/-- Settles O33: NOP has no write set, and its completion step writes only BUSY and DONE. -/
theorem nopCompletes : Obligations.NopCompletes := by
  refine ⟨exec_nop, fun s hb => ?_⟩
  have hd : decode 0x00000000#32 = some .nop := by decide
  refine ⟨s.accept 0x00000000#32, _, hostAccess_writeCmd hb _, (completionStep_legal hd).trans (exec_nop _), ?_⟩
  rw [accept_of_writeSet_nil (congrArg writeSet hd)]
  exact ⟨rfl, rfl, rfl, rfl, rfl, rfl, rfl, rfl, rfl, rfl, rfl⟩

end Sys2Proof.Claims
end

section
/-! PROOFS. Errors: the codes, the completion step that ends with ERR = 1, and a host whose accesses all have a meaning
(60_exceptions.md R301 to R317). -/

namespace Sys2Proof.Machine

open Sys2Proof.Claims

/-! ## Codes of legal reports -/

/-- The kinds that the core raises have the codes of R301 without 2, and VerifyFailure alone has 5. -/
theorem errKind_code_of_core {k : ErrKind} (h : k ≠ .fileOpenFailure) :
    (k.code = 1 ∨ k.code = 3 ∨ k.code = 4 ∨ k.code = 5 ∨ k.code = 6 ∨ k.code = 7) ∧
      (k.code = 5 ↔ k = .verifyFailure) := by
  cases k with
  | fileOpenFailure => exact absurd rfl h
  | _ => decide

theorem errReason_code_eq_zero_iff (r : ErrReason) : r.code = 0 ↔ r = .none := by cases r <;> decide

theorem errReason_code_le (r : ErrReason) : r.code.toNat ≤ 6 := by cases r <;> decide

theorem errField_code_range (f : ErrField) : 1 ≤ f.code.toNat ∧ f.code.toNat ≤ 17 := by cases f <;> decide

/-! ## The completion step with ERR = 1 -/

/-- ERR is 0 after an accept step, so a completion step that ends with ERR = 1 is the error entry of an error of the
word's rule (R54, R310). -/
theorem completionStep_accept_err {s t : State} {v : Word} (h : completionStep (s.accept v) = .next t)
    (herr : t.status.err = true) :
    ∃ e, wordOutcome v (s.accept v) = .error e ∧ t = (s.accept v).enterError e := by
  rw [completionStep_eq] at h
  cases h
  cases ho : wordOutcome v (s.accept v) with
  | error e => exact ⟨e, rfl, by rw [accept_cmd, ho, complete_error]⟩
  | ok r => simp [ho] at herr

/-- The accept step leaves INFO invalid and unspecified if it is in the write set (R50, R54; log 8). -/
theorem accept_info_invalid {s : State} {v : Word} (h : touchesInfo (decode v) = true) :
    (s.accept v).status.infoV = false ∧ (s.accept v).info = .unspecified s.draws := by simp [clears_info, h]

/-- The accept step leaves OUT invalid and unspecified if it is in the write set (R50, R54; log 7). -/
theorem accept_out_invalid {s : State} {v : Word} (h : touchesOut (decode v) = true) :
    (s.accept v).outLen = 0 ∧ (s.accept v).outmem = Memory.unspecified s.draws := by simp [clears_out, h]

/-- The accept step leaves TOC invalid and unspecified if it is in the write set (R50, R54; log 7). -/
theorem accept_toc_invalid {s : State} {v : Word} (h : touchesToc (decode v) = true) :
    (s.accept v).tocCount = 0 ∧ (s.accept v).tocram = Memory.unspecified s.draws := by simp [clears_toc, h]

/-! ## The host's list -/

/-- The parameters are kept, and every access that the host has left to make it had to make before. -/
def HostKept (s t : State) : Prop := t.params = s.params ∧ t.host ⊆ s.host

theorem HostKept.hostValid {s t : State} (h : HostKept s t) (hv : s.hostValid) : t.hostValid := by
  obtain ⟨hparams, hhost⟩ := h
  intro op hop
  rw [hparams]
  exact hv op (hhost hop)

theorem setReg_keeps_host (s : State) (o : Nat) (v : Word) :
    (s.setReg o v).params = s.params ∧ (s.setReg o v).host = s.host := by
  rcases setReg_cases s o v with ⟨-, hs⟩ | ⟨-, hs⟩ | ⟨-, hs⟩ | ⟨-, hs⟩ | ⟨-, hs⟩ | hs <;> rw [hs] <;> exact ⟨rfl, rfl⟩

theorem setByte_keeps_host (s : State) (sp : Space) (a : Nat) (b : Byte) :
    (s.setByte sp a b).params = s.params ∧ (s.setByte sp a b).host = s.host := by
  cases sp <;> exact ⟨rfl, rfl⟩

/-- A host access keeps the parameters and the rest of the host's list; a wait on a busy block stays on it (R354). -/
theorem hostAccess_host {op : HostOp} {s t : State} (h : hostAccess op s = .next t) :
    t.params = s.params ∧ (t.host = s.host ∨ t.host = op :: s.host) := by
  rcases hostAccess_cases h with ⟨o, v, -, -, -, rfl⟩ | ⟨o, -, -, -, rfl⟩ | ⟨sp, a, b, -, -, rfl⟩ | ⟨sp, a, -, -, rfl⟩ |
    ⟨rfl, -, rfl⟩ | ⟨-, -, rfl⟩ | ⟨-, rfl⟩
  · unfold State.hostWriteReg
    split
    · exact ⟨rfl, .inl rfl⟩
    · exact (setReg_keeps_host s o v).imp_right .inl
  · unfold State.hostReadReg
    split <;> exact ⟨rfl, .inl rfl⟩
  · unfold State.hostWriteByte
    split
    · split <;> exact ⟨rfl, .inl rfl⟩
    · exact (setByte_keeps_host s sp a b).imp_right .inl
  · unfold State.hostReadByte
    split <;> exact ⟨rfl, .inl rfl⟩
  · exact ⟨rfl, .inr rfl⟩
  · exact ⟨rfl, .inl rfl⟩
  · exact ⟨rfl, .inl rfl⟩

theorem hostStep_keeps_host {s t : State} (h : hostStep s = .next t) : HostKept s t := by
  rcases hostStep_cases h with ⟨-, rfl⟩ | ⟨op, rest, hh, ha⟩
  · exact ⟨rfl, List.Subset.refl _⟩
  · obtain ⟨hparams, hrest | hwait⟩ := hostAccess_host ha
    · exact ⟨hparams, by simp [hrest, hh]⟩
    · exact ⟨hparams, by simp [hwait, hh]⟩

theorem step_keeps_host {s t : State} (h : step s = .next t) : HostKept s t := by
  rcases step_cases h with ⟨-, -, rfl⟩ | ⟨n, -, -, hh⟩ | ⟨-, hh⟩
  · exact ⟨complete_params s _, by simp⟩
  · exact hostStep_keeps_host (s := { s with stepsLeft := n }) hh
  · exact hostStep_keeps_host hh

/-- No command stops the block, and no access that has a meaning does (R317). -/
theorem step_next_of_valid {s : State} (h : s.hostValid) : ∃ t, step s = .next t := by
  cases hb : s.status.busy with
  | false => exact step_idle hb ▸ hostStep_next_of_valid h
  | true =>
    cases hn : s.stepsLeft with
    | zero => exact ⟨_, (step_completion hb hn).trans (completionStep_eq s)⟩
    | succ n => exact step_internal hb hn ▸ hostStep_next_of_valid (s := { s with stepsLeft := n }) h

end Sys2Proof.Machine

namespace Sys2Proof.Claims

open Sys2Proof.Machine

/-- Settles O10: the error entry writes only the report, so each group is as the accept step left it. -/
theorem errorEntry : Obligations.ErrorEntry := by
  intro s t v h herr
  obtain ⟨e, -, rfl⟩ := completionStep_accept_err h herr
  refine ⟨e, rfl, fun hi => ?_, fun ho => ?_, fun ht => ?_⟩
  · obtain ⟨hinfoV, hinfo⟩ := accept_info_invalid (s := s) hi
    exact ⟨hinfoV, fun f => congrArg (infoWord · f) hinfo⟩
  · obtain ⟨hlen, hmem⟩ := accept_out_invalid (s := s) ho
    exact ⟨hlen, fun a => congrArg (·.byte .outmem a) hmem⟩
  · obtain ⟨hcount, hmem⟩ := accept_toc_invalid (s := s) ht
    exact ⟨hcount, fun a => congrArg (·.byte .tocram a) hmem⟩

/-- Settles O12: the report is that of a legal error, whose codes are those of the core. -/
theorem coreNeverReportsFileOpenFailure : Obligations.CoreNeverReportsFileOpenFailure := by
  intro s t v h herr
  obtain ⟨e, he, rfl⟩ := completionStep_accept_err h herr
  obtain ⟨hkind, hreason⟩ := wordOutcome_error he
  obtain ⟨hcodes, hverify⟩ := errKind_code_of_core hkind
  exact ⟨hcodes, hverify.trans (hreason.trans (not_congr (errReason_code_eq_zero_iff e.reason).symm)),
    errReason_code_le e.reason, errField_code_range e.field⟩

/-- Settles O20: a valid host has a next state, which takes accesses off its list or leaves them there. -/
theorem validHostNeverFaults : Obligations.ValidHostNeverFaults := by
  intro s hv
  obtain ⟨t, ht⟩ := step_next_of_valid hv
  exact ⟨t, ht, (step_keeps_host ht).hostValid hv⟩

/-- Settles O11: the tables of R301, R302 and R303, row by row. -/
theorem errorCodes : Obligations.ErrorCodes := ⟨rfl, rfl, rfl⟩

end Sys2Proof.Claims
end

section
/-! PROOFS. The reset input (70_reset_and_hazards.md R340 to R342): it leaves the registers that a power-on reset leaves,
the memories it found, and an idle block. -/

namespace Sys2Proof.Machine

/-- R340: the reset input and a power-on reset leave the same registers. -/
theorem resetEvent_reg (s : State) (r : Reg) : s.resetEvent.reg r = (State.resetWith s.params).reg r := by
  cases r <;> rfl

/-- R342: the reset input writes no memory (log 15). -/
@[simp] theorem resetEvent_mem (s : State) (sp : Space) : s.resetEvent.mem sp = s.mem sp := by
  cases sp <;> rfl

/-- R341: the reset input aborts a running command, so the next step is the host's. -/
theorem step_resetEvent (s : State) : step s.resetEvent = hostStep s.resetEvent := step_idle rfl

end Sys2Proof.Machine

namespace Sys2Proof.Claims

open Sys2Proof.Machine

/-- Settles O22: the registers are those of the power-on reset, which `powerOnReset` gives. -/
theorem resetInput : Obligations.ResetInput := by
  intro s
  obtain ⟨hregs, -⟩ := powerOnReset s.params
  exact ⟨s.resetEvent, rfl, fun r => (resetEvent_reg s r).trans (hregs r), rfl, rfl, rfl,
    fun sp a => congrArg (·.byte sp a) (resetEvent_mem s sp), step_resetEvent s⟩

end Sys2Proof.Claims
end
